-- ==== Sys2Proof/Word.lean ====
section
/-! DEFINITION. The word types of FP61U (spec `00_scope.md` R7, R8, R9; `30_encoding.md` R80).

A `BitVec` stands only for what the spec treats as bits: register contents, addresses while they are computed,
command words and their fields. -/

namespace Sys2Proof

/-- A u64: a data register, an address, a workspace (R7: "word width W, 64 bits"; R9: arithmetic wraps modulo 2^64). -/
abbrev Word := BitVec 64

/-- One byte of the data address space (R60). -/
abbrev Byte := BitVec 8

/-- A 32-bit command word of format C (R80). -/
abbrev CmdWord := BitVec 32

/-- A data register index, the 4-bit unsigned value of a register field (R82). -/
abbrev Reg := BitVec 4

end Sys2Proof
end

