-- ==== Sys2Proof/Config.lean ====
section
/-! DEFINITION. The free values: what the spec leaves to chance and no proof may know.

The parameters a platform fixes (`mem_fault`, where the memory port sees the register window) are plain data in the state
(`Machine/State.lean`, `Platform`): assumptions 3 and 4. -/

namespace Sys2Proof.Config

/-- The n-th free byte: "any byte value" of a byte that another agent writes while a command reads or writes it
(`20_memory.md` R73(c), `93_implementation_defined.md` I6; assumption 7). -/
opaque freeByte : Nat → Byte

/-- The n-th free length: how many bytes of its write an abandoned command had stored (`70_reset_and_hazards.md` R280,
`93_implementation_defined.md` I16; assumption 8). -/
opaque freePrefix : Nat → Nat

end Sys2Proof.Config
end

