-- ==== Sys2Proof/Syntax.lean ====
section
/-! DEFINITION. The commands of FP61U: one constructor per row of the opcode map (spec `30_encoding.md` R83).

A constructor's arguments are the fields the row lists, in the order RD, RS1, RS2, RS3, RS4 of the assembler (R89). Every
operand is a data register (R82): there are no immediates and no addressing modes. The pseudo-instructions of R90 are other
spellings of these commands and have no constructor. -/

namespace Sys2Proof

/-- The 19 commands of the opcode map (R83). -/
inductive Instr where
  /-- PRED rd, rs1 (R100). -/
  | pred (rd rs1 : Reg)
  /-- FIN rd, rs1 (R105). -/
  | fin (rd rs1 : Reg)
  /-- ADD4 rd, rs1, rs2, rs3, rs4 (R110). -/
  | add4 (rd rs1 rs2 rs3 rs4 : Reg)
  /-- NEG rd, rs1 (R115). -/
  | neg (rd rs1 : Reg)
  /-- MUL rd, rs1, rs2 (R140). -/
  | mul (rd rs1 rs2 : Reg)
  /-- INV rd, rs1 (R148). -/
  | inv (rd rs1 : Reg)
  /-- BRBEGIN rs1, rs2: base, length (R171). -/
  | brbegin (rs1 rs2 : Reg)
  /-- BRREAD rd (R172). -/
  | brread (rd : Reg)
  /-- BRMAXW rd, rs1 (R181). -/
  | brmaxw (rd rs1 : Reg)
  /-- BWBEGIN rs1: base (R190). -/
  | bwbegin (rs1 : Reg)
  /-- BWWRITE rs1 (R191). -/
  | bwwrite (rs1 : Reg)
  /-- BWFLUSH rd (R195). -/
  | bwflush (rd : Reg)
  /-- BWMAXB rd, rs1 (R199). -/
  | bwmaxb (rd rs1 : Reg)
  /-- WRBEGIN rs1, rs2: base, length (R221). -/
  | wrbegin (rs1 rs2 : Reg)
  /-- WRREAD rd (R222). -/
  | wrread (rd : Reg)
  /-- WCOUNT rd, rs1 (R230). -/
  | wcount (rd rs1 : Reg)
  /-- WWBEGIN rs1: base (R238). -/
  | wwbegin (rs1 : Reg)
  /-- WWWRITE rs1 (R239). -/
  | wwwrite (rs1 : Reg)
  /-- WWFLUSH rd (R242). -/
  | wwflush (rd : Reg)
  deriving DecidableEq, Repr

end Sys2Proof
end

