-- ==== Sys2Proof/WellFormed.lean ====
section
/-! DEFINITION. Which 64-bit CMD values are well-formed commands, by the `match` and `mask` of the opcode table.

A register operand is a 4-bit field (R82), so every term of `Instr` is well-formed by its type; what can be ill-formed is a
CMD value: its upper half, its opcode, its RSV field or a register field its opcode does not use (spec `30_encoding.md` R81,
R84). This file says it the way the opcode table does ("a decoder built from that table accepts a 32-bit word w for a row iff
w & mask = match", `95_test_vectors.md` V-DEC); `Decode.lean` says it field by field, as R81 does. That the two agree is a
statement about the model, not a definition. -/

namespace Sys2Proof

/-- One row of `opcode_table.json`: the mask of the bits the row fixes and their values. -/
structure OpcodeRow where
  /-- The bits the row fixes. -/
  mask : CmdWord
  /-- The values of the fixed bits. -/
  pattern : CmdWord
  deriving DecidableEq, Repr

/-- The 19 rows of the opcode map, in the table's order (R83; match and mask as each command's rule gives them). -/
def opcodeTable : List OpcodeRow :=
  [ ⟨0xFC03FFFF#32, 0x04000000#32⟩,   -- PRED
    ⟨0xFC03FFFF#32, 0x08000000#32⟩,   -- FIN
    ⟨0xFC00003F#32, 0x0C000000#32⟩,   -- ADD4
    ⟨0xFC03FFFF#32, 0x10000000#32⟩,   -- NEG
    ⟨0xFC003FFF#32, 0x14000000#32⟩,   -- MUL
    ⟨0xFC03FFFF#32, 0x18000000#32⟩,   -- INV
    ⟨0xFFC03FFF#32, 0x40000000#32⟩,   -- BRBEGIN
    ⟨0xFC3FFFFF#32, 0x44000000#32⟩,   -- BRREAD
    ⟨0xFC03FFFF#32, 0x48000000#32⟩,   -- BRMAXW
    ⟨0xFFC3FFFF#32, 0x50000000#32⟩,   -- BWBEGIN
    ⟨0xFFC3FFFF#32, 0x54000000#32⟩,   -- BWWRITE
    ⟨0xFC3FFFFF#32, 0x58000000#32⟩,   -- BWFLUSH
    ⟨0xFC03FFFF#32, 0x5C000000#32⟩,   -- BWMAXB
    ⟨0xFFC03FFF#32, 0x60000000#32⟩,   -- WRBEGIN
    ⟨0xFC3FFFFF#32, 0x64000000#32⟩,   -- WRREAD
    ⟨0xFC03FFFF#32, 0x68000000#32⟩,   -- WCOUNT
    ⟨0xFFC3FFFF#32, 0x70000000#32⟩,   -- WWBEGIN
    ⟨0xFFC3FFFF#32, 0x74000000#32⟩,   -- WWWRITE
    ⟨0xFC3FFFFF#32, 0x78000000#32⟩ ]  -- WWFLUSH

/-- A 32-bit command word is well-formed when some row accepts it (R83, R84). -/
def CmdWord.wellFormed (c : CmdWord) : Bool :=
  opcodeTable.any fun row => c &&& row.mask == row.pattern

/-- A 64-bit CMD value is well-formed when its upper half is zero (R81) and its lower half is a well-formed command word. -/
def cmdWellFormed (v : Word) : Bool :=
  v.extractLsb' 32 32 == 0#32 && CmdWord.wellFormed (v.setWidth 32)

end Sys2Proof
end

