-- ==== Sys2Proof/Decode.lean ====
section
/-! DEFINITION. Decoding a CMD value and encoding a command (spec `30_encoding.md` R80–R86).

The decoder is total on the 64-bit value the host writes to CMD and rejects by name; every rejection is the error ILLEGAL
(R81, R250). The encoder lays the fields out as R80 does. -/

namespace Sys2Proof

/-- Bits 31:26 of a command word (R80). -/
def opcOf (c : CmdWord) : BitVec 6 := c.extractLsb' 26 6

/-- Bits 25:22 of a command word: the destination register (R80). -/
def rdOf (c : CmdWord) : Reg := c.extractLsb' 22 4

/-- Bits 21:18 of a command word (R80). -/
def rs1Of (c : CmdWord) : Reg := c.extractLsb' 18 4

/-- Bits 17:14 of a command word (R80). -/
def rs2Of (c : CmdWord) : Reg := c.extractLsb' 14 4

/-- Bits 13:10 of a command word (R80). -/
def rs3Of (c : CmdWord) : Reg := c.extractLsb' 10 4

/-- Bits 9:6 of a command word (R80). -/
def rs4Of (c : CmdWord) : Reg := c.extractLsb' 6 4

/-- Bits 5:0 of a command word, reserved and zero (R80). -/
def rsvOf (c : CmdWord) : BitVec 6 := c.extractLsb' 0 6

/-- Why a CMD value does not decode, in the order R81 checks. Each raises ILLEGAL (R250). -/
inductive DecodeReject where
  /-- CMD bits 63:32 are not zero. -/
  | upperHalf
  /-- OPC is not in the opcode map. -/
  | opcode
  /-- RSV is not zero. -/
  | reserved
  /-- A register field the opcode does not use is not zero. -/
  | unusedField
  deriving DecidableEq, Repr

/-- What decoding a CMD value gives. -/
inductive Decoded where
  /-- The value is the encoding of this command. -/
  | instr (i : Instr)
  /-- The value raises ILLEGAL, for this reason. -/
  | illegal (why : DecodeReject)
  deriving DecidableEq, Repr

/-- The last two checks of R81, once the opcode is known: RSV, then the unused register fields, then the command. -/
def checkedFields (c : CmdWord) (unused : List Reg) (i : Instr) : Decoded :=
  if rsvOf c ≠ 0#6 then .illegal .reserved
  else if unused.any (· ≠ 0#4) then .illegal .unusedField
  else .instr i

/-- Decoding a 32-bit command word by its opcode (R81, R83). -/
def decodeWord (c : CmdWord) : Decoded :=
  let rd := rdOf c
  let rs1 := rs1Of c
  let rs2 := rs2Of c
  let rs3 := rs3Of c
  let rs4 := rs4Of c
  match (opcOf c).toNat with
  | 0x01 => checkedFields c [rs2, rs3, rs4] (.pred rd rs1)
  | 0x02 => checkedFields c [rs2, rs3, rs4] (.fin rd rs1)
  | 0x03 => checkedFields c [] (.add4 rd rs1 rs2 rs3 rs4)
  | 0x04 => checkedFields c [rs2, rs3, rs4] (.neg rd rs1)
  | 0x05 => checkedFields c [rs3, rs4] (.mul rd rs1 rs2)
  | 0x06 => checkedFields c [rs2, rs3, rs4] (.inv rd rs1)
  | 0x10 => checkedFields c [rd, rs3, rs4] (.brbegin rs1 rs2)
  | 0x11 => checkedFields c [rs1, rs2, rs3, rs4] (.brread rd)
  | 0x12 => checkedFields c [rs2, rs3, rs4] (.brmaxw rd rs1)
  | 0x14 => checkedFields c [rd, rs2, rs3, rs4] (.bwbegin rs1)
  | 0x15 => checkedFields c [rd, rs2, rs3, rs4] (.bwwrite rs1)
  | 0x16 => checkedFields c [rs1, rs2, rs3, rs4] (.bwflush rd)
  | 0x17 => checkedFields c [rs2, rs3, rs4] (.bwmaxb rd rs1)
  | 0x18 => checkedFields c [rd, rs3, rs4] (.wrbegin rs1 rs2)
  | 0x19 => checkedFields c [rs1, rs2, rs3, rs4] (.wrread rd)
  | 0x1A => checkedFields c [rs2, rs3, rs4] (.wcount rd rs1)
  | 0x1C => checkedFields c [rd, rs2, rs3, rs4] (.wwbegin rs1)
  | 0x1D => checkedFields c [rd, rs2, rs3, rs4] (.wwwrite rs1)
  | 0x1E => checkedFields c [rs1, rs2, rs3, rs4] (.wwflush rd)
  | _ => .illegal .opcode

/-- Decoding the 64-bit value of a CMD write (R81). -/
def decode (v : Word) : Decoded :=
  if v.extractLsb' 32 32 ≠ 0#32 then .illegal .upperHalf else decodeWord (v.setWidth 32)

/-- A command word from its fields, RSV zero (R80). -/
def packFields (opc : BitVec 6) (rd rs1 rs2 rs3 rs4 : Reg) : CmdWord :=
  opc ++ rd ++ rs1 ++ rs2 ++ rs3 ++ rs4 ++ 0#6

/-- The encoding of a command: its opcode (R83), its fields, and zero in the fields it does not use (R80). -/
def encode : Instr → CmdWord
  | .pred rd rs1 => packFields 0x01#6 rd rs1 0#4 0#4 0#4
  | .fin rd rs1 => packFields 0x02#6 rd rs1 0#4 0#4 0#4
  | .add4 rd rs1 rs2 rs3 rs4 => packFields 0x03#6 rd rs1 rs2 rs3 rs4
  | .neg rd rs1 => packFields 0x04#6 rd rs1 0#4 0#4 0#4
  | .mul rd rs1 rs2 => packFields 0x05#6 rd rs1 rs2 0#4 0#4
  | .inv rd rs1 => packFields 0x06#6 rd rs1 0#4 0#4 0#4
  | .brbegin rs1 rs2 => packFields 0x10#6 0#4 rs1 rs2 0#4 0#4
  | .brread rd => packFields 0x11#6 rd 0#4 0#4 0#4 0#4
  | .brmaxw rd rs1 => packFields 0x12#6 rd rs1 0#4 0#4 0#4
  | .bwbegin rs1 => packFields 0x14#6 0#4 rs1 0#4 0#4 0#4
  | .bwwrite rs1 => packFields 0x15#6 0#4 rs1 0#4 0#4 0#4
  | .bwflush rd => packFields 0x16#6 rd 0#4 0#4 0#4 0#4
  | .bwmaxb rd rs1 => packFields 0x17#6 rd rs1 0#4 0#4 0#4
  | .wrbegin rs1 rs2 => packFields 0x18#6 0#4 rs1 rs2 0#4 0#4
  | .wrread rd => packFields 0x19#6 rd 0#4 0#4 0#4 0#4
  | .wcount rd rs1 => packFields 0x1A#6 rd rs1 0#4 0#4 0#4
  | .wwbegin rs1 => packFields 0x1C#6 0#4 rs1 0#4 0#4 0#4
  | .wwwrite rs1 => packFields 0x1D#6 0#4 rs1 0#4 0#4 0#4
  | .wwflush rd => packFields 0x1E#6 rd 0#4 0#4 0#4 0#4

/-- The 64-bit CMD value of a command: its word, zero-extended (R36, R91). -/
def cmdValue (i : Instr) : Word := (encode i).setWidth 64

/-- The command the decoder reads from the low `nbits` bits of `w`, numbered as the opcode table numbers them: the host's
question of a table row. A command is one CMD value, so there is no byte order to lay out (R64, R77). -/
def decodeTableWord (nbits w : Nat) : Option Instr :=
  let v := w % 2 ^ nbits
  if v < 2 ^ 64 then
    match decode (BitVec.ofNat 64 v) with
    | .instr i => some i
    | .illegal _ => none
  else none

end Sys2Proof
end

