-- ==== Sys2Proof/Machine/State.lean ====
section
/-! DEFINITION. The state of FP61U as plain data (spec `10_state.md`), the host's events, the outcomes that stop a run, and
the state after reset (R46). -/

namespace Sys2Proof.Machine

/-- The error codes of STATUS.ECODE (R31). The reserved codes 5–15 are never produced, so they are no constructor. -/
inductive ECode where
  /-- 0: no error is recorded. -/
  | none
  /-- 1: a CMD value that does not decode (R250). -/
  | illegal
  /-- 2: an operand outside its command's domain (R251). -/
  | domain
  /-- 3: a cursor that is not bound (R253). -/
  | notbound
  /-- 4: a byte access the memory port refused (R254). -/
  | memfault
  deriving DecidableEq, Repr

/-- A reader cursor, BR or WR (R38, R40). -/
structure Reader where
  /-- STATUS bit 8 (BR) or 10 (WR). -/
  bound : Bool
  /-- Address of the next unread source byte. -/
  addr : Word
  /-- Number of source bytes not yet read from memory. -/
  rem : Word
  /-- Workspace: the valid bits not yet consumed, in the low AVAIL bits. -/
  ws : Word
  /-- Valid bits in the workspace, a signed 8-bit value. -/
  avail : BitVec 8
  deriving DecidableEq, Repr

/-- A writer cursor, BW or WW (R39, R41). -/
structure Writer where
  /-- STATUS bit 9 (BW) or 11 (WW). -/
  bound : Bool
  /-- Address of the next byte to store. -/
  addr : Word
  /-- The address at BEGIN; the flush count is measured from it. -/
  start : Word
  /-- Workspace: the pending bits, in the low AVAIL bits. -/
  ws : Word
  /-- Pending bits in the workspace, 0 … 63. -/
  avail : BitVec 6
  deriving DecidableEq, Repr

/-- The two kinds of byte access the memory port distinguishes (R63). -/
inductive AccessKind where
  | read
  | write
  deriving DecidableEq, Repr

/-- A range of byte addresses, both ends included, that the memory port refuses for the kinds marked (R63). -/
structure RefusedRange where
  lo : Word
  hi : Word
  onRead : Bool
  onWrite : Bool
  deriving DecidableEq, Repr

/-- The platform's open parameters, fixed for a run (R63, R70). Any predicate `mem_fault` on the 2^64 addresses and two kinds
is a finite list of ranges (assumption 3). -/
structure Platform where
  /-- The ranges whose bytes the memory port refuses: `mem_fault`. -/
  refused : List RefusedRange
  /-- Where the memory port sees the unit's own 4 KiB register window, if it can (R70; assumption 4). -/
  window : Option Word
  deriving DecidableEq, Repr

/-- The data address space: the bytes that differ from what an unlisted address reads as, by rising address (R60). -/
abbrev Memory := List Host.Cell

/-- What the agents outside the unit do, one event per step (R91, R73, R280, R286). -/
inductive HostEvent where
  /-- A host write of `v`, `nbytes` wide, at offset `off` of the register window (R23, R270). -/
  | write (off : BitVec 12) (nbytes : Nat) (v : Word)
  /-- A host read, `nbytes` wide, at offset `off` of the register window (R23, R270). -/
  | read (off : BitVec 12) (nbytes : Nat)
  /-- The host stores bytes at `a`, `a + 1`, … while no command executes (R91 `host.mem`, R73(a)). -/
  | store (a : Word) (bytes : List Byte)
  /-- The platform's reset input while no command executes (R280). -/
  | hwReset
  /-- The host writes `v` to CMD and reads offset `off` (aligned, 64 bits) while the command executes (R286). -/
  | polledCmd (v : Word) (off : BitVec 12)
  /-- The host writes `v` to CMD and other agents write the bytes at `racing` while the command executes (R73(c)). -/
  | racedCmd (v : Word) (racing : List Word)
  /-- The host writes `v` to CMD and the reset input is asserted while the command executes (R280, I16). -/
  | abandonedCmd (v : Word)
  deriving DecidableEq, Repr

/-- Reasons a step stops in a fault. There are none: every error of the spec is recorded in STATUS and the unit goes on (R252,
R259). -/
inductive Fault where
  deriving DecidableEq, Repr

/-- Reasons a step is refused. -/
inductive Refusal where
  /-- Raised by `exec` for a command that has no meaning in the model; safe. No arm uses it: every command is modelled. -/
  | notModelled (mnemonic : String)
  /-- Raised by a codec command whose access would reach the unit's own register window through the memory port, at this
  address: "has no meaning in this spec. A model refuses it" (R70, I9); safe. -/
  | ownWindow (a : Word)
  /-- Raised by a host access narrower than 64 bits or not 8-byte aligned: "has no meaning in this spec. A model refuses it"
  (R270, I7); safe. -/
  | hostNarrowAccess (off : BitVec 12) (nbytes : Nat)
  deriving DecidableEq, Repr

/-- The state of FP61U, the memory it reaches, and the outside world's part of a run. -/
structure State where
  /-- f1 … f15 at indices 0 … 14; f0 is hardwired to zero and has no storage (R21). -/
  regs : Vector Word 15
  /-- CTRL.EIE (R25). -/
  eie : Bool
  /-- CTRL.DIE (R25). -/
  die : Bool
  /-- STATUS.BUSY (R27); assumption 6. -/
  busy : Bool
  /-- STATUS.EMPTY (R28). -/
  empty : Bool
  /-- STATUS.ERR (R29). -/
  err : Bool
  /-- STATUS.DONE (R30). -/
  done : Bool
  /-- STATUS.ECODE (R31). -/
  ecode : ECode
  /-- FAULT_CMD (R34). -/
  faultCmd : Word
  /-- FAULT_ADDR (R35). -/
  faultAddr : Word
  /-- The byte reader (R38). -/
  br : Reader
  /-- The byte writer (R39). -/
  bw : Writer
  /-- The word reader (R40). -/
  wr : Reader
  /-- The word writer (R41). -/
  ww : Writer
  /-- The data address space (R60). -/
  mem : Memory
  /-- The model's own: the platform's open parameters (R63, R70; assumptions 3, 4). -/
  platform : Platform
  /-- The model's own: the host events not yet performed, oldest first (assumption 1). -/
  bus : List HostEvent
  /-- The model's own: the values host reads have returned, oldest first (assumption 12). -/
  replies : List Word
  /-- The model's own: how many free values the run has used (assumption 12). -/
  freeCount : Nat
  deriving DecidableEq, Repr

/-- A reader after reset (R38, R40, R46). -/
def Reader.reset : Reader := { bound := false, addr := 0#64, rem := 0#64, ws := 0#64, avail := 0#8 }

/-- A writer after reset (R39, R41, R46). -/
def Writer.reset : Writer := { bound := false, addr := 0#64, start := 0#64, ws := 0#64, avail := 0#6 }

/-- The machine right after reset (R46): every register 0, every cursor unbound, nothing enabled. Memory lists nothing
(assumption 2), the platform refuses nothing (assumptions 3, 4) and no host event waits (assumption 1). -/
def State.reset : State :=
  { regs := Vector.replicate 15 0#64
    eie := false, die := false
    busy := false, empty := false, err := false, done := false, ecode := .none
    faultCmd := 0#64, faultAddr := 0#64
    br := Reader.reset, bw := Writer.reset, wr := Reader.reset, ww := Writer.reset
    mem := []
    platform := { refused := [], window := none }
    bus := [], replies := [], freeCount := 0 }

end Sys2Proof.Machine
end

