-- ==== Sys2Proof/Machine/Ops.lean ====
section
/-! DEFINITION. The named operations over registers, memory and the error record (spec `10_state.md` R21–R35,
`20_memory.md` R60–R63, `60_exceptions.md` R252–R260, `70_reset_and_hazards.md` R280). -/

namespace Sys2Proof.Machine

/-- What a step of FP61U answers. -/
abbrev Result := Host.Outcome State Fault Refusal

/-! ### Data registers -/

/-- Reading data register `r`: f0 reads 0, the others their storage (R21). -/
def State.getReg (s : State) (r : Reg) : Word :=
  if r = 0#4 then 0#64 else s.regs[r.toNat - 1]'(by have := r.isLt; omega)

/-- Writing data register `r`: a write to f0 is discarded (R21). -/
def State.setReg (s : State) (r : Reg) (v : Word) : State :=
  { s with regs := if r = 0#4 then s.regs else s.regs.set (r.toNat - 1) v (by have := r.isLt; omega) }

/-! ### Memory -/

/-- What a byte that nothing has written reads as. DESIGN CHOICE 0, unsafe (assumption 2). -/
def unlistedByte : Byte := 0#8

/-- The byte at an address. -/
def Memory.byteAt : Memory → Nat → Byte
  | [], _ => unlistedByte
  | (b, u) :: m, a => if a = b then u else Memory.byteAt m a

/-- Writing one byte, keeping the canonical form: addresses rising, and no entry equal to `unlistedByte`. -/
def Memory.setByte : Memory → Nat → Byte → Memory
  | [], a, v => if v = unlistedByte then [] else [(a, v)]
  | (b, u) :: m, a, v =>
    if a < b then (if v = unlistedByte then (b, u) :: m else (a, v) :: (b, u) :: m)
    else if a = b then (if v = unlistedByte then m else (a, v) :: m)
    else (b, u) :: Memory.setByte m a v

/-- The canonical form of a memory: addresses strictly rising and below 2^64, and no entry that an unlisted address would
read as. -/
def Memory.wf : Memory → Bool
  | [] => true
  | (a, v) :: m => decide (a < 2 ^ 64) && v != unlistedByte && m.all (fun c => decide (a < c.1)) && Memory.wf m

/-! ### The memory port -/

/-- `mem_fault(a, kind)`: whether the memory port refuses a single-byte access (R63). -/
def Platform.memFault (p : Platform) (a : Word) (k : AccessKind) : Bool :=
  p.refused.any fun r =>
    decide (r.lo ≤ a) && decide (a ≤ r.hi) && (match k with | .read => r.onRead | .write => r.onWrite)

/-- Whether the memory port sees the unit's own 4 KiB register window at `a` (R70). -/
def Platform.inWindow (p : Platform) (a : Word) : Bool :=
  match p.window with
  | none => false
  | some base => decide (a - base < 0x1000#64)

/-- Why the memory port stopped an access. -/
inductive PortStop where
  /-- The port refused this byte: the command raises MEMFAULT (R61, R62). -/
  | memFault (a : Word)
  /-- This byte lies in the unit's own window: the command has no meaning (R70). -/
  | ownWindow (a : Word)
  deriving DecidableEq, Repr

/-- What the memory port answers to a single-byte access. A byte the port refuses is a MEMFAULT whether or not the window
would lie there: a refused byte does not reach the window (assumption 4). -/
def Platform.check (p : Platform) (k : AccessKind) (a : Word) : Option PortStop :=
  if p.memFault a k then some (.memFault a)
  else if p.inWindow a then some (.ownWindow a)
  else none

/-- What a MemRead gives. -/
inductive Fetched where
  /-- All bytes were read; the value assembled little-endian. -/
  | value (w : Word)
  /-- The first byte that stopped the access. -/
  | stopped (p : PortStop)
  deriving DecidableEq, Repr

/-- MemRead(a, n) for n ≤ 8: single bytes in ascending address order modulo 2^64, assembled little-endian (R61). -/
def memRead (p : Platform) (m : Memory) : Word → Nat → Fetched
  | _, 0 => .value 0#64
  | a, n + 1 =>
    match p.check .read a with
    | some stop => .stopped stop
    | none =>
      match memRead p m (a + 1#64) n with
      | .stopped stop => .stopped stop
      | .value w => .value ((m.byteAt a.toNat).setWidth 64 ||| (w <<< 8))

/-- MemWrite(a, n, v) for n ≤ 8: single bytes in ascending address order modulo 2^64, least significant first (R62). It
answers the memory it leaves, and the stop if a byte was not written: the bytes before that one stay written (R255). -/
def memWrite (p : Platform) : Memory → Word → Nat → Word → Memory × Option PortStop
  | m, _, 0, _ => (m, none)
  | m, a, n + 1, v =>
    match p.check .write a with
    | some stop => (m, some stop)
    | none => memWrite p (m.setByte a.toNat (v.setWidth 8)) (a + 1#64) n (v >>> 8)

/-- Storing a list of bytes at consecutive addresses, as the host or another agent does (R91 `host.mem`; assumption 14). -/
def Memory.storeBytes : Memory → Word → List Byte → Memory
  | m, _, [] => m
  | m, a, b :: bs => Memory.storeBytes (m.setByte a.toNat b) (a + 1#64) bs

/-! ### Errors: entry and return -/

/-- `raise E(info)`: the action every error takes (R252). `cmd` is the command value (R34), `info` the refused byte address of
a MEMFAULT (R35). -/
def State.raise (s : State) (e : ECode) (cmd info : Word) : State :=
  { s with
    err := true
    ecode := e
    faultCmd := cmd
    faultAddr := if e = .memfault then info else 0#64
    done := true
    busy := false }

/-- The return from an error: what a host write of 1 to STATUS bit 2 does (R33, R260). -/
def State.clearError (s : State) : State :=
  { s with err := false, ecode := .none, faultCmd := 0#64, faultAddr := 0#64 }

/-- What a host write of 1 to STATUS bit 3 does (R33). -/
def State.clearDone (s : State) : State := { s with done := false }

/-- A command completes without error: DONE is set (R30) and BUSY ends (R27). -/
def State.complete (s : State) : State := { s with done := true, busy := false }

/-- A command ends in an error of its own, recording its word (R252, R34). -/
def State.raiseFor (s : State) (i : Instr) (e : ECode) (info : Word) : State := s.raise e (cmdValue i) info

/-- What a command does when the memory port stopped its access: MEMFAULT for a refused byte (R254), a refusal by name for a
byte of the unit's own window (R70). -/
def State.portStop (s : State) (i : Instr) : PortStop → Result
  | .memFault a => .next (s.raiseFor i .memfault a)
  | .ownWindow a => .refused (.ownWindow a)

/-- The result of a command that writes RD and completes (R22, R30). -/
def State.finish (s : State) (rd : Reg) (v : Word) : State := (s.setReg rd v).complete

/-! ### Reset -/

/-- A hardware or soft reset (R46, R280): every register as after reset, memory and everything outside the unit unchanged. -/
def State.applyReset (s : State) : State :=
  { State.reset with
    mem := s.mem, platform := s.platform, bus := s.bus, replies := s.replies, freeCount := s.freeCount }

end Sys2Proof.Machine
end

