-- ==== Sys2Proof/Machine/Operands.lean ====
section
/-! DEFINITION. The constants of FP61U, the domains its commands check their operands against, and the values the arithmetic
commands compute (spec `00_scope.md` R10, R12; `40_reduction_add.md`; `41_multiply_inverse.md`). -/

namespace Sys2Proof.Machine

/-- The modulus p = 2^61 − 1 (R12). -/
def modulus : Word := 0x1FFFFFFFFFFFFFFF#64

/-- The ambiguity placeholder M60 = 2^60 − 1 (R12, R13). -/
def placeholder : Word := 0x0FFFFFFFFFFFFFFF#64

/-- The largest partially reduced value M62 = 2^62 − 1 (R12). -/
def maxPartial : Word := 0x3FFFFFFFFFFFFFFF#64

/-- The one partially reduced value FIN refuses, FBAD (R12, R105). -/
def finExcluded : Word := 0x3FFFFFFFFFFFFFFE#64

/-- The constant of register ID (R24). -/
def idValue : Word := 0x4650363100000007#64

/-- The number of bits needed to write `x`: 0 for 0, else the least n with x < 2^n (R10). -/
def bitLength (x : Word) : Nat := if x = 0#64 then 0 else x.toNat.log2 + 1

/-! ### Operand domains (R251) -/

/-- A partially reduced value: bits 63 and 62 are zero (R13). -/
def isPartial (x : Word) : Bool := decide (x ≤ maxPartial)

/-- FIN's domain (R105). -/
def finDomain (x : Word) : Bool := isPartial x && x != finExcluded

/-- NEG's domain, canonical or p (R115). -/
def negDomain (x : Word) : Bool := decide (x ≤ modulus)

/-- MUL's domain (R140). -/
def mulDomain (x y : Word) : Bool := decide (bitLength x + bitLength y ≤ 124)

/-- The writers' domain, canonical values (R191, R194, R239, R240). -/
def isCanonical (x : Word) : Bool := decide (x < modulus)

/-- A reader's buffer: base + length ≤ 2^64, exact (R171, R221). -/
def bufferFits (base length : Word) : Bool := decide (base.toNat + length.toNat ≤ 2 ^ 64)

/-! ### The values of the arithmetic commands -/

/-- PartialReduce (R100): bits 63:61 folded back onto the low 61 bits. -/
def foldWord (x : Word) : Word := (x &&& modulus) + (x >>> 61)

/-- Finalize (R105). -/
def finalizeWord (x : Word) : Word := (x + ((x + 1#64) >>> 61)) &&& modulus

/-- Add4 (R110): PartialReduce of the four-operand sum, which does not wrap inside the domain (R111). -/
def sumFold (a b c d : Word) : Word := foldWord (a + b + c + d)

/-- Negate (R115). -/
def negateWord (x : Word) : Word := modulus - x

/-- Multiply (R140): the 128-bit product folded at bit 61, then PartialReduce. -/
def productFold (x y : Word) : Word :=
  let product : BitVec 128 := x.setWidth 128 * y.setWidth 128
  let lo : Word := product.setWidth 64
  let hi : Word := (product >>> 64).setWidth 64
  let f : Word := (hi <<< 3) ||| (lo >>> 61)
  foldWord ((lo &&& modulus) + f)

/-- The extended Euclidean loop of R150 on (r0, r1, s0, s1), at most `fuel` iterations: it stops when the remainder r1 is 1
and answers s1. The coefficients are exact integers; every one the loop meets lies below p in size, so they fit the signed
64 bits of the datapath (R150). -/
def euclidLoop : (fuel : Nat) → (r0 r1 : Nat) → (s0 s1 : Int) → Int
  | 0, _, _, _, s1 => s1
  | fuel + 1, r0, r1, s0, s1 =>
    if r1 = 1 then s1 else euclidLoop fuel r1 (r0 % r1) s1 (s0 - (r0 / r1 : Nat) * s1)

/-- More iterations than the loop of R150 ever makes: its remainders halve every two iterations (assumption 10). -/
def euclidFuel : Nat := 128

/-- Inverse (R148, R150): 0 when x mod p is 0, else the Bézout coefficient, made non-negative by adding p. -/
def inverseWord (x : Word) : Word :=
  let a := x.toNat % modulus.toNat
  if a = 0 then 0#64
  else
    let s1 := euclidLoop euclidFuel modulus.toNat a 0 1
    BitVec.ofInt 64 (if s1 < 0 then s1 + modulus.toNat else s1)

/-! ### The size bounds -/

/-- BRMAXW (R181): ceil((b + floor(b / 60)) / 61) for b = 8N, exact. -/
def maxWords (n : Word) : Word :=
  let b := 8 * n.toNat
  BitVec.ofNat 64 ((b + b / 60 + 60) / 61)

/-- The exact count of BWMAXB: ceil(61w / 8) (R199). -/
def maxBytesExact (w : Word) : Nat := (61 * w.toNat + 7) / 8

/-- WCOUNT (R230): floor(8B / 61), exact. -/
def wordCount (b : Word) : Word := BitVec.ofNat 64 (8 * b.toNat / 61)

end Sys2Proof.Machine
end

