-- ==== Sys2Proof/Machine/Cursor.lean ====
section
/-! DEFINITION. What the four cursors share: binding, taking one 61-bit candidate from a reader, putting one element into a
writer, flushing a writer (spec `42_byte_codec.md` R171, R172, R190, R191, R195; `43_word_codec.md` R221, R222, R238, R239,
R242). The word codec is the byte codec without the ambiguity step. -/

namespace Sys2Proof.Machine

/-- The cursor a reader's BEGIN leaves (R171, R221). -/
def Reader.bind (base length : Word) : Reader :=
  { bound := true, addr := base, rem := length, ws := 0#64, avail := 0#8 }

/-- The cursor a writer's BEGIN leaves (R190, R238). -/
def Writer.bind (base : Word) : Writer :=
  { bound := true, addr := base, start := base, ws := 0#64, avail := 0#6 }

/-- A candidate element with the cursor fields it would leave (the locals c, ws, nav, addr, rem of R172 and R222; `nav` is an
exact signed integer). -/
structure Element where
  c : Word
  ws : Word
  nav : Int
  addr : Word
  rem : Word
  deriving DecidableEq, Repr

/-- What a reader gives when it is asked for an element. -/
inductive Pull where
  /-- REM = 0 and AVAIL ≤ 0 (R175, R225). -/
  | exhausted
  /-- The memory port stopped the refill. -/
  | stopped (p : PortStop)
  /-- A candidate of 61 bits. -/
  | element (e : Element)
  deriving DecidableEq, Repr

/-- How many bytes a refill reads: a full chunk of 8, or the remaining tail (R172, R173). -/
def Reader.chunk (r : Reader) : Nat := if 8 ≤ r.rem.toNat then 8 else r.rem.toNat

/-- Steps 1 to 3 and 5 of a read (R172, R222): the candidate from the held bits, or after one refill. Inside the invariant of
R43 the shift amounts lie in the ranges of R176 (assumption 9). -/
def Reader.pull (p : Platform) (m : Memory) (r : Reader) : Pull :=
  let av := r.avail.toInt
  if 61 ≤ av then
    .element { c := r.ws &&& modulus, ws := r.ws >>> 61, nav := av - 61, addr := r.addr, rem := r.rem }
  else if r.rem = 0#64 ∧ av ≤ 0 then .exhausted
  else
    match memRead p m r.addr r.chunk with
    | .stopped stop => .stopped stop
    | .value w =>
      .element
        { c := (r.ws ||| (w <<< av.toNat)) &&& modulus
          ws := w >>> (61 - av.toNat)
          nav := av + 8 * (r.chunk : Int) - 61
          addr := r.addr + BitVec.ofNat 64 r.chunk
          rem := r.rem - BitVec.ofNat 64 r.chunk }

/-- Step 4 of a byte read, the ambiguity (R172, R174): a candidate whose low 60 bits are all ones is emitted as the
placeholder and its bit 60 is carried into the next element. -/
def Element.resolve (e : Element) : Element :=
  if e.c &&& placeholder = placeholder then
    { e with c := placeholder, ws := (e.ws <<< 1) ||| (e.c >>> 60), nav := e.nav + 1 }
  else e

/-- The cursor after an element is taken (the commit of R172 and R222). -/
def Reader.after (r : Reader) (e : Element) : Reader :=
  { r with addr := e.addr, rem := e.rem, ws := e.ws, avail := BitVec.ofInt 8 e.nav }

/-- What a writer does with an element or a flush. -/
inductive Put where
  /-- The memory port stopped the write; `m` holds the bytes stored before. -/
  | stopped (m : Memory) (p : PortStop)
  /-- The element is taken: the memory and the cursor after. -/
  | stored (m : Memory) (w : Writer)
  deriving DecidableEq, Repr

/-- Putting `wid` bits of `v` into a writer, storing one full word when 64 bits are pending (R191, R239). -/
def Writer.put (p : Platform) (m : Memory) (w : Writer) (v : Word) (wid : Nat) : Put :=
  let old := w.avail.toNat
  let ws := w.ws ||| (v <<< old)
  let nav := old + wid
  if 64 ≤ nav then
    match memWrite p m w.addr 8 ws with
    | (m', some stop) => .stopped m' stop
    | (m', none) =>
      .stored m' { w with addr := w.addr + 8#64, ws := v >>> (64 - old), avail := BitVec.ofNat 6 (nav - 64) }
  else .stored m { w with ws := ws, avail := BitVec.ofNat 6 nav }

/-- The stream bits a byte-codec element takes: 60 for the placeholder, else 61 (R191). -/
def elementWidth (v : Word) : Nat := if v &&& placeholder = placeholder then 60 else 61

/-- How many bytes a flush stores (R195, R242). -/
def Writer.pendingBytes (w : Writer) : Nat := (w.avail.toNat + 7) / 8

/-- Storing the pending bits as whole bytes and unbinding the writer; START is kept (R195, R242). -/
def Writer.flush (p : Platform) (m : Memory) (w : Writer) : Put :=
  match memWrite p m w.addr w.pendingBytes w.ws with
  | (m', some stop) => .stopped m' stop
  | (m', none) =>
    .stored m'
      { w with bound := false, addr := w.addr + BitVec.ofNat 64 w.pendingBytes, ws := 0#64, avail := 0#6 }

/-- The bytes a writer has stored since its BEGIN, modulo 2^64: what a flush returns (R195, R242, D28). -/
def Writer.total (w : Writer) : Word := w.addr - w.start

end Sys2Proof.Machine
end

