-- ==== Sys2Proof/Machine/ByteCodec.lean ====
section
/-! DEFINITION. The byte codec commands (spec `42_byte_codec.md`): BRBEGIN, BRREAD, BRMAXW, BWBEGIN, BWWRITE, BWFLUSH,
BWMAXB. Checks run in the order of R257: the cursor, then the operand, then the memory access. -/

namespace Sys2Proof.Machine

/-- BRBEGIN rs1, rs2 (R171): DOMAIN when the buffer would run past address 2^64 − 1. It reads no memory. -/
def execBrbegin (rs1 rs2 : Reg) (s : State) : Result :=
  let base := s.getReg rs1
  let length := s.getReg rs2
  if bufferFits base length then .next ({ s with br := Reader.bind base length }).complete
  else .next (s.raiseFor (.brbegin rs1 rs2) .domain 0#64)

/-- BRREAD rd (R172): NOTBOUND, then Empty when exhausted, MEMFAULT, or Success with the next element in rd. -/
def execBrread (rd : Reg) (s : State) : Result :=
  if s.br.bound then
    match s.br.pull s.platform s.mem with
    | .exhausted => .next ({ s with empty := true }).complete
    | .stopped stop => s.portStop (.brread rd) stop
    | .element e => .next (({ s with br := s.br.after e.resolve, empty := false }).finish rd e.resolve.c)
  else .next (s.raiseFor (.brread rd) .notbound 0#64)

/-- BRMAXW rd, rs1 (R181): never an error. -/
def execBrmaxw (rd rs1 : Reg) (s : State) : Result :=
  .next (s.finish rd (maxWords (s.getReg rs1)))

/-- BWBEGIN rs1 (R190): never an error; the unflushed bits of a bound writer are discarded. -/
def execBwbegin (rs1 : Reg) (s : State) : Result :=
  .next ({ s with bw := Writer.bind (s.getReg rs1) }).complete

/-- BWWRITE rs1 (R191): NOTBOUND, DOMAIN for a value that is not canonical, MEMFAULT, or the element taken. -/
def execBwwrite (rs1 : Reg) (s : State) : Result :=
  let v := s.getReg rs1
  if s.bw.bound then
    if isCanonical v then
      match s.bw.put s.platform s.mem v (elementWidth v) with
      | .stopped m stop => ({ s with mem := m }).portStop (.bwwrite rs1) stop
      | .stored m w => .next ({ s with mem := m, bw := w }).complete
    else .next (s.raiseFor (.bwwrite rs1) .domain 0#64)
  else .next (s.raiseFor (.bwwrite rs1) .notbound 0#64)

/-- BWFLUSH rd (R195): NOTBOUND, MEMFAULT, or the pending bytes stored, the total in rd and the writer unbound. -/
def execBwflush (rd : Reg) (s : State) : Result :=
  if s.bw.bound then
    match s.bw.flush s.platform s.mem with
    | .stopped m stop => ({ s with mem := m }).portStop (.bwflush rd) stop
    | .stored m w => .next (({ s with mem := m, bw := w }).finish rd w.total)
  else .next (s.raiseFor (.bwflush rd) .notbound 0#64)

/-- BWMAXB rd, rs1 (R199): DOMAIN when the count does not fit in 64 bits. -/
def execBwmaxb (rd rs1 : Reg) (s : State) : Result :=
  let r := maxBytesExact (s.getReg rs1)
  if r < 2 ^ 64 then .next (s.finish rd (BitVec.ofNat 64 r))
  else .next (s.raiseFor (.bwmaxb rd rs1) .domain 0#64)

end Sys2Proof.Machine
end

