-- ==== Sys2Proof/Machine/MulInv.lean ====
section
/-! DEFINITION. The multiply and inverse commands (spec `41_multiply_inverse.md`): MUL, INV. -/

namespace Sys2Proof.Machine

/-- MUL rd, rs1, rs2 (R140): DOMAIN when the operands' bit lengths sum to more than 124. -/
def execMul (rd rs1 rs2 : Reg) (s : State) : Result :=
  let x := s.getReg rs1
  let y := s.getReg rs2
  if mulDomain x y then .next (s.finish rd (productFold x y))
  else .next (s.raiseFor (.mul rd rs1 rs2) .domain 0#64)

/-- INV rd, rs1 (R148): never an error; 0 when there is no inverse (R267). -/
def execInv (rd rs1 : Reg) (s : State) : Result :=
  .next (s.finish rd (inverseWord (s.getReg rs1)))

end Sys2Proof.Machine
end

