-- ==== Sys2Proof/Machine/Reduction.lean ====
section
/-! DEFINITION. The reduction and addition commands (spec `40_reduction_add.md`): PRED, FIN, ADD4, NEG. -/

namespace Sys2Proof.Machine

/-- PRED rd, rs1 (R100): never an error. -/
def execPred (rd rs1 : Reg) (s : State) : Result :=
  .next (s.finish rd (foldWord (s.getReg rs1)))

/-- FIN rd, rs1 (R105): DOMAIN unless the operand is partially reduced and not FBAD. -/
def execFin (rd rs1 : Reg) (s : State) : Result :=
  let x := s.getReg rs1
  if finDomain x then .next (s.finish rd (finalizeWord x))
  else .next (s.raiseFor (.fin rd rs1) .domain 0#64)

/-- ADD4 rd, rs1, rs2, rs3, rs4 (R110): DOMAIN unless all four operands are partially reduced. -/
def execAdd4 (rd rs1 rs2 rs3 rs4 : Reg) (s : State) : Result :=
  let a := s.getReg rs1
  let b := s.getReg rs2
  let c := s.getReg rs3
  let d := s.getReg rs4
  if isPartial a && isPartial b && isPartial c && isPartial d then .next (s.finish rd (sumFold a b c d))
  else .next (s.raiseFor (.add4 rd rs1 rs2 rs3 rs4) .domain 0#64)

/-- NEG rd, rs1 (R115): DOMAIN unless the operand is at most p. -/
def execNeg (rd rs1 : Reg) (s : State) : Result :=
  let x := s.getReg rs1
  if negDomain x then .next (s.finish rd (negateWord x))
  else .next (s.raiseFor (.neg rd rs1) .domain 0#64)

end Sys2Proof.Machine
end

