-- ==== Sys2Proof/Machine/WordCodec.lean ====
section
/-! DEFINITION. The word codec commands (spec `43_word_codec.md`): WRBEGIN, WRREAD, WCOUNT, WWBEGIN, WWWRITE, WWFLUSH. -/

namespace Sys2Proof.Machine

/-- WRBEGIN rs1, rs2 (R221): DOMAIN when the buffer would run past address 2^64 − 1. It reads no memory. -/
def execWrbegin (rs1 rs2 : Reg) (s : State) : Result :=
  let base := s.getReg rs1
  let length := s.getReg rs2
  if bufferFits base length then .next ({ s with wr := Reader.bind base length }).complete
  else .next (s.raiseFor (.wrbegin rs1 rs2) .domain 0#64)

/-- WRREAD rd (R222): NOTBOUND, then 0 with no cursor change when exhausted (R225), MEMFAULT, or the next 61 bits. No
ambiguity step, and STATUS.EMPTY is not written (R224). -/
def execWrread (rd : Reg) (s : State) : Result :=
  if s.wr.bound then
    match s.wr.pull s.platform s.mem with
    | .exhausted => .next (s.finish rd 0#64)
    | .stopped stop => s.portStop (.wrread rd) stop
    | .element e => .next (({ s with wr := s.wr.after e }).finish rd e.c)
  else .next (s.raiseFor (.wrread rd) .notbound 0#64)

/-- WCOUNT rd, rs1 (R230): never an error. -/
def execWcount (rd rs1 : Reg) (s : State) : Result :=
  .next (s.finish rd (wordCount (s.getReg rs1)))

/-- WWBEGIN rs1 (R238): never an error. -/
def execWwbegin (rs1 : Reg) (s : State) : Result :=
  .next ({ s with ww := Writer.bind (s.getReg rs1) }).complete

/-- WWWRITE rs1 (R239): NOTBOUND, DOMAIN for a value that is not canonical, MEMFAULT, or 61 bits taken. -/
def execWwwrite (rs1 : Reg) (s : State) : Result :=
  let v := s.getReg rs1
  if s.ww.bound then
    if isCanonical v then
      match s.ww.put s.platform s.mem v 61 with
      | .stopped m stop => ({ s with mem := m }).portStop (.wwwrite rs1) stop
      | .stored m w => .next ({ s with mem := m, ww := w }).complete
    else .next (s.raiseFor (.wwwrite rs1) .domain 0#64)
  else .next (s.raiseFor (.wwwrite rs1) .notbound 0#64)

/-- WWFLUSH rd (R242): NOTBOUND, MEMFAULT, or the pending bytes stored, the total in rd and the writer unbound. -/
def execWwflush (rd : Reg) (s : State) : Result :=
  if s.ww.bound then
    match s.ww.flush s.platform s.mem with
    | .stopped m stop => ({ s with mem := m }).portStop (.wwflush rd) stop
    | .stored m w => .next (({ s with mem := m, ww := w }).finish rd w.total)
  else .next (s.raiseFor (.wwflush rd) .notbound 0#64)

end Sys2Proof.Machine
end

