-- ==== Sys2Proof/Machine/Dispatch.lean ====
section
/-! DEFINITION. The one dispatch of commands to their meanings, one arm per constructor (spec `30_encoding.md` R83). -/

namespace Sys2Proof.Machine

def exec (i : Instr) (s : State) : Host.Outcome State Fault Refusal :=
  match i with
  -- `40_reduction_add.md`
  | .pred rd rs1 => Sys2Proof.Machine.execPred rd rs1 s
  | .fin rd rs1 => Sys2Proof.Machine.execFin rd rs1 s
  | .add4 rd rs1 rs2 rs3 rs4 => Sys2Proof.Machine.execAdd4 rd rs1 rs2 rs3 rs4 s
  | .neg rd rs1 => Sys2Proof.Machine.execNeg rd rs1 s
  -- `41_multiply_inverse.md`
  | .mul rd rs1 rs2 => Sys2Proof.Machine.execMul rd rs1 rs2 s
  | .inv rd rs1 => Sys2Proof.Machine.execInv rd rs1 s
  -- `42_byte_codec.md`
  | .brbegin rs1 rs2 => Sys2Proof.Machine.execBrbegin rs1 rs2 s
  | .brread rd => Sys2Proof.Machine.execBrread rd s
  | .brmaxw rd rs1 => Sys2Proof.Machine.execBrmaxw rd rs1 s
  | .bwbegin rs1 => Sys2Proof.Machine.execBwbegin rs1 s
  | .bwwrite rs1 => Sys2Proof.Machine.execBwwrite rs1 s
  | .bwflush rd => Sys2Proof.Machine.execBwflush rd s
  | .bwmaxb rd rs1 => Sys2Proof.Machine.execBwmaxb rd rs1 s
  -- `43_word_codec.md`
  | .wrbegin rs1 rs2 => Sys2Proof.Machine.execWrbegin rs1 rs2 s
  | .wrread rd => Sys2Proof.Machine.execWrread rd s
  | .wcount rd rs1 => Sys2Proof.Machine.execWcount rd rs1 s
  | .wwbegin rs1 => Sys2Proof.Machine.execWwbegin rs1 s
  | .wwwrite rs1 => Sys2Proof.Machine.execWwwrite rs1 s
  | .wwflush rd => Sys2Proof.Machine.execWwflush rd s

end Sys2Proof.Machine
end

