-- ==== Sys2Proof/Machine/Flags.lean ====
section
/-! DEFINITION. STATUS, CTRL and the interrupt line as the host sees them (spec `10_state.md` R25–R37). -/

namespace Sys2Proof.Machine

/-- The numeric value of an error code (R31). -/
def ECode.code : ECode → BitVec 4
  | .none => 0#4
  | .illegal => 1#4
  | .domain => 2#4
  | .notbound => 3#4
  | .memfault => 4#4

/-- One bit of a 64-bit register. -/
def bitAt (b : Bool) (pos : Nat) : Word := (BitVec.ofBool b).setWidth 64 <<< pos

/-- STATUS as a 64-bit register (R26). -/
def State.statusWord (s : State) : Word :=
  bitAt s.busy 0 ||| bitAt s.empty 1 ||| bitAt s.err 2 ||| bitAt s.done 3 ||| (s.ecode.code.setWidth 64 <<< 4)
    ||| bitAt s.br.bound 8 ||| bitAt s.bw.bound 9 ||| bitAt s.wr.bound 10 ||| bitAt s.ww.bound 11

/-- CTRL as a 64-bit register: SRST and the reserved bits read 0 (R25). -/
def State.ctrlWord (s : State) : Word := bitAt s.eie 0 ||| bitAt s.die 1

/-- The interrupt line (R37, R262). -/
def State.irq (s : State) : Bool := (s.err && s.eie) || (s.done && s.die)

/-- A host write of `v` to CTRL: with SRST set it is the soft reset, which keeps neither EIE nor DIE (R25, R281). -/
def State.writeCtrl (s : State) (v : Word) : State :=
  if v.getLsbD 2 then s.applyReset else { s with eie := v.getLsbD 0, die := v.getLsbD 1 }

/-- A host write of `v` to STATUS: write-1-to-clear of ERR (with its record) and of DONE (R33). -/
def State.writeStatus (s : State) (v : Word) : State :=
  let s := if v.getLsbD 2 then s.clearError else s
  if v.getLsbD 3 then s.clearDone else s

end Sys2Proof.Machine
end

