-- ==== Sys2Proof/Machine/Window.lean ====
section
/-! DEFINITION. The host's register window and the events of the outside world (spec `10_state.md` R23–R45,
`30_encoding.md` R81, R91, `60_exceptions.md` R269, R270, `70_reset_and_hazards.md` R280–R286, `20_memory.md` R73). -/

namespace Sys2Proof.Machine

/-- The window admits only naturally aligned 64-bit accesses (R23, R270). -/
def windowAdmits (off : BitVec 12) (nbytes : Nat) : Bool :=
  decide (nbytes = 8) && decide (off.toNat % 8 = 0)

/-- The data register at a window offset: 0x100 + 8i is fi (R22, R23). -/
def dataRegAt (off : BitVec 12) : Option Reg :=
  if off.extractLsb' 7 5 = 2#5 then some (off.extractLsb' 3 4) else none

/-- What a host read of a window offset returns (R23): write-only and reserved offsets read 0 (R36, R45). -/
def State.windowRead (s : State) (off : BitVec 12) : Word :=
  match dataRegAt off with
  | some r => s.getReg r
  | none =>
    match off.toNat with
    | 0x000 => idValue
    | 0x008 => s.ctrlWord
    | 0x010 => s.statusWord
    | 0x018 => 0#64
    | 0x020 => s.faultCmd
    | 0x028 => s.faultAddr
    | 0x200 => s.br.addr
    | 0x208 => s.br.rem
    | 0x210 => s.br.ws
    | 0x218 => s.br.avail.signExtend 64
    | 0x220 => s.bw.addr
    | 0x228 => s.bw.start
    | 0x230 => s.bw.ws
    | 0x238 => s.bw.avail.setWidth 64
    | 0x240 => s.wr.addr
    | 0x248 => s.wr.rem
    | 0x250 => s.wr.ws
    | 0x258 => s.wr.avail.signExtend 64
    | 0x260 => s.ww.addr
    | 0x268 => s.ww.start
    | 0x270 => s.ww.ws
    | 0x278 => s.ww.avail.setWidth 64
    | _ => 0#64

/-- A command the unit has accepted is executing: BUSY is 1 until it completes (R27). -/
def State.accept (s : State) : State := { s with busy := true }

/-- A host write of `v` to CMD (R36): discarded while ERR = 1 (R29); else decoded (R81) and executed, or ILLEGAL with the full
64-bit value in FAULT_CMD (R34, R250). -/
def State.writeCmd (s : State) (v : Word) : Result :=
  if s.err then .next s
  else
    match decode v with
    | .instr i => exec i s.accept
    | .illegal _ => .next (s.accept.raise .illegal v 0#64)

/-- A host write of `v` to a window offset (R23): read-only and reserved offsets ignore it (R45, R269). -/
def State.windowWrite (s : State) (off : BitVec 12) (v : Word) : Result :=
  match dataRegAt off with
  | some r => .next (s.setReg r v)
  | none =>
    match off.toNat with
    | 0x008 => .next (s.writeCtrl v)
    | 0x010 => .next (s.writeStatus v)
    | 0x018 => s.writeCmd v
    | _ => .next s

/-- The value of a host read reaches the host (R91). -/
def State.reply (s : State) (v : Word) : State := { s with replies := s.replies ++ [v] }

/-- Whether a host read of this offset is held while BUSY = 1: the data registers and the cursor registers (R286). -/
def readIsHeld (off : BitVec 12) : Bool :=
  (dataRegAt off).isSome || (decide (0x200 ≤ off.toNat) && decide (off.toNat ≤ 0x278))

/-- The host writes `v` to CMD and reads `off` while the command executes (R286): a held read returns the value after the
command, any other the value before it, with BUSY = 1 in STATUS (R27). A discarded command does not set BUSY (R29). -/
def State.polled (s : State) (v : Word) (off : BitVec 12) : Result :=
  match s.writeCmd v with
  | .next t =>
    if readIsHeld off then .next (t.reply (t.windowRead off))
    else .next (t.reply ((if s.err then s else s.accept).windowRead off))
  | .fault r => .fault r
  | .refused r => .refused r

/-- Each byte listed takes a fresh free value (R73(c): "any byte value"; assumption 7). -/
def State.havoc (s : State) : List Word → State
  | [] => s
  | a :: rest =>
    State.havoc
      { s with mem := s.mem.setByte a.toNat (Config.freeByte s.freeCount), freeCount := s.freeCount + 1 } rest

/-- The host writes `v` to CMD while other agents write the bytes at `racing` (R73(c), I6): what the command reads there, and
what memory holds there afterwards, are each any byte value. -/
def State.raced (s : State) (v : Word) (racing : List Word) : Result :=
  match (s.havoc racing).writeCmd v with
  | .next t => .next (t.havoc racing)
  | .fault r => .fault r
  | .refused r => .refused r

/-- Where a command's MemWrite starts: its writer's ADDR (R191, R195, R239, R242). Every other command writes no memory. -/
def writeBase (i : Instr) (s : State) : Word :=
  match i with
  | .wwwrite _ | .wwflush _ => s.ww.addr
  | .pred _ _ | .fin _ _ | .add4 _ _ _ _ _ | .neg _ _ | .mul _ _ _ | .inv _ _ | .brbegin _ _ | .brread _ | .brmaxw _ _
  | .bwbegin _ | .bwwrite _ | .bwflush _ | .bwmaxb _ _ | .wrbegin _ _ | .wrread _ | .wcount _ _ | .wwbegin _ => s.bw.addr

/-- `old` with its `k` bytes from address `a` on as they are in `new`. -/
def Memory.prefixOf (old new : Memory) (a : Word) : (k : Nat) → Memory
  | 0 => old
  | k + 1 => Memory.prefixOf (old.setByte a.toNat (new.byteAt a.toNat)) new (a + 1#64) k

/-- The host writes `v` to CMD and the reset input is asserted while the command executes (R280, I16): the command's register
effects are lost, and of the bytes it would have stored a prefix of free length stays written. -/
def State.abandoned (s : State) (v : Word) : Result :=
  match s.writeCmd v with
  | .next t =>
    let mem :=
      match decode v with
      | .instr i => Memory.prefixOf s.mem t.mem (writeBase i s) (Config.freePrefix s.freeCount % 9)
      | .illegal _ => s.mem
    .next { s.applyReset with mem := mem, freeCount := s.freeCount + 1 }
  | .fault r => .fault r
  | .refused r => .refused r

/-- One event of the outside world. -/
def State.perform (s : State) : HostEvent → Result
  | .write off nbytes v =>
    if windowAdmits off nbytes then s.windowWrite off v else .refused (.hostNarrowAccess off nbytes)
  | .read off nbytes =>
    if windowAdmits off nbytes then .next (s.reply (s.windowRead off)) else .refused (.hostNarrowAccess off nbytes)
  | .store a bytes => .next { s with mem := s.mem.storeBytes a bytes }
  | .hwReset => .next s.applyReset
  | .polledCmd v off => if windowAdmits off 8 then s.polled v off else .refused (.hostNarrowAccess off 8)
  | .racedCmd v racing => s.raced v racing
  | .abandonedCmd v => s.abandoned v

/-- The event that writes `v` to CMD (R36, R91). -/
def cmdWrite (v : Word) : HostEvent := .write 0x018#12 8 v

/-- The 64-bit CMD value of a table row's low `nbits` bits. -/
def tableCmdValue (nbits w : Nat) : Word := BitVec.ofNat 64 (w % 2 ^ nbits)

/-- What makes the unit accept the next CMD write: while ERR = 1 it would discard it (R29, R260). -/
def State.inService (s : State) : State := if s.err then s.clearError else s

end Sys2Proof.Machine
end

