-- ==== Sys2Proof/Machine/Step.lean ====
section
/-! DEFINITION. One step of the machine: the next event of the outside world, performed to its end (spec
`70_reset_and_hazards.md` R284, R285, R291; assumption 1). -/

namespace Sys2Proof.Machine

/-- One step. With no event the unit is idle with all state held (`60_exceptions.md` R275). -/
def step (s : State) : Host.Outcome State Fault Refusal :=
  match s.bus with
  | [] => .next s
  | e :: rest => ({ s with bus := rest }).perform e

/-- `s` with a host write of the command to CMD as its next event, and the unit in service so that the write executes. -/
def State.withFetchWord (s : State) (nbits w : Nat) : State :=
  { s.inService with bus := cmdWrite (tableCmdValue nbits w) :: s.bus }

end Sys2Proof.Machine
end

