-- ==== Sys2Proof/Safety.lean ====
section
/-! DEFINITION. The terms claims about FP61U are made in: what a command leaves unchanged, what an error leaves behind, the
invariants of the cursors, of memory and of the error record, and the reference views of the two codecs (spec `10_state.md`
R43, `20_memory.md` R65, `42_byte_codec.md` R170, `43_word_codec.md` R220). -/

namespace Sys2Proof.Safety

open Sys2Proof.Machine

/-! ### What stays, part by part -/

/-- Register `rd` holds `n` afterwards, unless it is f0 (whose writes are discarded, R21); every other register is kept. -/
def WritesReg (rd : Reg) (n : Nat) (s t : State) : Prop :=
  ∀ r : Reg, (t.getReg r).toNat = if r = rd ∧ r ≠ 0#4 then n else (s.getReg r).toNat

/-- Every data register is kept. -/
def SameRegs (s t : State) : Prop := ∀ r : Reg, t.getReg r = s.getReg r

/-- Every byte of the data address space reads as before. -/
def SameMemory (s t : State) : Prop := ∀ a : Word, t.mem.byteAt a.toNat = s.mem.byteAt a.toNat

/-- CTRL is kept. -/
def SameControl (s t : State) : Prop := t.eie = s.eie ∧ t.die = s.die

/-- ERR, ECODE, FAULT_CMD and FAULT_ADDR are kept. -/
def SameErrorRecord (s t : State) : Prop :=
  t.err = s.err ∧ t.ecode = s.ecode ∧ t.faultCmd = s.faultCmd ∧ t.faultAddr = s.faultAddr

/-- All four cursors are kept. -/
def SameCursors (s t : State) : Prop := t.br = s.br ∧ t.bw = s.bw ∧ t.wr = s.wr ∧ t.ww = s.ww

/-- What lies outside the unit is kept: the platform, the waiting events, the replies and the free values used. -/
def SameWorld (s t : State) : Prop :=
  t.platform = s.platform ∧ t.bus = s.bus ∧ t.replies = s.replies ∧ t.freeCount = s.freeCount

/-- A command has completed without error: DONE is set, BUSY is over, and the error record, CTRL and the world are kept. -/
def Completed (s t : State) : Prop :=
  t.done = true ∧ t.busy = false ∧ SameErrorRecord s t ∧ SameControl s t ∧ SameWorld s t

/-- A command that only computes: `n` into `rd`, DONE, and nothing else (`40_reduction_add.md`: "On success a command changes
only x[RD] and STATUS.DONE"). -/
def OnlyWritesReg (rd : Reg) (n : Nat) (s t : State) : Prop :=
  WritesReg rd n s t ∧ Completed s t ∧ t.empty = s.empty ∧ SameCursors s t ∧ SameMemory s t

/-- The registers, flags and world after an error (R252, R259): the record is written, DONE is set, BUSY is over, and nothing
else but memory may have changed. -/
def Raised (e : ECode) (cmd info : Word) (s t : State) : Prop :=
  t.err = true ∧ t.ecode = e ∧ t.faultCmd = cmd ∧ t.faultAddr = info ∧ t.done = true ∧ t.busy = false ∧
    SameRegs s t ∧ SameCursors s t ∧ t.empty = s.empty ∧ SameControl s t ∧ SameWorld s t

/-- An error that leaves memory alone. -/
def RaisedCleanly (e : ECode) (cmd info : Word) (s t : State) : Prop :=
  Raised e cmd info s t ∧ SameMemory s t

/-! ### The memory port -/

/-- The port performs all `n` single-byte accesses of this kind from `a` on, modulo 2^64. -/
abbrev PortAllows (k : AccessKind) (s : State) (a : Word) (n : Nat) : Prop :=
  ∀ j < n, s.platform.check k (a + BitVec.ofNat 64 j) = none

/-- Byte `j` of an access of `n` bytes from `a` on is the first one the port does not perform, and it is refused: `mem_fault`
holds there. -/
abbrev FirstRefused (k : AccessKind) (s : State) (a : Word) (n j : Nat) : Prop :=
  j < n ∧ PortAllows k s a j ∧ s.platform.memFault (a + BitVec.ofNat 64 j) k = true

/-- Byte `j` of an access of `n` bytes from `a` on is the first one the port does not perform, and the port sees the unit's
own window there (R70). -/
abbrev FirstInWindow (k : AccessKind) (s : State) (a : Word) (n j : Nat) : Prop :=
  j < n ∧ PortAllows k s a j ∧ s.platform.memFault (a + BitVec.ofNat 64 j) k = false ∧
    s.platform.inWindow (a + BitVec.ofNat 64 j) = true

/-- The `n` low bytes of `v`, least significant first, now stand at `a`, `a + 1`, … modulo 2^64, and every other byte reads as
before (R62, R64). -/
def StoredAt (a : Word) (n v : Nat) (s t : State) : Prop :=
  ∀ b : Word, t.mem.byteAt b.toNat =
    if (b - a).toNat < n then BitVec.ofNat 8 (v / 256 ^ (b - a).toNat) else s.mem.byteAt b.toNat

/-- The bit stream of the `n` bytes from `a` on as one number: stream bit k is bit k of the number, and the bits at and past
8n are the zero padding (R65). -/
def streamNat (m : Memory) : (a : Word) → (n : Nat) → Nat
  | _, 0 => 0
  | a, n + 1 => (m.byteAt a.toNat).toNat + 256 * streamNat m (a + 1#64) n

/-! ### The invariants -/

/-- The invariant of a reader whose AVAIL is at most `hi` (R43): no workspace bit at or above the valid count, AVAIL negative
only when nothing is left to read, and AVAIL in its range. -/
abbrev ReaderOk (hi : Int) (r : Reader) : Prop :=
  r.ws.toNat < 2 ^ r.avail.toInt.toNat ∧ (r.avail.toInt < 0 → r.rem = 0#64) ∧ -60 ≤ r.avail.toInt ∧ r.avail.toInt ≤ hi

/-- The invariant of a writer (R43): no workspace bit at or above the pending count. -/
abbrev WriterOk (w : Writer) : Prop := w.ws.toNat < 2 ^ w.avail.toNat

/-- The cursor invariant of R43 in a state. -/
abbrev CursorsOk (s : State) : Prop := ReaderOk 64 s.br ∧ WriterOk s.bw ∧ ReaderOk 63 s.wr ∧ WriterOk s.ww

/-- A reader's unread bytes lie below 2^64: the buffer its BEGIN accepted never wraps (R171, R221, D15). -/
abbrev BuffersOk (s : State) : Prop :=
  s.br.addr.toNat + s.br.rem.toNat ≤ 2 ^ 64 ∧ s.wr.addr.toNat + s.wr.rem.toNat ≤ 2 ^ 64

/-- The error record says what ERR says (R31, R34, R35): a code exactly when ERR is 1, nothing recorded when it is 0, and an
address only for MEMFAULT. -/
abbrev ErrorRecordOk (s : State) : Prop :=
  (s.err = true ↔ s.ecode ≠ .none) ∧ (s.err = false → s.faultCmd = 0#64) ∧ (s.ecode ≠ .memfault → s.faultAddr = 0#64)

/-! ### Reading and writing streams of elements -/

/-- How many bytes a read of this cursor takes from memory (R173, R223): none while 61 bits are held, else at most 8. -/
def bytesToRead (r : Reader) : Nat := if 61 ≤ r.avail.toInt then 0 else min 8 r.rem.toNat

/-- A reader with no stream bit left (R175, R225). -/
abbrev Exhausted (r : Reader) : Prop := r.rem = 0#64 ∧ r.avail.toInt ≤ 0

/-- The bits a read has in hand, as one number: the workspace and above it the bytes it takes from memory (R172, R222). -/
def bitsInHand (m : Memory) (r : Reader) : Nat :=
  r.ws.toNat + 2 ^ r.avail.toInt.toNat * streamNat m r.addr (bytesToRead r)

/-- The 61-bit candidate of a read (step 3 of R172). -/
def candidate (m : Memory) (r : Reader) : Nat := bitsInHand m r % 2 ^ 61

/-- A candidate whose low 60 bits are all ones (R13, R174). -/
abbrev Ambiguous (c : Nat) : Prop := c % 2 ^ 60 = 2 ^ 60 - 1

/-- The cursor after a read took its candidate and gave `back` of its 61 bits back (0 for an ordinary element, 1 for an
ambiguous one): `ws`, `avail`, `addr` and `rem` as R172 and R222 commit them. -/
def TakesBits (m : Memory) (back : Nat) (r r' : Reader) : Prop :=
  r'.bound = r.bound ∧ r'.ws.toNat = bitsInHand m r / 2 ^ (61 - back) ∧
    r'.avail.toInt = r.avail.toInt + 8 * (bytesToRead r : Int) - 61 + back ∧
    r'.addr = r.addr + BitVec.ofNat 64 (bytesToRead r) ∧ r'.rem.toNat = r.rem.toNat - bytesToRead r

/-- The elements of a byte stream `x` of `len` bits from position `pos` on, at most `fuel` of them (R170): 61 bits each, but
an ambiguous candidate is emitted as the placeholder and takes 60. -/
def byteElements (x len : Nat) : (fuel pos : Nat) → List Nat
  | 0, _ => []
  | fuel + 1, pos =>
    if len ≤ pos then []
    else
      let c := x / 2 ^ pos % 2 ^ 61
      if c % 2 ^ 60 = 2 ^ 60 - 1 then (2 ^ 60 - 1) :: byteElements x len fuel (pos + 60)
      else c :: byteElements x len fuel (pos + 61)

/-- ByteElements(A, N) of the buffer of `n` bytes at `a` (R170). A stream of 8n bits has fewer than 8n + 1 elements. -/
def bufferElements (m : Memory) (a : Word) (n : Nat) : List Nat :=
  byteElements (streamNat m a n) (8 * n) (8 * n + 1) 0

/-- WordElements(A, N)[k] (R220): the 61 stream bits from position 61k on. -/
def wordElement (m : Memory) (a : Word) (n k : Nat) : Nat := streamNat m a n / 2 ^ (61 * k) % 2 ^ 61

/-- The results of `k` successive BRREADs into `rd`: the element, or `none` for Empty. An error or a refusal ends the list. -/
def byteReads (rd : Reg) : (k : Nat) → State → List (Option Nat)
  | 0, _ => []
  | k + 1, s =>
    match exec (.brread rd) s with
    | .next t =>
      if t.err then []
      else (if t.empty then none else some (t.getReg rd).toNat) :: byteReads rd k t
    | .fault _ => []
    | .refused _ => []

/-- The results of `k` successive WRREADs into `rd`. An error or a refusal ends the list. -/
def wordReads (rd : Reg) : (k : Nat) → State → List Nat
  | 0, _ => []
  | k + 1, s =>
    match exec (.wrread rd) s with
    | .next t => if t.err then [] else (t.getReg rd).toNat :: wordReads rd k t
    | .fault _ => []
    | .refused _ => []

/-- Writing a list of values with one writer command: each value is put into register `rs` by the host (R22) and then written
by the command `write`, BWWRITE or WWWRITE of `rs`. `none` after an error or a refusal. -/
def writeAll (write : Instr) (rs : Reg) : List Word → State → Option State
  | [], s => some s
  | v :: vs, s =>
    match exec write (s.setReg rs v) with
    | .next t => if t.err then none else writeAll write rs vs t
    | .fault _ => none
    | .refused _ => none

/-- One command that must end without error. -/
def runOk (i : Instr) (s : State) : Option State :=
  match exec i s with
  | .next t => if t.err then none else some t
  | .fault _ => none
  | .refused _ => none

/-- Passing elements from the byte reader to the byte writer through `rd` until Empty (R198), at most `fuel` of them. -/
def copyBytes (rd : Reg) : (fuel : Nat) → State → Option State
  | 0, _ => none
  | fuel + 1, s => do
    let t ← runOk (.brread rd) s
    if t.empty then some t
    else do
      let u ← runOk (.bwwrite rd) t
      copyBytes rd fuel u

/-- The stream bits a value takes in the byte codec (R191): 60 for the placeholder, else 61. -/
def byteWidth (v : Nat) : Nat := if v = 2 ^ 60 - 1 then 60 else 61

/-- How many stream bits a list of values takes, for a width function (R196, R197, R243). -/
def streamWidth (width : Nat → Nat) : List Nat → Nat
  | [] => 0
  | v :: vs => width v + streamWidth width vs

/-- The integer S of R197 and R243: each value at the sum of the widths before it. -/
def packedStream (width : Nat → Nat) : List Nat → Nat
  | [] => 0
  | v :: vs => v + 2 ^ width v * packedStream width vs

/-! ### Opcode rows, and running two commands -/

/-- The command words a row of the opcode map accepts are exactly those with the row's match under its mask, and they decode
to the row's command with the fields of the word (R80, R83). -/
def AcceptsRow (mask pattern : CmdWord) (command : CmdWord → Instr) : Prop :=
  ∀ c : CmdWord, c &&& mask = pattern ↔ decode (c.setWidth 64) = .instr (command c)

/-- A result with a change applied to its next state. -/
def mapNext (f : State → State) : Result → Result
  | .next t => .next (f t)
  | .fault r => .fault r
  | .refused r => .refused r

/-- The commands of the byte reader, by R42 the only ones that use BR. -/
def usesBr : Instr → Bool
  | .brbegin _ _ | .brread _ => true
  | _ => false

/-- The commands of the byte writer. -/
def usesBw : Instr → Bool
  | .bwbegin _ | .bwwrite _ | .bwflush _ => true
  | _ => false

/-- The commands of the word reader. -/
def usesWr : Instr → Bool
  | .wrbegin _ _ | .wrread _ => true
  | _ => false

/-- The commands of the word writer. -/
def usesWw : Instr → Bool
  | .wwbegin _ | .wwwrite _ | .wwflush _ => true
  | _ => false

/-- The commands that access memory (R60). -/
def usesMemory : Instr → Bool
  | .brread _ | .wrread _ | .bwwrite _ | .bwflush _ | .wwwrite _ | .wwflush _ => true
  | _ => false

/-- The kind of a command's port accesses: the writers' commands write, the readers' commands read (R60). -/
def portKind (i : Instr) : AccessKind := if usesBw i || usesWw i then .write else .read

/-- The errors a command can raise once it is decoded (R256). -/
def mayRaise (i : Instr) (e : ECode) : Bool :=
  match i, e with
  | .fin _ _, .domain | .add4 _ _ _ _ _, .domain | .neg _ _, .domain | .mul _ _ _, .domain | .bwmaxb _ _, .domain => true
  | .brbegin _ _, .domain | .wrbegin _ _, .domain => true
  | .brread _, .notbound | .brread _, .memfault | .wrread _, .notbound | .wrread _, .memfault => true
  | .bwwrite _, .notbound | .bwwrite _, .domain | .bwwrite _, .memfault => true
  | .wwwrite _, .notbound | .wwwrite _, .domain | .wwwrite _, .memfault => true
  | .bwflush _, .notbound | .bwflush _, .memfault | .wwflush _, .notbound | .wwflush _, .memfault => true
  | _, _ => false

/-- The events that reset the unit (R280): the reset input, idle or during a command, and a CTRL write with SRST. -/
def IsReset (e : HostEvent) : Prop :=
  e = .hwReset ∨ (∃ v, e = .abandonedCmd v) ∨ ∃ v : Word, v.getLsbD 2 = true ∧ e = .write 0x008#12 8 v

/-- The events that write CMD (R36). -/
def IsCommand (e : HostEvent) : Prop :=
  (∃ v, e = .write 0x018#12 8 v) ∨ (∃ v off, e = .polledCmd v off) ∨ (∃ v racing, e = .racedCmd v racing) ∨
    ∃ v, e = .abandonedCmd v

/-- The window offsets of R23 that are read-only: ID, FAULT_CMD, FAULT_ADDR and the cursor registers. -/
def readOnlyOffsets : List Nat :=
  [0x000, 0x020, 0x028, 0x200, 0x208, 0x210, 0x218, 0x220, 0x228, 0x230, 0x238, 0x240, 0x248, 0x250, 0x258, 0x260, 0x268,
    0x270, 0x278]

/-- The window offsets of R23 other than the data registers. -/
def namedOffsets : List Nat := [0x008, 0x010, 0x018] ++ readOnlyOffsets

/-- A naturally aligned offset that R23 assigns to no register. -/
abbrev ReservedOffset (off : BitVec 12) : Prop :=
  off.toNat % 8 = 0 ∧ off.toNat ∉ namedOffsets ∧ ¬ (0x100 ≤ off.toNat ∧ off.toNat ≤ 0x178)

end Sys2Proof.Safety
end

