-- ==== Sys2Proof/Certificates/Slice0/Obligations.lean ====
section
/-! DEFINITION. The statements about FP61U for the provers. Each docstring names the rule of the spec its Lean states, or says
that the spec derives the point itself and from where. -/

open Sys2Proof Sys2Proof.Machine Sys2Proof.Safety

/-! ### Encoding (`30_encoding.md`) -/

/-- Decoding the encoding of any command gives the command back, every operand at every value of its field. The spec derives
the uniqueness of encodings itself (R85, from R81, R83, R84). -/
def Obligations.DecodeEncodeRoundTrip : Prop :=
  ∀ i : Instr, decode (cmdValue i) = .instr i

/-- A CMD value that decodes to a command is that command's encoding: no two values name one command (the spec's own
inference in R85). -/
def Obligations.CommandHasOneEncoding : Prop :=
  ∀ (v : Word) (i : Instr), decode v = .instr i → cmdValue i = v

/-- The field-by-field decoder of R81 accepts exactly the values the match and mask of the opcode table accept
(`95_test_vectors.md` V-DEC: "accepts a 32-bit word w for a row iff w & mask = match"). -/
def Obligations.DecoderAcceptsExactlyTheOpcodeTable : Prop :=
  ∀ v : Word, (∃ i, decode v = .instr i) ↔ cmdWellFormed v = true

/-- Words of the spec's own programs (`95_test_vectors.md` P1, P2, P4, P5) decode to the commands written beside them. -/
def Obligations.SampleWordsDecode : Prop :=
  decode 0x0DD28000#64 = .instr (.add4 7 4 10 0 0) ∧ decode 0x14C48000#64 = .instr (.mul 3 1 2) ∧
    decode 0x40048000#64 = .instr (.brbegin 1 2) ∧ decode 0x540C0000#64 = .instr (.bwwrite 3) ∧
    decode 0x79C00000#64 = .instr (.wwflush 7) ∧ decode 0x04000001#64 = .illegal .reserved

/-- R250: a CMD value that does not decode raises ILLEGAL (ECODE 1) when the unit is in service. It reads and writes no data
register, cursor or memory; FAULT_CMD records the full 64-bit value and FAULT_ADDR is 0. That no row of the opcode table
accepts the value is the four bulleted cases together. -/
def Obligations.UndecodableValueRaisesIllegal : Prop :=
  ∀ (s : State) (v : Word) (rest : List HostEvent), s.bus = .write 0x018#12 8 v :: rest → s.err = false →
    cmdWellFormed v = false →
      ∃ t, step s = .next t ∧ RaisedCleanly .illegal v 0#64 { s with bus := rest } t ∧ t.ecode.code = 1#4

/-! ### The command port, the error state and the host's registers (`10_state.md`) -/

/-- A step whose event is a host write of a command to CMD, with the unit in service, is that command's `exec` on the state
with the event taken and BUSY set (R36, R27, R81); with no event a step changes nothing (R275). That the host's writes come as
a list of events, and that BUSY is set inside the step, is the model's choice (log entries 1 and 6). -/
def Obligations.StepRunsTheDecodedCommand : Prop :=
  (∀ (s : State) (v : Word) (i : Instr) (rest : List HostEvent), s.bus = .write 0x018#12 8 v :: rest → s.err = false →
      decode v = .instr i → step s = exec i { s with bus := rest, busy := true }) ∧
    ∀ s : State, s.bus = [] → step s = .next s

/-- R29: an error sets ERR, and only a host write of 1 to STATUS bit 2 or a reset clears it. While ERR = 1 a command written
to CMD is discarded: it changes no state at all. -/
def Obligations.ErrIsStickyAndDiscardsCommands : Prop :=
  (∀ (s : State) (e : ECode) (cmd info : Word), (s.raise e cmd info).err = true) ∧
    (∀ (s t : State) (e : HostEvent) (rest : List HostEvent), s.bus = e :: rest → s.err = true → step s = .next t →
      t.err = true ∨ IsReset e ∨ ∃ v : Word, v.getLsbD 2 = true ∧ e = .write 0x010#12 8 v) ∧
    ∀ (s : State) (v : Word) (rest : List HostEvent), s.bus = .write 0x018#12 8 v :: rest → s.err = true →
      step s = .next { s with bus := rest }

/-- R33: what a host write of `v` to STATUS clears, and that every other bit of `v` is ignored. -/
def Obligations.StatusWriteClearsErrAndDone : Prop :=
  ∀ (s : State) (v : Word) (rest : List HostEvent), s.bus = .write 0x010#12 8 v :: rest →
    ∃ t, step s = .next t ∧
      (v.getLsbD 2 = true → t.err = false ∧ t.ecode = .none ∧ t.faultCmd = 0#64 ∧ t.faultAddr = 0#64) ∧
      (v.getLsbD 2 = false → SameErrorRecord s t) ∧
      t.done = (s.done && !v.getLsbD 3) ∧ t.busy = s.busy ∧ t.empty = s.empty ∧
      SameControl s t ∧ SameCursors s t ∧ SameRegs s t ∧ SameMemory s t ∧ SameWorld { s with bus := rest } t

/-- R25: CTRL. A write with SRST = 0 sets EIE and DIE from bits 0 and 1 and changes nothing else; with SRST = 1 it resets the
unit and leaves EIE and DIE 0. CTRL reads back the low two bits of what was written, SRST and the reserved bits as 0, and is 0
after reset. -/
def Obligations.ControlWriteSetsEnablesOrResets : Prop :=
  State.reset.windowRead 0x008#12 = 0#64 ∧
  ∀ (s : State) (v : Word) (rest : List HostEvent), s.bus = .write 0x008#12 8 v :: rest →
    (v.getLsbD 2 = true → step s = .next { s with bus := rest }.applyReset ∧
      ({ s with bus := rest }.applyReset).windowRead 0x008#12 = 0#64) ∧
    (v.getLsbD 2 = false → ∃ t, step s = .next t ∧ t.eie = v.getLsbD 0 ∧ t.die = v.getLsbD 1 ∧
      t.windowRead 0x008#12 = v &&& 3#64 ∧ SameErrorRecord s t ∧ t.done = s.done ∧ t.busy = s.busy ∧ t.empty = s.empty ∧
      SameCursors s t ∧ SameRegs s t ∧ SameMemory s t ∧ SameWorld { s with bus := rest } t)

/-- R46: what the hardware reset and the soft reset leave: every register the table lists, the interrupt line, and memory
unchanged. The state the machine starts in holds the same values. -/
def Obligations.ResetLeavesTheTableOfValues : Prop :=
  (∀ (s : State) (e : HostEvent) (rest : List HostEvent), s.bus = e :: rest →
      (e = .hwReset ∨ ∃ v : Word, v.getLsbD 2 = true ∧ e = .write 0x008#12 8 v) →
      ∃ t, step s = .next t ∧ (∀ r : Reg, t.getReg r = 0#64) ∧ t.windowRead 0x000#12 = 0x4650363100000007#64 ∧
        t.windowRead 0x008#12 = 0#64 ∧ t.windowRead 0x010#12 = 0#64 ∧ t.faultCmd = 0#64 ∧ t.faultAddr = 0#64 ∧
        t.br = ⟨false, 0#64, 0#64, 0#64, 0#8⟩ ∧ t.bw = ⟨false, 0#64, 0#64, 0#64, 0#6⟩ ∧
        t.wr = ⟨false, 0#64, 0#64, 0#64, 0#8⟩ ∧ t.ww = ⟨false, 0#64, 0#64, 0#64, 0#6⟩ ∧ t.irq = false ∧ SameMemory s t) ∧
    (∀ r : Reg, State.reset.getReg r = 0#64) ∧ State.reset.windowRead 0x000#12 = 0x4650363100000007#64 ∧
    State.reset.windowRead 0x008#12 = 0#64 ∧ State.reset.windowRead 0x010#12 = 0#64 ∧ State.reset.faultCmd = 0#64 ∧
    State.reset.faultAddr = 0#64 ∧ State.reset.br = ⟨false, 0#64, 0#64, 0#64, 0#8⟩ ∧
    State.reset.bw = ⟨false, 0#64, 0#64, 0#64, 0#6⟩ ∧ State.reset.wr = ⟨false, 0#64, 0#64, 0#64, 0#8⟩ ∧
    State.reset.ww = ⟨false, 0#64, 0#64, 0#64, 0#6⟩ ∧ State.reset.irq = false

/-- R37: the interrupt line, in the bits of STATUS (ERR 2, DONE 3) and CTRL (EIE 0, DIE 1) the host reads; 0 at reset. -/
def Obligations.InterruptLineFollowsStatusAndControl : Prop :=
  (∀ s : State, s.irq =
    (((s.windowRead 0x010#12).getLsbD 2 && (s.windowRead 0x008#12).getLsbD 0) ||
      ((s.windowRead 0x010#12).getLsbD 3 && (s.windowRead 0x008#12).getLsbD 1))) ∧ State.reset.irq = false

/-- The register map read and written by the host (`10_state.md` R23, R24, R25, R26, R42, `60_exceptions.md` R269, each in part):
STATUS and CTRL bit by bit, CMD, FAULT_CMD, FAULT_ADDR, the data registers at 0x100 + 8i, the cursor registers, the readers' AVAIL sign-extended, and read-only
registers that ignore writes. A host read answers the value and changes nothing else. -/
def Obligations.HostReadsEveryRegister : Prop :=
  (∀ s : State, s.windowRead 0x000#12 = 0x4650363100000007#64 ∧ s.windowRead 0x018#12 = 0#64 ∧
    s.windowRead 0x020#12 = s.faultCmd ∧ s.windowRead 0x028#12 = s.faultAddr ∧
    (∀ k < 64, (s.windowRead 0x008#12).getLsbD k = (k == 0 && s.eie || k == 1 && s.die)) ∧
    (∀ k < 64, (s.windowRead 0x010#12).getLsbD k =
      (k == 0 && s.busy || k == 1 && s.empty || k == 2 && s.err || k == 3 && s.done ||
        (decide (4 ≤ k) && s.ecode.code.getLsbD (k - 4)) ||
        k == 8 && s.br.bound || k == 9 && s.bw.bound || k == 10 && s.wr.bound || k == 11 && s.ww.bound)) ∧
    (∀ r : Reg, s.windowRead (BitVec.ofNat 12 (0x100 + 8 * r.toNat)) = s.getReg r) ∧
    s.windowRead 0x200#12 = s.br.addr ∧ s.windowRead 0x208#12 = s.br.rem ∧ s.windowRead 0x210#12 = s.br.ws ∧
    (s.windowRead 0x218#12).toInt = s.br.avail.toInt ∧
    s.windowRead 0x220#12 = s.bw.addr ∧ s.windowRead 0x228#12 = s.bw.start ∧ s.windowRead 0x230#12 = s.bw.ws ∧
    (s.windowRead 0x238#12).toNat = s.bw.avail.toNat ∧
    s.windowRead 0x240#12 = s.wr.addr ∧ s.windowRead 0x248#12 = s.wr.rem ∧ s.windowRead 0x250#12 = s.wr.ws ∧
    (s.windowRead 0x258#12).toInt = s.wr.avail.toInt ∧
    s.windowRead 0x260#12 = s.ww.addr ∧ s.windowRead 0x268#12 = s.ww.start ∧ s.windowRead 0x270#12 = s.ww.ws ∧
    (s.windowRead 0x278#12).toNat = s.ww.avail.toNat) ∧
  (∀ (s : State) (off : BitVec 12) (rest : List HostEvent), off.toNat % 8 = 0 → s.bus = .read off 8 :: rest →
    step s = .next { s with bus := rest, replies := s.replies ++ [s.windowRead off] }) ∧
  ∀ (s : State) (off : BitVec 12) (v : Word) (rest : List HostEvent), off.toNat ∈ readOnlyOffsets →
    s.bus = .write off 8 v :: rest → step s = .next { s with bus := rest }

/-- R45: a reserved offset reads 0 and ignores writes. -/
def Obligations.ReservedOffsetsReadZeroAndIgnoreWrites : Prop :=
  ∀ (s : State) (off : BitVec 12) (v : Word) (rest : List HostEvent), ReservedOffset off →
    (s.bus = .read off 8 :: rest → step s = .next { s with bus := rest, replies := s.replies ++ [0#64] }) ∧
    (s.bus = .write off 8 v :: rest → step s = .next { s with bus := rest })

/-- R21: sixteen data registers; f0 reads 0 and discards every write, by a command or by the host; f1 to f15 hold what was
written, and writing one changes no other. -/
def Obligations.DataRegistersAndHardwiredZero : Prop :=
  (∀ s : State, s.getReg 0#4 = 0#64) ∧
  (∀ (s : State) (rd r : Reg) (v : Word), (s.setReg rd v).getReg r = if r = rd ∧ r ≠ 0#4 then v else s.getReg r) ∧
  ∀ (s : State) (rd : Reg) (v : Word) (rest : List HostEvent),
    s.bus = .write (BitVec.ofNat 12 (0x100 + 8 * rd.toNat)) 8 v :: rest →
    ∃ t, step s = .next t ∧ (∀ r : Reg, t.getReg r = if r = rd ∧ r ≠ 0#4 then v else s.getReg r) ∧
      SameErrorRecord s t ∧ SameControl s t ∧ t.done = s.done ∧ t.busy = s.busy ∧ t.empty = s.empty ∧
      SameCursors s t ∧ SameMemory s t ∧ SameWorld { s with bus := rest } t

/-- R270: a host access narrower than 64 bits or not 8-byte aligned is refused, by a name of its own, and raises no error of
the unit. -/
def Obligations.NarrowHostAccessIsRefused : Prop :=
  ∀ (s : State) (off : BitVec 12) (n : Nat) (v : Word) (rest : List HostEvent), (n < 8 ∨ off.toNat % 8 ≠ 0) →
    (s.bus = .write off n v :: rest → step s = .refused (.hostNarrowAccess off n)) ∧
    (s.bus = .read off n :: rest → step s = .refused (.hostNarrowAccess off n))

/-! ### Reduction and addition (`40_reduction_add.md`) -/

/-- R100: PRED, for every operand and register. -/
def Obligations.PredFoldsAtBitSixtyOne : Prop :=
  AcceptsRow 0xFC03FFFF#32 0x04000000#32 (fun c => .pred (c.extractLsb' 22 4) (c.extractLsb' 18 4)) ∧
  ∀ (rd rs1 : Reg) (s : State), ∃ t, exec (.pred rd rs1) s = .next t ∧
    OnlyWritesReg rd ((s.getReg rs1).toNat % 2 ^ 61 + (s.getReg rs1).toNat / 2 ^ 61) s t ∧
    (s.getReg rs1).toNat % 2 ^ 61 + (s.getReg rs1).toNat / 2 ^ 61 ≤ 2 ^ 61 + 6

/-- R105: FIN on its domain, x ≤ M62 and x ≠ FBAD, and DOMAIN outside it. -/
def Obligations.FinFinalizesOrRaisesDomain : Prop :=
  AcceptsRow 0xFC03FFFF#32 0x08000000#32 (fun c => .fin (c.extractLsb' 22 4) (c.extractLsb' 18 4)) ∧
  ∀ (rd rs1 : Reg) (s : State) (x : Nat), x = (s.getReg rs1).toNat →
    (x < 2 ^ 62 ∧ x ≠ 0x3FFFFFFFFFFFFFFE →
      ∃ t, exec (.fin rd rs1) s = .next t ∧ OnlyWritesReg rd ((x + (x + 1) / 2 ^ 61) % 2 ^ 61) s t ∧
        (x + (x + 1) / 2 ^ 61) % 2 ^ 61 < 2 ^ 61 - 1) ∧
    (2 ^ 62 ≤ x ∨ x = 0x3FFFFFFFFFFFFFFE →
      ∃ t, exec (.fin rd rs1) s = .next t ∧ RaisedCleanly .domain (cmdValue (.fin rd rs1)) 0#64 s t)

/-- R110: ADD4 on its domain, the four-operand sum exact, and DOMAIN when an operand is 2^62 or more. -/
def Obligations.Add4FoldsTheExactSumOrRaisesDomain : Prop :=
  AcceptsRow 0xFC00003F#32 0x0C000000#32 (fun c => .add4 (c.extractLsb' 22 4) (c.extractLsb' 18 4) (c.extractLsb' 14 4)
    (c.extractLsb' 10 4) (c.extractLsb' 6 4)) ∧
  ∀ (rd rs1 rs2 rs3 rs4 : Reg) (s : State) (a b c d : Nat), a = (s.getReg rs1).toNat → b = (s.getReg rs2).toNat →
    c = (s.getReg rs3).toNat → d = (s.getReg rs4).toNat →
    (a < 2 ^ 62 ∧ b < 2 ^ 62 ∧ c < 2 ^ 62 ∧ d < 2 ^ 62 →
      ∃ t, exec (.add4 rd rs1 rs2 rs3 rs4) s = .next t ∧
        OnlyWritesReg rd ((a + b + c + d) % 2 ^ 61 + (a + b + c + d) / 2 ^ 61) s t) ∧
    (2 ^ 62 ≤ a ∨ 2 ^ 62 ≤ b ∨ 2 ^ 62 ≤ c ∨ 2 ^ 62 ≤ d →
      ∃ t, exec (.add4 rd rs1 rs2 rs3 rs4) s = .next t ∧
        RaisedCleanly .domain (cmdValue (.add4 rd rs1 rs2 rs3 rs4)) 0#64 s t)

/-- R115: NEG gives p − x for x ≤ p, and DOMAIN above p. -/
def Obligations.NegSubtractsFromThePrimeOrRaisesDomain : Prop :=
  AcceptsRow 0xFC03FFFF#32 0x10000000#32 (fun c => .neg (c.extractLsb' 22 4) (c.extractLsb' 18 4)) ∧
  ∀ (rd rs1 : Reg) (s : State) (x : Nat), x = (s.getReg rs1).toNat →
    (x ≤ 2 ^ 61 - 1 → ∃ t, exec (.neg rd rs1) s = .next t ∧ OnlyWritesReg rd (2 ^ 61 - 1 - x) s t) ∧
    (2 ^ 61 - 1 < x →
      ∃ t, exec (.neg rd rs1) s = .next t ∧ RaisedCleanly .domain (cmdValue (.neg rd rs1)) 0#64 s t)

/-- The laws of the reductions through the commands: PRED keeps the residue, stays within 2^61 + 6 and never gives FBAD; FIN
gives x mod p; ADD4's result is congruent to the sum and within 2^61 + 6. The spec derives them itself (R101, R102, R106,
R111, from R100, R105, R110). -/
def Obligations.ReductionsKeepTheResidue : Prop :=
  ∀ (rd : Reg) (s t : State), rd ≠ 0#4 → t.err = false →
    (∀ rs1, exec (.pred rd rs1) s = .next t →
      (t.getReg rd).toNat % (2 ^ 61 - 1) = (s.getReg rs1).toNat % (2 ^ 61 - 1) ∧ (t.getReg rd).toNat ≤ 2 ^ 61 + 6 ∧
        (t.getReg rd).toNat ≠ 0x3FFFFFFFFFFFFFFE) ∧
    (∀ rs1, exec (.fin rd rs1) s = .next t → (t.getReg rd).toNat = (s.getReg rs1).toNat % (2 ^ 61 - 1)) ∧
    ∀ rs1 rs2 rs3 rs4, exec (.add4 rd rs1 rs2 rs3 rs4) s = .next t →
      (t.getReg rd).toNat % (2 ^ 61 - 1) = ((s.getReg rs1).toNat + (s.getReg rs2).toNat + (s.getReg rs3).toNat +
        (s.getReg rs4).toNat) % (2 ^ 61 - 1) ∧ (t.getReg rd).toNat ≤ 2 ^ 61 + 6

/-! ### Multiply and inverse (`41_multiply_inverse.md`) -/

/-- R140: MUL folds the exact product at bit 61 and reduces partially when the bit lengths sum to at most 124, and raises
DOMAIN otherwise. `Nat.size` is the bit length of R10. -/
def Obligations.MulFoldsTheProductOrRaisesDomain : Prop :=
  AcceptsRow 0xFC003FFF#32 0x14000000#32
    (fun c => .mul (c.extractLsb' 22 4) (c.extractLsb' 18 4) (c.extractLsb' 14 4)) ∧
  ∀ (rd rs1 rs2 : Reg) (s : State) (x y r : Nat), x = (s.getReg rs1).toNat → y = (s.getReg rs2).toNat →
    r = x * y % 2 ^ 61 + x * y / 2 ^ 61 →
    (x.size + y.size ≤ 124 →
      ∃ t, exec (.mul rd rs1 rs2) s = .next t ∧ OnlyWritesReg rd (r % 2 ^ 61 + r / 2 ^ 61) s t ∧
        r % 2 ^ 61 + r / 2 ^ 61 < 2 ^ 62) ∧
    (124 < x.size + y.size →
      ∃ t, exec (.mul rd rs1 rs2) s = .next t ∧ RaisedCleanly .domain (cmdValue (.mul rd rs1 rs2)) 0#64 s t)

/-- R148: INV writes 0 when x mod p is 0, else the unique y in [1, p − 1] with (x mod p) · y ≡ 1 (mod p); it is never an
error. -/
def Obligations.InvWritesTheUniqueInverse : Prop :=
  AcceptsRow 0xFC03FFFF#32 0x18000000#32 (fun c => .inv (c.extractLsb' 22 4) (c.extractLsb' 18 4)) ∧
  ∀ (rd rs1 : Reg) (s : State) (a : Nat), a = (s.getReg rs1).toNat % (2 ^ 61 - 1) →
    (a = 0 → ∃ t, exec (.inv rd rs1) s = .next t ∧ OnlyWritesReg rd 0 s t) ∧
    (a ≠ 0 → ∃ y, (1 ≤ y ∧ y ≤ 2 ^ 61 - 2 ∧ a * y % (2 ^ 61 - 1) = 1) ∧
      (∀ z, 1 ≤ z ∧ z ≤ 2 ^ 61 - 2 ∧ a * z % (2 ^ 61 - 1) = 1 → z = y) ∧
      ∃ t, exec (.inv rd rs1) s = .next t ∧ OnlyWritesReg rd y s t)

/-- FIN after MUL is the product modulo p, for every pair of operands in MUL's domain, and MUL's result is at most 2^61 + 3.
The spec derives it itself (R142, R143, from R140 and R106). -/
def Obligations.FinAfterMulIsTheProductModuloP : Prop :=
  ∀ (rd rd' rs1 rs2 : Reg) (s : State), rd ≠ 0#4 → rd' ≠ 0#4 →
    (s.getReg rs1).toNat.size + (s.getReg rs2).toNat.size ≤ 124 →
    ∃ t u, exec (.mul rd rs1 rs2) s = .next t ∧ exec (.fin rd' rd) t = .next u ∧ u.err = s.err ∧
      (t.getReg rd).toNat ≤ 2 ^ 61 + 3 ∧
      (u.getReg rd').toNat = (s.getReg rs1).toNat * (s.getReg rs2).toNat % (2 ^ 61 - 1)

/-- The multiplicative inverse through the commands: INV, MUL, FIN on an operand of at most 63 bits that is not a multiple of
p give 1. The spec derives it itself (R152, from R140, R143, R148). -/
def Obligations.ValueTimesItsInverseIsOne : Prop :=
  ∀ (r1 r2 r3 r4 : Reg) (s : State), r2 ≠ 0#4 → r3 ≠ 0#4 → r4 ≠ 0#4 → r2 ≠ r1 →
    (s.getReg r1).toNat < 2 ^ 63 → (s.getReg r1).toNat % (2 ^ 61 - 1) ≠ 0 →
    ∃ t u w, exec (.inv r2 r1) s = .next t ∧ exec (.mul r3 r1 r2) t = .next u ∧ exec (.fin r4 r3) u = .next w ∧
      w.err = s.err ∧ (w.getReg r4).toNat = 1

/-! ### The byte codec (`42_byte_codec.md`) -/

/-- R171: BRBEGIN binds the byte reader, or raises DOMAIN when the buffer would run past address 2^64 − 1. -/
def Obligations.BrbeginBindsOrRaisesDomain : Prop :=
  AcceptsRow 0xFFC03FFF#32 0x40000000#32 (fun c => .brbegin (c.extractLsb' 18 4) (c.extractLsb' 14 4)) ∧
  ∀ (rs1 rs2 : Reg) (s : State),
    ((s.getReg rs1).toNat + (s.getReg rs2).toNat ≤ 2 ^ 64 →
      ∃ t, exec (.brbegin rs1 rs2) s = .next t ∧ t.br = ⟨true, s.getReg rs1, s.getReg rs2, 0#64, 0#8⟩ ∧
        t.bw = s.bw ∧ t.wr = s.wr ∧ t.ww = s.ww ∧ t.empty = s.empty ∧ Completed s t ∧ SameRegs s t ∧ SameMemory s t) ∧
    (2 ^ 64 < (s.getReg rs1).toNat + (s.getReg rs2).toNat →
      ∃ t, exec (.brbegin rs1 rs2) s = .next t ∧ RaisedCleanly .domain (cmdValue (.brbegin rs1 rs2)) 0#64 s t)

/-- R172: BRREAD. NOTBOUND on an unbound reader; on a bound one in the invariant of R43: Empty when exhausted, with nothing but
EMPTY and DONE changed; MEMFAULT with nothing changed when a byte of the refill is refused; else Success, the candidate (or
the placeholder, with one bit given back) in rd and the cursor committed. -/
def Obligations.BrreadReturnsTheNextElement : Prop :=
  AcceptsRow 0xFC3FFFFF#32 0x44000000#32 (fun c => .brread (c.extractLsb' 22 4)) ∧
  ∀ (rd : Reg) (s : State),
    (s.br.bound = false →
      ∃ t, exec (.brread rd) s = .next t ∧ RaisedCleanly .notbound (cmdValue (.brread rd)) 0#64 s t) ∧
    (s.br.bound = true → ReaderOk 64 s.br →
      (Exhausted s.br → ∃ t, exec (.brread rd) s = .next t ∧ t.empty = true ∧ Completed s t ∧ SameRegs s t ∧
        SameCursors s t ∧ SameMemory s t) ∧
      (¬ Exhausted s.br → PortAllows .read s s.br.addr (bytesToRead s.br) →
        ∃ t, exec (.brread rd) s = .next t ∧ t.empty = false ∧ Completed s t ∧ SameMemory s t ∧
          t.bw = s.bw ∧ t.wr = s.wr ∧ t.ww = s.ww ∧
          (Ambiguous (candidate s.mem s.br) → WritesReg rd (2 ^ 60 - 1) s t ∧ TakesBits s.mem 1 s.br t.br) ∧
          (¬ Ambiguous (candidate s.mem s.br) →
            WritesReg rd (candidate s.mem s.br) s t ∧ TakesBits s.mem 0 s.br t.br)) ∧
      ∀ j, FirstRefused .read s s.br.addr (bytesToRead s.br) j →
        ∃ t, exec (.brread rd) s = .next t ∧
          RaisedCleanly .memfault (cmdValue (.brread rd)) (s.br.addr + BitVec.ofNat 64 j) s t)

/-- R181: BRMAXW, exact arithmetic, which equals ceil(8N / 60) and fits in a u64. -/
def Obligations.BrmaxwBoundsTheElementCount : Prop :=
  AcceptsRow 0xFC03FFFF#32 0x48000000#32 (fun c => .brmaxw (c.extractLsb' 22 4) (c.extractLsb' 18 4)) ∧
  ∀ (rd rs1 : Reg) (s : State) (b : Nat), b = 8 * (s.getReg rs1).toNat →
    ∃ t, exec (.brmaxw rd rs1) s = .next t ∧ OnlyWritesReg rd ((b + b / 60 + 60) / 61) s t ∧
      (b + b / 60 + 60) / 61 = (b + 59) / 60 ∧ (b + b / 60 + 60) / 61 ≤ 0x2222222222222222

/-- R190: BWBEGIN binds the byte writer, whatever it held before. -/
def Obligations.BwbeginBindsTheWriter : Prop :=
  AcceptsRow 0xFFC3FFFF#32 0x50000000#32 (fun c => .bwbegin (c.extractLsb' 18 4)) ∧
  ∀ (rs1 : Reg) (s : State), ∃ t, exec (.bwbegin rs1) s = .next t ∧
    t.bw = ⟨true, s.getReg rs1, s.getReg rs1, 0#64, 0#6⟩ ∧ t.br = s.br ∧ t.wr = s.wr ∧ t.ww = s.ww ∧
    t.empty = s.empty ∧ Completed s t ∧ SameRegs s t ∧ SameMemory s t

/-- R191: BWWRITE. NOTBOUND, then DOMAIN for v ≥ p, each with nothing changed; else, in the invariants of R43 and of memory, 60
bits for the placeholder and 61 for any other value go above the pending ones; a full word is stored, or MEMFAULT is raised
with the bytes before the refused one stored and no cursor register changed. -/
def Obligations.BwwriteTakesOneElement : Prop :=
  AcceptsRow 0xFFC3FFFF#32 0x54000000#32 (fun c => .bwwrite (c.extractLsb' 18 4)) ∧
  ∀ (rs1 : Reg) (s : State) (v x width : Nat), v = (s.getReg rs1).toNat →
    x = s.bw.ws.toNat + 2 ^ s.bw.avail.toNat * v → width = s.bw.avail.toNat + byteWidth v →
    (s.bw.bound = false →
      ∃ t, exec (.bwwrite rs1) s = .next t ∧ RaisedCleanly .notbound (cmdValue (.bwwrite rs1)) 0#64 s t) ∧
    (s.bw.bound = true → 2 ^ 61 - 1 ≤ v →
      ∃ t, exec (.bwwrite rs1) s = .next t ∧ RaisedCleanly .domain (cmdValue (.bwwrite rs1)) 0#64 s t) ∧
    (s.bw.bound = true → v < 2 ^ 61 - 1 → WriterOk s.bw → Memory.wf s.mem = true →
      (width < 64 → ∃ t, exec (.bwwrite rs1) s = .next t ∧ t.bw.bound = true ∧ t.bw.addr = s.bw.addr ∧
        t.bw.start = s.bw.start ∧ t.bw.ws.toNat = x ∧ t.bw.avail.toNat = width ∧ t.br = s.br ∧ t.wr = s.wr ∧
        t.ww = s.ww ∧ t.empty = s.empty ∧ Completed s t ∧ SameRegs s t ∧ SameMemory s t) ∧
      (64 ≤ width → PortAllows .write s s.bw.addr 8 →
        ∃ t, exec (.bwwrite rs1) s = .next t ∧ t.bw.bound = true ∧ t.bw.addr = s.bw.addr + 8#64 ∧
          t.bw.start = s.bw.start ∧ t.bw.ws.toNat = x / 2 ^ 64 ∧ t.bw.avail.toNat = width - 64 ∧ t.br = s.br ∧
          t.wr = s.wr ∧ t.ww = s.ww ∧ t.empty = s.empty ∧ Completed s t ∧ SameRegs s t ∧
          StoredAt s.bw.addr 8 (x % 2 ^ 64) s t) ∧
      ∀ j, 64 ≤ width → FirstRefused .write s s.bw.addr 8 j →
        ∃ t, exec (.bwwrite rs1) s = .next t ∧
          Raised .memfault (cmdValue (.bwwrite rs1)) (s.bw.addr + BitVec.ofNat 64 j) s t ∧
          StoredAt s.bw.addr j (x % 2 ^ 64) s t)

/-- R195: BWFLUSH. NOTBOUND with nothing changed; else ceil(AVAIL / 8) bytes are stored, the byte count since BWBEGIN goes to
rd, START is kept and the writer is unbound; or MEMFAULT with the bytes before the refused one stored and no register
changed. -/
def Obligations.BwflushStoresThePendingBytes : Prop :=
  AcceptsRow 0xFC3FFFFF#32 0x58000000#32 (fun c => .bwflush (c.extractLsb' 22 4)) ∧
  ∀ (rd : Reg) (s : State) (n : Nat), n = (s.bw.avail.toNat + 7) / 8 →
    (s.bw.bound = false →
      ∃ t, exec (.bwflush rd) s = .next t ∧ RaisedCleanly .notbound (cmdValue (.bwflush rd)) 0#64 s t) ∧
    (s.bw.bound = true → Memory.wf s.mem = true →
      (PortAllows .write s s.bw.addr n →
        ∃ t, exec (.bwflush rd) s = .next t ∧
          t.bw = ⟨false, s.bw.addr + BitVec.ofNat 64 n, s.bw.start, 0#64, 0#6⟩ ∧
          WritesReg rd (s.bw.addr + BitVec.ofNat 64 n - s.bw.start).toNat s t ∧ StoredAt s.bw.addr n s.bw.ws.toNat s t ∧
          t.br = s.br ∧ t.wr = s.wr ∧ t.ww = s.ww ∧ t.empty = s.empty ∧ Completed s t) ∧
      ∀ j, FirstRefused .write s s.bw.addr n j →
        ∃ t, exec (.bwflush rd) s = .next t ∧
          Raised .memfault (cmdValue (.bwflush rd)) (s.bw.addr + BitVec.ofNat 64 j) s t ∧
          StoredAt s.bw.addr j s.bw.ws.toNat s t)

/-- R199: BWMAXB gives ceil(61w / 8), or raises DOMAIN when that does not fit in 64 bits, which is for w above
0x2192E29F79B47581. -/
def Obligations.BwmaxbBoundsTheByteCount : Prop :=
  AcceptsRow 0xFC03FFFF#32 0x5C000000#32 (fun c => .bwmaxb (c.extractLsb' 22 4) (c.extractLsb' 18 4)) ∧
  ∀ (rd rs1 : Reg) (s : State) (w : Nat), w = (s.getReg rs1).toNat →
    ((61 * w + 7) / 8 < 2 ^ 64 ↔ w ≤ 0x2192E29F79B47581) ∧
    ((61 * w + 7) / 8 < 2 ^ 64 → ∃ t, exec (.bwmaxb rd rs1) s = .next t ∧ OnlyWritesReg rd ((61 * w + 7) / 8) s t) ∧
    (2 ^ 64 ≤ (61 * w + 7) / 8 →
      ∃ t, exec (.bwmaxb rd rs1) s = .next t ∧ RaisedCleanly .domain (cmdValue (.bwmaxb rd rs1)) 0#64 s t)

/-- The byte reader against its reference view: after BRBEGIN to (A, N), successive BRREADs return the elements of
ByteElements(A, N) in order, then Empty for ever, whatever the buffer holds. The spec derives it itself (R178, from R170 and
R172). -/
def Obligations.ByteReaderEmitsTheElementStream : Prop :=
  ∀ (s t : State) (rd rs1 rs2 : Reg) (k : Nat), rd ≠ 0#4 → s.err = false →
    (s.getReg rs1).toNat + (s.getReg rs2).toNat ≤ 2 ^ 64 →
    PortAllows .read s (s.getReg rs1) (s.getReg rs2).toNat → exec (.brbegin rs1 rs2) s = .next t →
    byteReads rd k t =
      (List.range k).map fun j => (bufferElements s.mem (s.getReg rs1) (s.getReg rs2).toNat)[j]?

/-- The element count: an N-byte buffer yields ceil((8N + e) / 61) elements, e of them the placeholder, never more than
BRMAXW's bound, and every element is below p. The spec derives it itself (R179, R180, R182, from R170, R172 and R181). -/
def Obligations.ElementCountOfABuffer : Prop :=
  ∀ (m : Memory) (a : Word) (n : Word) (e : Nat),
    e = (bufferElements m a n.toNat).count (2 ^ 60 - 1) →
    (bufferElements m a n.toNat).length = (8 * n.toNat + e + 60) / 61 ∧
      (bufferElements m a n.toNat).length ≤ (maxWords n).toNat ∧
      ∀ c ∈ bufferElements m a n.toNat, c < 2 ^ 61 - 1

/-- The byte writer as a function of what is written: BWBEGIN at D, BWWRITE of values below p, BWFLUSH store the ceil(T / 8)
bytes of S at D, S and T by the widths of the values, and return the count. The spec derives it itself (R197, from R191 and
R195). -/
def Obligations.ByteWriterPacksItsElements : Prop :=
  ∀ (s : State) (rs rb rd : Reg) (vs : List Word) (n : Nat), rs ≠ 0#4 → rd ≠ 0#4 → s.err = false →
    Memory.wf s.mem = true → (∀ v ∈ vs, v.toNat < 2 ^ 61 - 1) →
    n = (streamWidth byteWidth (vs.map BitVec.toNat) + 7) / 8 → n < 2 ^ 64 →
    PortAllows .write s (s.getReg rb) n →
    ∃ t u w, exec (.bwbegin rb) s = .next t ∧ writeAll (.bwwrite rs) rs vs t = some u ∧
      exec (.bwflush rd) u = .next w ∧ w.err = false ∧ (w.getReg rd).toNat = n ∧
      StoredAt (s.getReg rb) n (packedStream byteWidth (vs.map BitVec.toNat)) s w

/-- The byte round trip: reading every element of an N-byte buffer and writing it to a destination that does not meet the
buffer, then flushing, gives the buffer back, followed by zeros up to the count c returned, with N ≤ c ≤ N + 8. The spec
derives it itself (R198, from R170, R178, R197). -/
def Obligations.ByteRoundTripReproducesTheBuffer : Prop :=
  ∀ (s t u : State) (rd rs1 rs2 rb rc : Reg) (a d : Word) (n fuel : Nat), rd ≠ 0#4 → rc ≠ 0#4 → s.err = false →
    Memory.wf s.mem = true → a = s.getReg rs1 → n = (s.getReg rs2).toNat → d = s.getReg rb →
    a.toNat + n ≤ 2 ^ 64 → n + 8 < 2 ^ 64 → 8 * n < fuel →
    PortAllows .read s a n → PortAllows .write s d (n + 8) →
    (∀ j < n, n + 8 ≤ (a + BitVec.ofNat 64 j - d).toNat) →
    exec (.brbegin rs1 rs2) s = .next t → exec (.bwbegin rb) t = .next u →
    ∃ x y, copyBytes rd fuel u = some x ∧ exec (.bwflush rc) x = .next y ∧ y.err = false ∧
      n ≤ (y.getReg rc).toNat ∧ (y.getReg rc).toNat ≤ n + 8 ∧
      (∀ j < n, y.mem.byteAt (d + BitVec.ofNat 64 j).toNat = s.mem.byteAt (a + BitVec.ofNat 64 j).toNat) ∧
      ∀ j, n ≤ j → j < (y.getReg rc).toNat → y.mem.byteAt (d + BitVec.ofNat 64 j).toNat = 0#8

/-! ### The word codec (`43_word_codec.md`) -/

/-- R221: WRBEGIN binds the word reader, or raises DOMAIN when the buffer would run past address 2^64 − 1. -/
def Obligations.WrbeginBindsOrRaisesDomain : Prop :=
  AcceptsRow 0xFFC03FFF#32 0x60000000#32 (fun c => .wrbegin (c.extractLsb' 18 4) (c.extractLsb' 14 4)) ∧
  ∀ (rs1 rs2 : Reg) (s : State),
    ((s.getReg rs1).toNat + (s.getReg rs2).toNat ≤ 2 ^ 64 →
      ∃ t, exec (.wrbegin rs1 rs2) s = .next t ∧ t.wr = ⟨true, s.getReg rs1, s.getReg rs2, 0#64, 0#8⟩ ∧
        t.br = s.br ∧ t.bw = s.bw ∧ t.ww = s.ww ∧ t.empty = s.empty ∧ Completed s t ∧ SameRegs s t ∧ SameMemory s t) ∧
    (2 ^ 64 < (s.getReg rs1).toNat + (s.getReg rs2).toNat →
      ∃ t, exec (.wrbegin rs1 rs2) s = .next t ∧ RaisedCleanly .domain (cmdValue (.wrbegin rs1 rs2)) 0#64 s t)

/-- R222: WRREAD. NOTBOUND on an unbound reader; on a bound one in the invariant of R43: 0 in rd and no cursor change when
exhausted; MEMFAULT with nothing changed when a byte of the refill is refused; else the next 61 bits in rd. EMPTY is never
written. -/
def Obligations.WrreadReturnsTheNextWord : Prop :=
  AcceptsRow 0xFC3FFFFF#32 0x64000000#32 (fun c => .wrread (c.extractLsb' 22 4)) ∧
  ∀ (rd : Reg) (s : State),
    (s.wr.bound = false →
      ∃ t, exec (.wrread rd) s = .next t ∧ RaisedCleanly .notbound (cmdValue (.wrread rd)) 0#64 s t) ∧
    (s.wr.bound = true → ReaderOk 63 s.wr →
      (Exhausted s.wr → ∃ t, exec (.wrread rd) s = .next t ∧ OnlyWritesReg rd 0 s t) ∧
      (¬ Exhausted s.wr → PortAllows .read s s.wr.addr (bytesToRead s.wr) →
        ∃ t, exec (.wrread rd) s = .next t ∧ WritesReg rd (candidate s.mem s.wr) s t ∧ TakesBits s.mem 0 s.wr t.wr ∧
          t.empty = s.empty ∧ Completed s t ∧ SameMemory s t ∧ t.br = s.br ∧ t.bw = s.bw ∧ t.ww = s.ww) ∧
      ∀ j, FirstRefused .read s s.wr.addr (bytesToRead s.wr) j →
        ∃ t, exec (.wrread rd) s = .next t ∧
          RaisedCleanly .memfault (cmdValue (.wrread rd)) (s.wr.addr + BitVec.ofNat 64 j) s t)

/-- R230: WCOUNT gives floor(8B / 61), which fits in a u64. -/
def Obligations.WcountGivesTheWordCount : Prop :=
  AcceptsRow 0xFC03FFFF#32 0x68000000#32 (fun c => .wcount (c.extractLsb' 22 4) (c.extractLsb' 18 4)) ∧
  ∀ (rd rs1 : Reg) (s : State), ∃ t, exec (.wcount rd rs1) s = .next t ∧
    OnlyWritesReg rd (8 * (s.getReg rs1).toNat / 61) s t ∧ 8 * (s.getReg rs1).toNat / 61 ≤ 0x2192E29F79B47581

/-- R238: WWBEGIN binds the word writer, whatever it held before. -/
def Obligations.WwbeginBindsTheWriter : Prop :=
  AcceptsRow 0xFFC3FFFF#32 0x70000000#32 (fun c => .wwbegin (c.extractLsb' 18 4)) ∧
  ∀ (rs1 : Reg) (s : State), ∃ t, exec (.wwbegin rs1) s = .next t ∧
    t.ww = ⟨true, s.getReg rs1, s.getReg rs1, 0#64, 0#6⟩ ∧ t.br = s.br ∧ t.bw = s.bw ∧ t.wr = s.wr ∧
    t.empty = s.empty ∧ Completed s t ∧ SameRegs s t ∧ SameMemory s t

/-- R239: WWWRITE, as BWWRITE but every value takes 61 bits. -/
def Obligations.WwwriteTakesOneWord : Prop :=
  AcceptsRow 0xFFC3FFFF#32 0x74000000#32 (fun c => .wwwrite (c.extractLsb' 18 4)) ∧
  ∀ (rs1 : Reg) (s : State) (v x width : Nat), v = (s.getReg rs1).toNat →
    x = s.ww.ws.toNat + 2 ^ s.ww.avail.toNat * v → width = s.ww.avail.toNat + 61 →
    (s.ww.bound = false →
      ∃ t, exec (.wwwrite rs1) s = .next t ∧ RaisedCleanly .notbound (cmdValue (.wwwrite rs1)) 0#64 s t) ∧
    (s.ww.bound = true → 2 ^ 61 - 1 ≤ v →
      ∃ t, exec (.wwwrite rs1) s = .next t ∧ RaisedCleanly .domain (cmdValue (.wwwrite rs1)) 0#64 s t) ∧
    (s.ww.bound = true → v < 2 ^ 61 - 1 → WriterOk s.ww → Memory.wf s.mem = true →
      (width < 64 → ∃ t, exec (.wwwrite rs1) s = .next t ∧ t.ww.bound = true ∧ t.ww.addr = s.ww.addr ∧
        t.ww.start = s.ww.start ∧ t.ww.ws.toNat = x ∧ t.ww.avail.toNat = width ∧ t.br = s.br ∧ t.bw = s.bw ∧
        t.wr = s.wr ∧ t.empty = s.empty ∧ Completed s t ∧ SameRegs s t ∧ SameMemory s t) ∧
      (64 ≤ width → PortAllows .write s s.ww.addr 8 →
        ∃ t, exec (.wwwrite rs1) s = .next t ∧ t.ww.bound = true ∧ t.ww.addr = s.ww.addr + 8#64 ∧
          t.ww.start = s.ww.start ∧ t.ww.ws.toNat = x / 2 ^ 64 ∧ t.ww.avail.toNat = width - 64 ∧ t.br = s.br ∧
          t.bw = s.bw ∧ t.wr = s.wr ∧ t.empty = s.empty ∧ Completed s t ∧ SameRegs s t ∧
          StoredAt s.ww.addr 8 (x % 2 ^ 64) s t) ∧
      ∀ j, 64 ≤ width → FirstRefused .write s s.ww.addr 8 j →
        ∃ t, exec (.wwwrite rs1) s = .next t ∧
          Raised .memfault (cmdValue (.wwwrite rs1)) (s.ww.addr + BitVec.ofNat 64 j) s t ∧
          StoredAt s.ww.addr j (x % 2 ^ 64) s t)

/-- R242: WWFLUSH, as BWFLUSH on the word writer. -/
def Obligations.WwflushStoresThePendingBytes : Prop :=
  AcceptsRow 0xFC3FFFFF#32 0x78000000#32 (fun c => .wwflush (c.extractLsb' 22 4)) ∧
  ∀ (rd : Reg) (s : State) (n : Nat), n = (s.ww.avail.toNat + 7) / 8 →
    (s.ww.bound = false →
      ∃ t, exec (.wwflush rd) s = .next t ∧ RaisedCleanly .notbound (cmdValue (.wwflush rd)) 0#64 s t) ∧
    (s.ww.bound = true → Memory.wf s.mem = true →
      (PortAllows .write s s.ww.addr n →
        ∃ t, exec (.wwflush rd) s = .next t ∧
          t.ww = ⟨false, s.ww.addr + BitVec.ofNat 64 n, s.ww.start, 0#64, 0#6⟩ ∧
          WritesReg rd (s.ww.addr + BitVec.ofNat 64 n - s.ww.start).toNat s t ∧ StoredAt s.ww.addr n s.ww.ws.toNat s t ∧
          t.br = s.br ∧ t.bw = s.bw ∧ t.wr = s.wr ∧ t.empty = s.empty ∧ Completed s t) ∧
      ∀ j, FirstRefused .write s s.ww.addr n j →
        ∃ t, exec (.wwflush rd) s = .next t ∧
          Raised .memfault (cmdValue (.wwflush rd)) (s.ww.addr + BitVec.ofNat 64 j) s t ∧
          StoredAt s.ww.addr j s.ww.ws.toNat s t)

/-- The word reader against its reference view: after WRBEGIN to (A, N), the k-th WRREAD returns WordElements(A, N)[k], before
and after exhaustion. The spec derives it itself (R227, from R220 and R222). -/
def Obligations.WordReaderEmitsTheWordStream : Prop :=
  ∀ (s t : State) (rd rs1 rs2 : Reg) (k : Nat), rd ≠ 0#4 → s.err = false →
    (s.getReg rs1).toNat + (s.getReg rs2).toNat ≤ 2 ^ 64 →
    PortAllows .read s (s.getReg rs1) (s.getReg rs2).toNat → exec (.wrbegin rs1 rs2) s = .next t →
    wordReads rd k t = (List.range k).map fun j => wordElement s.mem (s.getReg rs1) (s.getReg rs2).toNat j

/-- The word writer as a function of what is written: WWBEGIN at D, k WWWRITEs of values below p, WWFLUSH store the
ceil(61k / 8) bytes of the packed values at D and return the count. The spec derives it itself (R243, from R239 and R242). -/
def Obligations.WordWriterPacksItsWords : Prop :=
  ∀ (s : State) (rs rb rd : Reg) (vs : List Word) (n : Nat), rs ≠ 0#4 → rd ≠ 0#4 → s.err = false →
    Memory.wf s.mem = true → (∀ v ∈ vs, v.toNat < 2 ^ 61 - 1) → n = (61 * vs.length + 7) / 8 → n < 2 ^ 64 →
    PortAllows .write s (s.getReg rb) n →
    ∃ t u w, exec (.wwbegin rb) s = .next t ∧ writeAll (.wwwrite rs) rs vs t = some u ∧
      exec (.wwflush rd) u = .next w ∧ w.err = false ∧ (w.getReg rd).toNat = n ∧
      StoredAt (s.getReg rb) n (packedStream (fun _ => 61) (vs.map BitVec.toNat)) s w

/-- The word round trip: what the word writer wrote, the word reader bound to the bytes it returned gives back, in WCOUNT of
that count reads. The spec derives it itself (R245 and R236, from R227, R230, R242, R243). -/
def Obligations.WordRoundTripReturnsTheWords : Prop :=
  ∀ (s : State) (rs rb rd rn : Reg) (vs : List Word) (n : Nat), rs ≠ 0#4 → rd ≠ 0#4 → rn ≠ 0#4 → rb ≠ rs → rb ≠ rn →
    s.err = false → Memory.wf s.mem = true → (∀ v ∈ vs, v.toNat < 2 ^ 61 - 1) → n = (61 * vs.length + 7) / 8 →
    (s.getReg rb).toNat + n ≤ 2 ^ 64 → n < 2 ^ 64 →
    PortAllows .write s (s.getReg rb) n → PortAllows .read s (s.getReg rb) n →
    ∃ t u w x, exec (.wwbegin rb) s = .next t ∧ writeAll (.wwwrite rs) rs vs t = some u ∧
      exec (.wwflush rn) u = .next w ∧ exec (.wrbegin rb rn) w = .next x ∧
      8 * (w.getReg rn).toNat / 61 = vs.length ∧ wordReads rd vs.length x = vs.map BitVec.toNat

/-! ### Status flags, errors and isolation -/

/-- R28: EMPTY is 1 after a BRREAD that found the reader exhausted and 0 after one that returned an element; a BRREAD that
raises an error keeps it, and no other command writes it. -/
def Obligations.EmptyIsWrittenByBrreadOnly : Prop :=
  ∀ (i : Instr) (s t : State), s.err = false → exec i s = .next t →
    (∀ rd, i = .brread rd → (t.err = true → t.empty = s.empty) ∧ (t.err = false → (t.empty = true ↔ Exhausted s.br))) ∧
    ((∀ rd, i ≠ .brread rd) → t.empty = s.empty)

/-- R30: every command that completes, with or without error, sets DONE; a discarded one does not; and only a host write of 1
to STATUS bit 3 or a reset clears it. -/
def Obligations.DoneIsSetByCommandsAndSticky : Prop :=
  (∀ (i : Instr) (s t : State), exec i s = .next t → t.done = true) ∧
  (∀ (s t : State) (v : Word), s.err = false → s.writeCmd v = .next t → t.done = true) ∧
  (∀ (s : State) (v : Word), s.err = true → s.writeCmd v = .next s) ∧
  ∀ (s t : State) (e : HostEvent) (rest : List HostEvent), s.bus = e :: rest → s.done = true → step s = .next t →
    t.done = true ∨ IsReset e ∨ ∃ v : Word, v.getLsbD 3 = true ∧ e = .write 0x010#12 8 v

/-- R32: each BEGIN sets its cursor's BOUND bit, each flush clears its writer's, and nothing else changes one except reset:
no other command, no CMD value that is discarded or does not decode, and no other event. -/
def Obligations.BoundBitsFollowBeginAndFlush : Prop :=
  (∀ (i : Instr) (s t : State), s.err = false → exec i s = .next t →
    t.br.bound = (s.br.bound || (!t.err && (match i with | .brbegin _ _ => true | _ => false))) ∧
    t.wr.bound = (s.wr.bound || (!t.err && (match i with | .wrbegin _ _ => true | _ => false))) ∧
    t.bw.bound = (match i with
      | .bwbegin _ => true
      | .bwflush _ => s.bw.bound && t.err
      | _ => s.bw.bound) ∧
    t.ww.bound = (match i with
      | .wwbegin _ => true
      | .wwflush _ => s.ww.bound && t.err
      | _ => s.ww.bound)) ∧
  (∀ (s t : State) (v : Word), s.err = true ∨ cmdWellFormed v = false → s.writeCmd v = .next t → SameCursors s t) ∧
  ∀ (s t : State) (e : HostEvent) (rest : List HostEvent), s.bus = e :: rest → ¬ IsReset e → ¬ IsCommand e →
    step s = .next t → SameCursors s t

/-- R252: what an error does. It records the code, the command's word and, for MEMFAULT only, the address of a refused byte;
sets DONE; ends BUSY; and leaves every data register, cursor, CTRL and EMPTY as it was. Memory is unchanged, unless the command
is a writer's and the error is MEMFAULT: then the address recorded is one of the eight bytes from the writer's address on,
refused for writes, and only bytes before it may have changed. ILLEGAL records the full CMD value. The codes are those of R31. -/
def Obligations.FailedCommandWritesNoRegister : Prop :=
  (∀ (i : Instr) (s t : State), s.err = false → Memory.wf s.mem = true → exec i s = .next t → t.err = true →
    Raised t.ecode (cmdValue i) t.faultAddr s t ∧ (t.ecode ≠ .memfault → t.faultAddr = 0#64) ∧
    (t.ecode = .memfault → s.platform.memFault t.faultAddr (portKind i) = true) ∧
    (t.ecode = .memfault → portKind i = .write → (t.faultAddr - writeBase i s).toNat < 8 ∧
      ∀ b : Word, (t.faultAddr - writeBase i s).toNat ≤ (b - writeBase i s).toNat →
        t.mem.byteAt b.toNat = s.mem.byteAt b.toNat) ∧
    (portKind i = .read ∨ t.ecode ≠ .memfault → SameMemory s t)) ∧
  (∀ (s t : State) (v : Word), s.err = false → cmdWellFormed v = false → s.writeCmd v = .next t →
    RaisedCleanly .illegal v 0#64 s t) ∧
  ECode.illegal.code = 1#4 ∧ ECode.domain.code = 2#4 ∧ ECode.notbound.code = 3#4 ∧ ECode.memfault.code = 4#4

/-- Which errors each command can raise once decoded (the spec's own table R256, derived from R250 to R255 and the command
rules), and that an unbound cursor is reported before anything about the operand or memory (R257). -/
def Obligations.EachCommandRaisesOnlyItsErrors : Prop :=
  ∀ (i : Instr) (s t : State), s.err = false → exec i s = .next t → t.err = true →
    mayRaise i t.ecode = true ∧
    ((∃ rd, i = .brread rd) ∧ s.br.bound = false ∨ (∃ r, i = .bwwrite r ∨ i = .bwflush r) ∧ s.bw.bound = false ∨
      (∃ rd, i = .wrread rd) ∧ s.wr.bound = false ∨ (∃ r, i = .wwwrite r ∨ i = .wwflush r) ∧ s.ww.bound = false →
      t.ecode = .notbound)

/-- A codec command whose access reaches the unit's own register window is refused by name, for each of the six commands that
access memory (`20_memory.md` R70 has a model refuse it). The rest is the model's choice (log entry 4): the access goes byte by
byte, the refusal names its first byte in the window, and an access that the port stops at an earlier or the same byte does not
reach the window. -/
def Obligations.OwnWindowAccessIsRefused : Prop :=
  ∀ (r : Reg) (s : State) (j : Nat),
    (s.br.bound = true → FirstInWindow .read s s.br.addr (bytesToRead s.br) j →
      exec (.brread r) s = .refused (.ownWindow (s.br.addr + BitVec.ofNat 64 j))) ∧
    (s.wr.bound = true → FirstInWindow .read s s.wr.addr (bytesToRead s.wr) j →
      exec (.wrread r) s = .refused (.ownWindow (s.wr.addr + BitVec.ofNat 64 j))) ∧
    (s.bw.bound = true → (s.getReg r).toNat < 2 ^ 61 - 1 → 64 ≤ s.bw.avail.toNat + byteWidth (s.getReg r).toNat →
      FirstInWindow .write s s.bw.addr 8 j →
      exec (.bwwrite r) s = .refused (.ownWindow (s.bw.addr + BitVec.ofNat 64 j))) ∧
    (s.ww.bound = true → (s.getReg r).toNat < 2 ^ 61 - 1 → 64 ≤ s.ww.avail.toNat + 61 →
      FirstInWindow .write s s.ww.addr 8 j →
      exec (.wwwrite r) s = .refused (.ownWindow (s.ww.addr + BitVec.ofNat 64 j))) ∧
    (s.bw.bound = true → FirstInWindow .write s s.bw.addr ((s.bw.avail.toNat + 7) / 8) j →
      exec (.bwflush r) s = .refused (.ownWindow (s.bw.addr + BitVec.ofNat 64 j))) ∧
    (s.ww.bound = true → FirstInWindow .write s s.ww.addr ((s.ww.avail.toNat + 7) / 8) j →
      exec (.wwflush r) s = .refused (.ownWindow (s.ww.addr + BitVec.ofNat 64 j)))

/-- No command of one cursor reads or writes another cursor's registers (`10_state.md` R42), and a command that does not
access memory (`20_memory.md` R60) neither depends on memory and the platform nor changes them: run on other contents of what
it does not use, a command does the same and leaves those contents. -/
def Obligations.CommandsUseOnlyTheirOwnState : Prop :=
  ∀ (i : Instr) (s : State),
    (usesBr i = false → ∀ c, exec i { s with br := c } = mapNext (fun t => { t with br := c }) (exec i s)) ∧
    (usesBw i = false → ∀ c, exec i { s with bw := c } = mapNext (fun t => { t with bw := c }) (exec i s)) ∧
    (usesWr i = false → ∀ c, exec i { s with wr := c } = mapNext (fun t => { t with wr := c }) (exec i s)) ∧
    (usesWw i = false → ∀ c, exec i { s with ww := c } = mapNext (fun t => { t with ww := c }) (exec i s)) ∧
    (usesMemory i = false → ∀ m p, exec i { s with mem := m, platform := p } =
      mapNext (fun t => { t with mem := m, platform := p }) (exec i s))

/-! ### Invariants every step keeps -/

/-- Every step keeps the cursor invariant: no workspace bit at or above the valid count, AVAIL in its range, and negative
only when nothing is left to read. The spec derives it itself (`10_state.md` R43; R176, R196, R226, R243). -/
def Obligations.EveryStepKeepsTheCursorInvariant : Prop :=
  ∀ s t : State, CursorsOk s → step s = .next t → CursorsOk t

/-- Every step keeps memory in its canonical form (the model's own representation, log entry 2). -/
def Obligations.EveryStepKeepsMemoryCanonical : Prop :=
  ∀ s t : State, Memory.wf s.mem = true → step s = .next t → Memory.wf t.mem = true

/-- Every step keeps the error record consistent with ERR, leaves BUSY 0 in every state it exposes, keeps each reader's
unread bytes below address 2^64, and never changes the platform. The spec derives these itself or allows the model its
choice (R27 and R291 for BUSY: log entry 6; R31, R34, R35 for the record; R66, R171 and R221 for the buffers). -/
def Obligations.EveryStepKeepsTheErrorRecordAndBuffers : Prop :=
  ∀ s t : State, step s = .next t →
    (ErrorRecordOk s → ErrorRecordOk t) ∧ (s.busy = false → t.busy = false) ∧
    (BuffersOk s ∧ CursorsOk s → BuffersOk t) ∧ t.platform = s.platform

/-- The invariants hold right after reset. -/
def Obligations.InvariantsHoldAtReset : Prop :=
  CursorsOk State.reset ∧ Memory.wf State.reset.mem = true ∧ ErrorRecordOk State.reset ∧ BuffersOk State.reset ∧
    State.reset.busy = false

/-! ### Events during a command -/

/-- A race changes the raced bytes only: the command runs on a memory that agrees with the one before it outside them, and
memory afterwards agrees with the command's outside them; every register, flag and cursor is the command's. The raced bytes
themselves are free values (`20_memory.md` R73(c); log entry 7). -/
def Obligations.RaceTouchesOnlyTheRacedBytes : Prop :=
  ∀ (s t : State) (v : Word) (racing : List Word) (rest : List HostEvent), Memory.wf s.mem = true →
    s.bus = .racedCmd v racing :: rest → step s = .next t →
    ∃ (m : Memory) (c : Nat) (u : State), (∀ b : Word, b ∉ racing → m.byteAt b.toNat = s.mem.byteAt b.toNat) ∧
      State.writeCmd { s with bus := rest, mem := m, freeCount := c } v = .next u ∧
      (∀ b : Word, b ∉ racing → t.mem.byteAt b.toNat = u.mem.byteAt b.toNat) ∧
      SameRegs u t ∧ SameCursors u t ∧ SameErrorRecord u t ∧ SameControl u t ∧ t.done = u.done ∧ t.busy = u.busy ∧
      t.empty = u.empty

/-- A reset during a command abandons it: every register is as after reset, and of the bytes the command would have stored a
prefix, in its write order, stays written. How long the prefix is, is a free value (`70_reset_and_hazards.md` R280, I16; log
entry 8). -/
def Obligations.AbandonedCommandLeavesAPrefixOfItsWrite : Prop :=
  ∀ (s u : State) (v : Word) (i : Instr) (rest : List HostEvent), Memory.wf s.mem = true →
    s.bus = .abandonedCmd v :: rest → decode v = .instr i →
    State.writeCmd { s with bus := rest } v = .next u →
    ∃ t k, step s = .next t ∧ k ≤ 8 ∧ SameRegs State.reset t ∧ SameCursors State.reset t ∧
      SameErrorRecord State.reset t ∧ SameControl State.reset t ∧ t.done = false ∧ t.busy = false ∧ t.empty = false ∧
      ∀ b : Word, t.mem.byteAt b.toNat =
        if (b - writeBase i s).toNat < k then u.mem.byteAt b.toNat else s.mem.byteAt b.toNat

/-- A host read while a command executes: ID, CTRL, STATUS, FAULT_CMD and FAULT_ADDR answer at once, as before the command but
for BUSY = 1; a data or cursor register answers as after it (`70_reset_and_hazards.md` R286; that STATUS shows BUSY = 1 is
read from R27, log entry 6). The command itself runs as it would without the read. -/
def Obligations.ReadDuringACommandSeesNoHalfState : Prop :=
  ∀ (s u : State) (v : Word) (off : BitVec 12) (rest : List HostEvent), off.toNat % 8 = 0 → s.err = false →
    s.bus = .polledCmd v off :: rest → State.writeCmd { s with bus := rest } v = .next u →
    ∃ x, step s = .next { u with replies := u.replies ++ [x] } ∧
      (off.toNat ∈ [0x000, 0x008, 0x020, 0x028] → x = s.windowRead off) ∧
      (off.toNat = 0x010 → x = s.windowRead off ||| 1#64) ∧
      ((0x100 ≤ off.toNat ∧ off.toNat ≤ 0x178) ∨ (0x200 ≤ off.toNat ∧ off.toNat ≤ 0x278) → x = u.windowRead off)

/-- What the host's store leaves: its bytes at `a`, `a + 1`, … modulo 2^64, every other byte and every register as before. So
each later command sees them (`30_encoding.md` R91 `host.mem`, `20_memory.md` R73(a)). That a store is one event whose
addresses wrap, and that the unit's port does not refuse it, is the model's choice (log entry 14). A list longer than the
address space would wrap onto its own bytes. -/
def Obligations.HostStoreWritesItsBytes : Prop :=
  ∀ (s : State) (a : Word) (bytes : List Byte) (rest : List HostEvent), Memory.wf s.mem = true →
    s.bus = .store a bytes :: rest → bytes.length ≤ 2 ^ 64 →
    ∃ t, step s = .next t ∧
      (∀ b : Word, t.mem.byteAt b.toNat = (bytes[(b - a).toNat]?).getD (s.mem.byteAt b.toNat)) ∧
      SameRegs s t ∧ SameCursors s t ∧ SameErrorRecord s t ∧ SameControl s t ∧ t.done = s.done ∧ t.busy = s.busy ∧
      t.empty = s.empty ∧ SameWorld { s with bus := rest } t
end

