-- ==== Sys2Proof/Laws/State.lean ====
section
/-! SUPPORT. One lemma per field per update of the state, each true by unfolding, so that no proof unfolds an update. -/

namespace Sys2Proof.Machine

variable (s : State)

/-! ### `State.setReg` -/

@[simp] theorem State.setReg_eie (r : Reg) (v : Word) : (s.setReg r v).eie = s.eie := rfl
@[simp] theorem State.setReg_die (r : Reg) (v : Word) : (s.setReg r v).die = s.die := rfl
@[simp] theorem State.setReg_busy (r : Reg) (v : Word) : (s.setReg r v).busy = s.busy := rfl
@[simp] theorem State.setReg_empty (r : Reg) (v : Word) : (s.setReg r v).empty = s.empty := rfl
@[simp] theorem State.setReg_err (r : Reg) (v : Word) : (s.setReg r v).err = s.err := rfl
@[simp] theorem State.setReg_done (r : Reg) (v : Word) : (s.setReg r v).done = s.done := rfl
@[simp] theorem State.setReg_ecode (r : Reg) (v : Word) : (s.setReg r v).ecode = s.ecode := rfl
@[simp] theorem State.setReg_faultCmd (r : Reg) (v : Word) : (s.setReg r v).faultCmd = s.faultCmd := rfl
@[simp] theorem State.setReg_faultAddr (r : Reg) (v : Word) : (s.setReg r v).faultAddr = s.faultAddr := rfl
@[simp] theorem State.setReg_br (r : Reg) (v : Word) : (s.setReg r v).br = s.br := rfl
@[simp] theorem State.setReg_bw (r : Reg) (v : Word) : (s.setReg r v).bw = s.bw := rfl
@[simp] theorem State.setReg_wr (r : Reg) (v : Word) : (s.setReg r v).wr = s.wr := rfl
@[simp] theorem State.setReg_ww (r : Reg) (v : Word) : (s.setReg r v).ww = s.ww := rfl
@[simp] theorem State.setReg_mem (r : Reg) (v : Word) : (s.setReg r v).mem = s.mem := rfl
@[simp] theorem State.setReg_platform (r : Reg) (v : Word) : (s.setReg r v).platform = s.platform := rfl
@[simp] theorem State.setReg_bus (r : Reg) (v : Word) : (s.setReg r v).bus = s.bus := rfl
@[simp] theorem State.setReg_replies (r : Reg) (v : Word) : (s.setReg r v).replies = s.replies := rfl
@[simp] theorem State.setReg_freeCount (r : Reg) (v : Word) : (s.setReg r v).freeCount = s.freeCount := rfl

/-! ### `State.raise` -/

@[simp] theorem State.raise_regs (e : ECode) (cmd info : Word) : (s.raise e cmd info).regs = s.regs := rfl
@[simp] theorem State.raise_eie (e : ECode) (cmd info : Word) : (s.raise e cmd info).eie = s.eie := rfl
@[simp] theorem State.raise_die (e : ECode) (cmd info : Word) : (s.raise e cmd info).die = s.die := rfl
@[simp] theorem State.raise_busy (e : ECode) (cmd info : Word) : (s.raise e cmd info).busy = false := rfl
@[simp] theorem State.raise_empty (e : ECode) (cmd info : Word) : (s.raise e cmd info).empty = s.empty := rfl
@[simp] theorem State.raise_err (e : ECode) (cmd info : Word) : (s.raise e cmd info).err = true := rfl
@[simp] theorem State.raise_done (e : ECode) (cmd info : Word) : (s.raise e cmd info).done = true := rfl
@[simp] theorem State.raise_ecode (e : ECode) (cmd info : Word) : (s.raise e cmd info).ecode = e := rfl
@[simp] theorem State.raise_faultCmd (e : ECode) (cmd info : Word) : (s.raise e cmd info).faultCmd = cmd := rfl
@[simp] theorem State.raise_faultAddr (e : ECode) (cmd info : Word) : (s.raise e cmd info).faultAddr = if e = .memfault then info else 0#64 := rfl
@[simp] theorem State.raise_br (e : ECode) (cmd info : Word) : (s.raise e cmd info).br = s.br := rfl
@[simp] theorem State.raise_bw (e : ECode) (cmd info : Word) : (s.raise e cmd info).bw = s.bw := rfl
@[simp] theorem State.raise_wr (e : ECode) (cmd info : Word) : (s.raise e cmd info).wr = s.wr := rfl
@[simp] theorem State.raise_ww (e : ECode) (cmd info : Word) : (s.raise e cmd info).ww = s.ww := rfl
@[simp] theorem State.raise_mem (e : ECode) (cmd info : Word) : (s.raise e cmd info).mem = s.mem := rfl
@[simp] theorem State.raise_platform (e : ECode) (cmd info : Word) : (s.raise e cmd info).platform = s.platform := rfl
@[simp] theorem State.raise_bus (e : ECode) (cmd info : Word) : (s.raise e cmd info).bus = s.bus := rfl
@[simp] theorem State.raise_replies (e : ECode) (cmd info : Word) : (s.raise e cmd info).replies = s.replies := rfl
@[simp] theorem State.raise_freeCount (e : ECode) (cmd info : Word) : (s.raise e cmd info).freeCount = s.freeCount := rfl

/-! ### `State.raiseFor` -/

@[simp] theorem State.raiseFor_regs (i : Instr) (e : ECode) (info : Word) : (s.raiseFor i e info).regs = s.regs := rfl
@[simp] theorem State.raiseFor_eie (i : Instr) (e : ECode) (info : Word) : (s.raiseFor i e info).eie = s.eie := rfl
@[simp] theorem State.raiseFor_die (i : Instr) (e : ECode) (info : Word) : (s.raiseFor i e info).die = s.die := rfl
@[simp] theorem State.raiseFor_busy (i : Instr) (e : ECode) (info : Word) : (s.raiseFor i e info).busy = false := rfl
@[simp] theorem State.raiseFor_empty (i : Instr) (e : ECode) (info : Word) : (s.raiseFor i e info).empty = s.empty := rfl
@[simp] theorem State.raiseFor_err (i : Instr) (e : ECode) (info : Word) : (s.raiseFor i e info).err = true := rfl
@[simp] theorem State.raiseFor_done (i : Instr) (e : ECode) (info : Word) : (s.raiseFor i e info).done = true := rfl
@[simp] theorem State.raiseFor_ecode (i : Instr) (e : ECode) (info : Word) : (s.raiseFor i e info).ecode = e := rfl
@[simp] theorem State.raiseFor_faultCmd (i : Instr) (e : ECode) (info : Word) : (s.raiseFor i e info).faultCmd = cmdValue i := rfl
@[simp] theorem State.raiseFor_faultAddr (i : Instr) (e : ECode) (info : Word) : (s.raiseFor i e info).faultAddr = if e = .memfault then info else 0#64 := rfl
@[simp] theorem State.raiseFor_br (i : Instr) (e : ECode) (info : Word) : (s.raiseFor i e info).br = s.br := rfl
@[simp] theorem State.raiseFor_bw (i : Instr) (e : ECode) (info : Word) : (s.raiseFor i e info).bw = s.bw := rfl
@[simp] theorem State.raiseFor_wr (i : Instr) (e : ECode) (info : Word) : (s.raiseFor i e info).wr = s.wr := rfl
@[simp] theorem State.raiseFor_ww (i : Instr) (e : ECode) (info : Word) : (s.raiseFor i e info).ww = s.ww := rfl
@[simp] theorem State.raiseFor_mem (i : Instr) (e : ECode) (info : Word) : (s.raiseFor i e info).mem = s.mem := rfl
@[simp] theorem State.raiseFor_platform (i : Instr) (e : ECode) (info : Word) : (s.raiseFor i e info).platform = s.platform := rfl
@[simp] theorem State.raiseFor_bus (i : Instr) (e : ECode) (info : Word) : (s.raiseFor i e info).bus = s.bus := rfl
@[simp] theorem State.raiseFor_replies (i : Instr) (e : ECode) (info : Word) : (s.raiseFor i e info).replies = s.replies := rfl
@[simp] theorem State.raiseFor_freeCount (i : Instr) (e : ECode) (info : Word) : (s.raiseFor i e info).freeCount = s.freeCount := rfl

/-! ### `State.clearError` -/

@[simp] theorem State.clearError_regs : (s.clearError).regs = s.regs := rfl
@[simp] theorem State.clearError_eie : (s.clearError).eie = s.eie := rfl
@[simp] theorem State.clearError_die : (s.clearError).die = s.die := rfl
@[simp] theorem State.clearError_busy : (s.clearError).busy = s.busy := rfl
@[simp] theorem State.clearError_empty : (s.clearError).empty = s.empty := rfl
@[simp] theorem State.clearError_err : (s.clearError).err = false := rfl
@[simp] theorem State.clearError_done : (s.clearError).done = s.done := rfl
@[simp] theorem State.clearError_ecode : (s.clearError).ecode = .none := rfl
@[simp] theorem State.clearError_faultCmd : (s.clearError).faultCmd = 0#64 := rfl
@[simp] theorem State.clearError_faultAddr : (s.clearError).faultAddr = 0#64 := rfl
@[simp] theorem State.clearError_br : (s.clearError).br = s.br := rfl
@[simp] theorem State.clearError_bw : (s.clearError).bw = s.bw := rfl
@[simp] theorem State.clearError_wr : (s.clearError).wr = s.wr := rfl
@[simp] theorem State.clearError_ww : (s.clearError).ww = s.ww := rfl
@[simp] theorem State.clearError_mem : (s.clearError).mem = s.mem := rfl
@[simp] theorem State.clearError_platform : (s.clearError).platform = s.platform := rfl
@[simp] theorem State.clearError_bus : (s.clearError).bus = s.bus := rfl
@[simp] theorem State.clearError_replies : (s.clearError).replies = s.replies := rfl
@[simp] theorem State.clearError_freeCount : (s.clearError).freeCount = s.freeCount := rfl

/-! ### `State.clearDone` -/

@[simp] theorem State.clearDone_regs : (s.clearDone).regs = s.regs := rfl
@[simp] theorem State.clearDone_eie : (s.clearDone).eie = s.eie := rfl
@[simp] theorem State.clearDone_die : (s.clearDone).die = s.die := rfl
@[simp] theorem State.clearDone_busy : (s.clearDone).busy = s.busy := rfl
@[simp] theorem State.clearDone_empty : (s.clearDone).empty = s.empty := rfl
@[simp] theorem State.clearDone_err : (s.clearDone).err = s.err := rfl
@[simp] theorem State.clearDone_done : (s.clearDone).done = false := rfl
@[simp] theorem State.clearDone_ecode : (s.clearDone).ecode = s.ecode := rfl
@[simp] theorem State.clearDone_faultCmd : (s.clearDone).faultCmd = s.faultCmd := rfl
@[simp] theorem State.clearDone_faultAddr : (s.clearDone).faultAddr = s.faultAddr := rfl
@[simp] theorem State.clearDone_br : (s.clearDone).br = s.br := rfl
@[simp] theorem State.clearDone_bw : (s.clearDone).bw = s.bw := rfl
@[simp] theorem State.clearDone_wr : (s.clearDone).wr = s.wr := rfl
@[simp] theorem State.clearDone_ww : (s.clearDone).ww = s.ww := rfl
@[simp] theorem State.clearDone_mem : (s.clearDone).mem = s.mem := rfl
@[simp] theorem State.clearDone_platform : (s.clearDone).platform = s.platform := rfl
@[simp] theorem State.clearDone_bus : (s.clearDone).bus = s.bus := rfl
@[simp] theorem State.clearDone_replies : (s.clearDone).replies = s.replies := rfl
@[simp] theorem State.clearDone_freeCount : (s.clearDone).freeCount = s.freeCount := rfl

/-! ### `State.complete` -/

@[simp] theorem State.complete_regs : (s.complete).regs = s.regs := rfl
@[simp] theorem State.complete_eie : (s.complete).eie = s.eie := rfl
@[simp] theorem State.complete_die : (s.complete).die = s.die := rfl
@[simp] theorem State.complete_busy : (s.complete).busy = false := rfl
@[simp] theorem State.complete_empty : (s.complete).empty = s.empty := rfl
@[simp] theorem State.complete_err : (s.complete).err = s.err := rfl
@[simp] theorem State.complete_done : (s.complete).done = true := rfl
@[simp] theorem State.complete_ecode : (s.complete).ecode = s.ecode := rfl
@[simp] theorem State.complete_faultCmd : (s.complete).faultCmd = s.faultCmd := rfl
@[simp] theorem State.complete_faultAddr : (s.complete).faultAddr = s.faultAddr := rfl
@[simp] theorem State.complete_br : (s.complete).br = s.br := rfl
@[simp] theorem State.complete_bw : (s.complete).bw = s.bw := rfl
@[simp] theorem State.complete_wr : (s.complete).wr = s.wr := rfl
@[simp] theorem State.complete_ww : (s.complete).ww = s.ww := rfl
@[simp] theorem State.complete_mem : (s.complete).mem = s.mem := rfl
@[simp] theorem State.complete_platform : (s.complete).platform = s.platform := rfl
@[simp] theorem State.complete_bus : (s.complete).bus = s.bus := rfl
@[simp] theorem State.complete_replies : (s.complete).replies = s.replies := rfl
@[simp] theorem State.complete_freeCount : (s.complete).freeCount = s.freeCount := rfl

/-! ### `State.finish` -/

@[simp] theorem State.finish_regs (rd : Reg) (v : Word) : (s.finish rd v).regs = (s.setReg rd v).regs := rfl
@[simp] theorem State.finish_eie (rd : Reg) (v : Word) : (s.finish rd v).eie = s.eie := rfl
@[simp] theorem State.finish_die (rd : Reg) (v : Word) : (s.finish rd v).die = s.die := rfl
@[simp] theorem State.finish_busy (rd : Reg) (v : Word) : (s.finish rd v).busy = false := rfl
@[simp] theorem State.finish_empty (rd : Reg) (v : Word) : (s.finish rd v).empty = s.empty := rfl
@[simp] theorem State.finish_err (rd : Reg) (v : Word) : (s.finish rd v).err = s.err := rfl
@[simp] theorem State.finish_done (rd : Reg) (v : Word) : (s.finish rd v).done = true := rfl
@[simp] theorem State.finish_ecode (rd : Reg) (v : Word) : (s.finish rd v).ecode = s.ecode := rfl
@[simp] theorem State.finish_faultCmd (rd : Reg) (v : Word) : (s.finish rd v).faultCmd = s.faultCmd := rfl
@[simp] theorem State.finish_faultAddr (rd : Reg) (v : Word) : (s.finish rd v).faultAddr = s.faultAddr := rfl
@[simp] theorem State.finish_br (rd : Reg) (v : Word) : (s.finish rd v).br = s.br := rfl
@[simp] theorem State.finish_bw (rd : Reg) (v : Word) : (s.finish rd v).bw = s.bw := rfl
@[simp] theorem State.finish_wr (rd : Reg) (v : Word) : (s.finish rd v).wr = s.wr := rfl
@[simp] theorem State.finish_ww (rd : Reg) (v : Word) : (s.finish rd v).ww = s.ww := rfl
@[simp] theorem State.finish_mem (rd : Reg) (v : Word) : (s.finish rd v).mem = s.mem := rfl
@[simp] theorem State.finish_platform (rd : Reg) (v : Word) : (s.finish rd v).platform = s.platform := rfl
@[simp] theorem State.finish_bus (rd : Reg) (v : Word) : (s.finish rd v).bus = s.bus := rfl
@[simp] theorem State.finish_replies (rd : Reg) (v : Word) : (s.finish rd v).replies = s.replies := rfl
@[simp] theorem State.finish_freeCount (rd : Reg) (v : Word) : (s.finish rd v).freeCount = s.freeCount := rfl

/-! ### `State.accept` -/

@[simp] theorem State.accept_regs : (s.accept).regs = s.regs := rfl
@[simp] theorem State.accept_eie : (s.accept).eie = s.eie := rfl
@[simp] theorem State.accept_die : (s.accept).die = s.die := rfl
@[simp] theorem State.accept_busy : (s.accept).busy = true := rfl
@[simp] theorem State.accept_empty : (s.accept).empty = s.empty := rfl
@[simp] theorem State.accept_err : (s.accept).err = s.err := rfl
@[simp] theorem State.accept_done : (s.accept).done = s.done := rfl
@[simp] theorem State.accept_ecode : (s.accept).ecode = s.ecode := rfl
@[simp] theorem State.accept_faultCmd : (s.accept).faultCmd = s.faultCmd := rfl
@[simp] theorem State.accept_faultAddr : (s.accept).faultAddr = s.faultAddr := rfl
@[simp] theorem State.accept_br : (s.accept).br = s.br := rfl
@[simp] theorem State.accept_bw : (s.accept).bw = s.bw := rfl
@[simp] theorem State.accept_wr : (s.accept).wr = s.wr := rfl
@[simp] theorem State.accept_ww : (s.accept).ww = s.ww := rfl
@[simp] theorem State.accept_mem : (s.accept).mem = s.mem := rfl
@[simp] theorem State.accept_platform : (s.accept).platform = s.platform := rfl
@[simp] theorem State.accept_bus : (s.accept).bus = s.bus := rfl
@[simp] theorem State.accept_replies : (s.accept).replies = s.replies := rfl
@[simp] theorem State.accept_freeCount : (s.accept).freeCount = s.freeCount := rfl

/-! ### `State.reply` -/

@[simp] theorem State.reply_regs (v : Word) : (s.reply v).regs = s.regs := rfl
@[simp] theorem State.reply_eie (v : Word) : (s.reply v).eie = s.eie := rfl
@[simp] theorem State.reply_die (v : Word) : (s.reply v).die = s.die := rfl
@[simp] theorem State.reply_busy (v : Word) : (s.reply v).busy = s.busy := rfl
@[simp] theorem State.reply_empty (v : Word) : (s.reply v).empty = s.empty := rfl
@[simp] theorem State.reply_err (v : Word) : (s.reply v).err = s.err := rfl
@[simp] theorem State.reply_done (v : Word) : (s.reply v).done = s.done := rfl
@[simp] theorem State.reply_ecode (v : Word) : (s.reply v).ecode = s.ecode := rfl
@[simp] theorem State.reply_faultCmd (v : Word) : (s.reply v).faultCmd = s.faultCmd := rfl
@[simp] theorem State.reply_faultAddr (v : Word) : (s.reply v).faultAddr = s.faultAddr := rfl
@[simp] theorem State.reply_br (v : Word) : (s.reply v).br = s.br := rfl
@[simp] theorem State.reply_bw (v : Word) : (s.reply v).bw = s.bw := rfl
@[simp] theorem State.reply_wr (v : Word) : (s.reply v).wr = s.wr := rfl
@[simp] theorem State.reply_ww (v : Word) : (s.reply v).ww = s.ww := rfl
@[simp] theorem State.reply_mem (v : Word) : (s.reply v).mem = s.mem := rfl
@[simp] theorem State.reply_platform (v : Word) : (s.reply v).platform = s.platform := rfl
@[simp] theorem State.reply_bus (v : Word) : (s.reply v).bus = s.bus := rfl
@[simp] theorem State.reply_replies (v : Word) : (s.reply v).replies = s.replies ++ [v] := rfl
@[simp] theorem State.reply_freeCount (v : Word) : (s.reply v).freeCount = s.freeCount := rfl

/-! ### `State.applyReset` -/

@[simp] theorem State.applyReset_regs : (s.applyReset).regs = State.reset.regs := rfl
@[simp] theorem State.applyReset_eie : (s.applyReset).eie = false := rfl
@[simp] theorem State.applyReset_die : (s.applyReset).die = false := rfl
@[simp] theorem State.applyReset_busy : (s.applyReset).busy = false := rfl
@[simp] theorem State.applyReset_empty : (s.applyReset).empty = false := rfl
@[simp] theorem State.applyReset_err : (s.applyReset).err = false := rfl
@[simp] theorem State.applyReset_done : (s.applyReset).done = false := rfl
@[simp] theorem State.applyReset_ecode : (s.applyReset).ecode = .none := rfl
@[simp] theorem State.applyReset_faultCmd : (s.applyReset).faultCmd = 0#64 := rfl
@[simp] theorem State.applyReset_faultAddr : (s.applyReset).faultAddr = 0#64 := rfl
@[simp] theorem State.applyReset_br : (s.applyReset).br = Reader.reset := rfl
@[simp] theorem State.applyReset_bw : (s.applyReset).bw = Writer.reset := rfl
@[simp] theorem State.applyReset_wr : (s.applyReset).wr = Reader.reset := rfl
@[simp] theorem State.applyReset_ww : (s.applyReset).ww = Writer.reset := rfl
@[simp] theorem State.applyReset_mem : (s.applyReset).mem = s.mem := rfl
@[simp] theorem State.applyReset_platform : (s.applyReset).platform = s.platform := rfl
@[simp] theorem State.applyReset_bus : (s.applyReset).bus = s.bus := rfl
@[simp] theorem State.applyReset_replies : (s.applyReset).replies = s.replies := rfl
@[simp] theorem State.applyReset_freeCount : (s.applyReset).freeCount = s.freeCount := rfl

/-! ### Reading a register -/

/-- f0 reads 0 in every state. -/
@[simp] theorem State.getReg_zero : s.getReg 0#4 = 0#64 := rfl

/-- A register read depends on the register file alone. -/
theorem State.getReg_congr (t : State) (h : t.regs = s.regs) (r : Reg) : t.getReg r = s.getReg r := by
  simp only [State.getReg, h]

/-- Reading after a write: the written register has the value, unless it is f0; every other register is kept. -/
theorem State.getReg_setReg (rd : Reg) (v : Word) (r : Reg) :
    (s.setReg rd v).getReg r = if r = rd ∧ r ≠ 0#4 then v else s.getReg r := by
  by_cases h0 : r = 0#4
  · subst h0; simp
  · by_cases hd : rd = 0#4
    · subst hd
      simp [State.getReg, State.setReg, h0]
    · have hne : rd.toNat ≠ 0 := fun h => hd (BitVec.eq_of_toNat_eq (by simpa using h))
      have hne' : r.toNat ≠ 0 := fun h => h0 (BitVec.eq_of_toNat_eq (by simpa using h))
      by_cases hr : r = rd
      · subst hr; simp [State.getReg, State.setReg, h0]
      · have : rd.toNat - 1 ≠ r.toNat - 1 := by
          intro h; exact hr (BitVec.eq_of_toNat_eq (by omega))
        simp [State.getReg, State.setReg, h0, hd, hr, this]

@[simp] theorem State.getReg_raise (e : ECode) (cmd info : Word) (r : Reg) : (s.raise e cmd info).getReg r = s.getReg r := rfl
@[simp] theorem State.getReg_raiseFor (i : Instr) (e : ECode) (info : Word) (r : Reg) : (s.raiseFor i e info).getReg r = s.getReg r := rfl
@[simp] theorem State.getReg_clearError (r : Reg) : (s.clearError).getReg r = s.getReg r := rfl
@[simp] theorem State.getReg_clearDone (r : Reg) : (s.clearDone).getReg r = s.getReg r := rfl
@[simp] theorem State.getReg_complete (r : Reg) : (s.complete).getReg r = s.getReg r := rfl
@[simp] theorem State.getReg_accept (r : Reg) : (s.accept).getReg r = s.getReg r := rfl
@[simp] theorem State.getReg_reply (v : Word) (r : Reg) : (s.reply v).getReg r = s.getReg r := rfl

/-- Reading a register after a command wrote its result. -/
theorem State.getReg_finish (rd : Reg) (v : Word) (r : Reg) :
    (s.finish rd v).getReg r = if r = rd ∧ r ≠ 0#4 then v else s.getReg r :=
  s.getReg_setReg rd v r

/-- Every data register reads 0 after reset (R46). -/
theorem State.getReg_reset (r : Reg) : State.reset.getReg r = 0#64 := by
  simp [State.getReg, State.reset]

end Sys2Proof.Machine
end

