-- ==== Sys2Proof/Laws/Arith.lean ====
section
/-! SUPPORT. The masks, shifts and ORs of the datapaths as exact arithmetic. -/

namespace Sys2Proof.Machine

open Sys2Proof.Safety

/-- Masking with p keeps the low 61 bits. -/
theorem toNat_and_modulus (x : Word) : (x &&& modulus).toNat = x.toNat % 2 ^ 61 := by
  have h : modulus.toNat = 2 ^ 61 - 1 := by decide
  rw [BitVec.toNat_and, h, Nat.and_two_pow_sub_one_eq_mod]

/-- Masking with M60 keeps the low 60 bits. -/
theorem toNat_and_placeholder (x : Word) : (x &&& placeholder).toNat = x.toNat % 2 ^ 60 := by
  have h : placeholder.toNat = 2 ^ 60 - 1 := by decide
  rw [BitVec.toNat_and, h, Nat.and_two_pow_sub_one_eq_mod]

/-- The ambiguity test as arithmetic (R13). -/
theorem and_placeholder_eq_iff (x : Word) : x &&& placeholder = placeholder ↔ Ambiguous x.toNat := by
  rw [← BitVec.toNat_inj, toNat_and_placeholder]
  exact Iff.rfl

/-- OR of a value below 2^k and a shifted one is their sum, modulo the word. -/
theorem toNat_or_shiftLeft {x y : Word} {k : Nat} (hx : x.toNat < 2 ^ k) :
    (x ||| (y <<< k)).toNat = (x.toNat + 2 ^ k * y.toNat) % 2 ^ 64 := by
  have hlt := x.isLt
  rw [BitVec.toNat_or, BitVec.toNat_shiftLeft]
  conv_lhs => rw [← Nat.mod_eq_of_lt hlt, ← Nat.or_mod_two_pow]
  rw [Nat.or_comm, ← Nat.shiftLeft_add_eq_or_of_lt hx, Nat.shiftLeft_eq]
  ring_nf

/-- Dropping bits below the top of a two-part value drops them from the upper part. -/
theorem add_mul_div_pow {x y k n : Nat} (hx : x < 2 ^ k) (hk : k ≤ n) :
    (x + 2 ^ k * y) / 2 ^ n = y / 2 ^ (n - k) := by
  obtain ⟨d, rfl⟩ := Nat.exists_eq_add_of_le hk
  rw [Nat.pow_add, ← Nat.div_div_eq_div_mul, Nat.add_mul_div_left _ _ (Nat.two_pow_pos k), Nat.div_eq_of_lt hx]
  simp

/-- PartialReduce as exact arithmetic (R100). -/
theorem toNat_foldWord (x : Word) : (foldWord x).toNat = x.toNat % 2 ^ 61 + x.toNat / 2 ^ 61 := by
  have := x.isLt
  rw [foldWord, BitVec.toNat_add, toNat_and_modulus, BitVec.toNat_ushiftRight, Nat.shiftRight_eq_div_pow]
  omega

/-- A signed 8-bit register holds every value in its range. -/
theorem toInt_ofInt_eight {i : Int} (hlo : -128 ≤ i) (hhi : i ≤ 127) : (BitVec.ofInt 8 i).toInt = i := by
  rw [BitVec.toInt_ofInt]
  exact Int.bmod_eq_of_le_mul_two (by norm_num; omega) (by norm_num; omega)

end Sys2Proof.Machine
end

