-- ==== Sys2Proof/Laws/Memory.lean ====
section
/-! SUPPORT. What the memory operations do: read after write, and the canonical form. -/

namespace Sys2Proof.Machine

/-- The canonical form of a list with a head: the head's address and byte are proper, lies below all others, and the tail is
canonical. -/
theorem Memory.wf_cons {a : Nat} {v : Byte} {m : Memory} :
    Memory.wf ((a, v) :: m) = true ↔
      a < 2 ^ 64 ∧ v ≠ unlistedByte ∧ (∀ c ∈ m, a < c.1) ∧ Memory.wf m = true := by
  simp [Memory.wf, and_assoc]

/-- An address below every listed one is unlisted. -/
theorem Memory.byteAt_of_lt {m : Memory} {a : Nat} (h : ∀ c ∈ m, a < c.1) : m.byteAt a = unlistedByte := by
  induction m with
  | nil => rfl
  | cons c m ih =>
    obtain ⟨b, u⟩ := c
    have hb : a < b := h (b, u) (by simp)
    simp only [Memory.byteAt, if_neg (Nat.ne_of_lt hb)]
    exact ih fun c hc => h c (List.mem_cons_of_mem _ hc)

/-- Every entry of a memory after a write is an entry of before or the written one. -/
theorem Memory.mem_setByte {m : Memory} {a : Nat} {v : Byte} {c : Host.Cell} (h : c ∈ m.setByte a v) :
    c ∈ m ∨ (c = (a, v) ∧ v ≠ unlistedByte) := by
  induction m with
  | nil =>
    simp only [Memory.setByte] at h
    split at h <;> simp_all
  | cons d m ih =>
    obtain ⟨b, u⟩ := d
    simp only [Memory.setByte] at h
    split_ifs at h <;> simp_all <;> tauto

/-- A write keeps the canonical form. -/
theorem Memory.wf_setByte {m : Memory} {a : Nat} {v : Byte} (hm : m.wf = true) (ha : a < 2 ^ 64) :
    Memory.wf (m.setByte a v) = true := by
  induction m with
  | nil =>
    simp only [Memory.setByte]
    split_ifs with hv
    · rfl
    · exact Memory.wf_cons.2 ⟨ha, hv, by simp, rfl⟩
  | cons c m ih =>
    obtain ⟨b, u⟩ := c
    obtain ⟨hb, hu, hlt, hwf⟩ := Memory.wf_cons.1 hm
    simp only [Memory.setByte]
    split_ifs with hab hv hab' hv
    · exact hm
    · refine Memory.wf_cons.2 ⟨ha, hv, ?_, hm⟩
      simp only [List.mem_cons, forall_eq_or_imp]
      exact ⟨hab, fun c hc => lt_trans hab (hlt c hc)⟩
    · exact hwf
    · subst hab'; exact Memory.wf_cons.2 ⟨ha, hv, hlt, hwf⟩
    · refine Memory.wf_cons.2 ⟨hb, hu, fun c hc => ?_, ih hwf⟩
      rcases Memory.mem_setByte hc with h | ⟨rfl, -⟩
      · exact hlt c h
      · show b < a; omega

/-- Reading a byte after a write: the written byte at the written address, the old byte elsewhere. -/
theorem Memory.byteAt_setByte {m : Memory} (hm : m.wf = true) (a : Nat) (v : Byte) (x : Nat) :
    (m.setByte a v).byteAt x = if x = a then v else m.byteAt x := by
  induction m with
  | nil =>
    simp only [Memory.setByte]
    split_ifs with hv hx <;> simp_all [Memory.byteAt]
  | cons c m ih =>
    obtain ⟨b, u⟩ := c
    obtain ⟨-, -, hlt, hwf⟩ := Memory.wf_cons.1 hm
    have hlow : ∀ y, y < b → Memory.byteAt ((b, u) :: m) y = unlistedByte := fun y hy =>
      Memory.byteAt_of_lt (by
        simp only [List.mem_cons, forall_eq_or_imp]
        exact ⟨hy, fun c hc => lt_trans hy (hlt c hc)⟩)
    simp only [Memory.setByte]
    by_cases hab : a < b
    · by_cases hv : v = unlistedByte
      · rw [if_pos hab, if_pos hv]
        by_cases hx : x = a
        · rw [if_pos hx, hx, hv]; exact hlow a hab
        · rw [if_neg hx]
      · rw [if_pos hab, if_neg hv]; rfl
    · rw [if_neg hab]
      by_cases hab' : a = b
      · subst hab'
        rw [if_pos rfl]
        by_cases hv : v = unlistedByte
        · rw [if_pos hv]
          by_cases hx : x = a
          · rw [if_pos hx, hx, hv]; exact Memory.byteAt_of_lt hlt
          · simp [Memory.byteAt, hx]
        · rw [if_neg hv]
          by_cases hx : x = a <;> simp [Memory.byteAt, hx]
      · rw [if_neg hab']
        simp only [Memory.byteAt, ih hwf]
        by_cases hxb : x = b
        · have : x ≠ a := by omega
          simp [hxb, Ne.symm hab']
        · simp [hxb]

/-- The host's store keeps the canonical form. -/
theorem Memory.wf_storeBytes {m : Memory} {a : Word} {bs : List Byte} (hm : m.wf = true) :
    Memory.wf (m.storeBytes a bs) = true := by
  induction bs generalizing m a with
  | nil => exact hm
  | cons b bs ih => exact ih (Memory.wf_setByte hm a.isLt)

/-- Copying a prefix of another memory keeps the canonical form. -/
theorem Memory.wf_prefixOf {old new : Memory} {a : Word} {k : Nat} (hm : old.wf = true) :
    Memory.wf (old.prefixOf new a k) = true := by
  induction k generalizing old a with
  | zero => exact hm
  | succ k ih => exact ih (Memory.wf_setByte hm a.isLt)

/-- Memory as reset leaves a machine nothing has touched is canonical. -/
theorem Memory.wf_reset : Memory.wf State.reset.mem = true := rfl

end Sys2Proof.Machine
end

