-- ==== Sys2Proof/Laws/Port.lean ====
section
/-! SUPPORT. What MemRead and MemWrite do, once (spec `20_memory.md` R61, R62; `60_exceptions.md` R255). -/

namespace Sys2Proof.Machine

open Sys2Proof.Safety

/-- The port check, by its two parts. -/
theorem Platform.check_eq_none {p : Platform} {k : AccessKind} {a : Word} :
    p.check k a = none ↔ p.memFault a k = false ∧ p.inWindow a = false := by
  unfold Platform.check
  split_ifs with h1 h2 <;> simp_all

/-- A refused byte stops an access with MEMFAULT at it. -/
theorem Platform.check_of_memFault {p : Platform} {k : AccessKind} {a : Word} (h : p.memFault a k = true) :
    p.check k a = some (.memFault a) := by
  simp [Platform.check, h]

/-- A byte of the unit's own window that the port does not refuse stops an access there. -/
theorem Platform.check_of_inWindow {p : Platform} {k : AccessKind} {a : Word} (h : p.memFault a k = false)
    (hw : p.inWindow a = true) : p.check k a = some (.ownWindow a) := by
  simp [Platform.check, h, hw]

theorem add_ofNat_succ (a : Word) (j : Nat) :
    a + BitVec.ofNat 64 (j + 1) = a + 1#64 + BitVec.ofNat 64 j := by
  rw [Nat.add_comm j 1, BitVec.ofNat_add, BitVec.add_assoc]

/-- The number of a buffer of `n` bytes has 8n bits. -/
theorem streamNat_lt (m : Memory) (a : Word) (n : Nat) : streamNat m a n < 256 ^ n := by
  induction n generalizing a with
  | zero => simp [streamNat]
  | succ n ih =>
    have h1 := (m.byteAt a.toNat).isLt
    have h2 := ih (a + 1#64)
    simp only [streamNat, Nat.pow_succ]
    omega

/-- A MemRead the port performs whole answers the bytes assembled little-endian. -/
theorem memRead_value {p : Platform} {m : Memory} {a : Word} {n : Nat} (hn : n ≤ 8)
    (h : ∀ j < n, p.check .read (a + BitVec.ofNat 64 j) = none) :
    ∃ w : Word, memRead p m a n = .value w ∧ w.toNat = streamNat m a n := by
  induction n generalizing a with
  | zero => exact ⟨0#64, rfl, rfl⟩
  | succ n ih =>
    have h0 : p.check .read a = none := by simpa using h 0 (Nat.succ_pos n)
    obtain ⟨w, hw, hv⟩ := ih (a := a + 1#64) (by omega) fun j hj => by
      rw [← add_ofNat_succ]; exact h (j + 1) (by omega)
    refine ⟨(m.byteAt a.toNat).setWidth 64 ||| (w <<< 8), by simp [memRead, h0, hw], ?_⟩
    have hb := (m.byteAt a.toNat).isLt
    have hs := streamNat_lt m (a + 1#64) n
    have hp : (256 : Nat) ^ n ≤ 256 ^ 7 := Nat.pow_le_pow_right (by norm_num) (by omega)
    have hw8 : (w <<< 8).toNat = w.toNat * 2 ^ 8 := by
      rw [BitVec.toNat_shiftLeft, Nat.shiftLeft_eq, Nat.mod_eq_of_lt]
      rw [hv]; norm_num at hp ⊢; omega
    have hbw : ((m.byteAt a.toNat).setWidth 64).toNat = (m.byteAt a.toNat).toNat := by
      rw [BitVec.toNat_setWidth, Nat.mod_eq_of_lt]; omega
    rw [BitVec.toNat_or, hw8, hbw, hv, Nat.or_comm, ← Nat.shiftLeft_eq, ← Nat.shiftLeft_add_eq_or_of_lt hb,
      Nat.shiftLeft_eq]
    simp only [streamNat]; omega

/-- A MemRead stops at the first byte the port does not perform. -/
theorem memRead_stopped {p : Platform} {m : Memory} {a : Word} {n j : Nat} {stop : PortStop} (hj : j < n)
    (h : ∀ i < j, p.check .read (a + BitVec.ofNat 64 i) = none)
    (hs : p.check .read (a + BitVec.ofNat 64 j) = some stop) : memRead p m a n = .stopped stop := by
  induction n generalizing a j with
  | zero => omega
  | succ n ih =>
    cases j with
    | zero =>
      have : p.check .read a = some stop := by simpa using hs
      simp [memRead, this]
    | succ j =>
      have h0 : p.check .read a = none := by simpa using h 0 (Nat.succ_pos j)
      have := ih (a := a + 1#64) (j := j) (by omega)
        (fun i hi => by rw [← add_ofNat_succ]; exact h (i + 1) (by omega)) (by rw [← add_ofNat_succ]; exact hs)
      simp [memRead, h0, this]

/-- Bytes stored at `a` and above, one by one: the byte at `a`, then the rest from `a + 1` on. -/
theorem stored_step {a b : Word} {j : Nat} :
    ((b - a).toNat < j + 1 ↔ b = a ∨ (b - (a + 1#64)).toNat < j) := by
  have hrw : b - (a + 1#64) = (b - a) - 1#64 := by
    rw [sub_add_eq_sub_sub]
  rw [hrw]
  by_cases hb : b = a
  · subst hb; simp
  · have hne : (b - a).toNat ≠ 0 := by
      intro h
      apply hb
      have : b - a = 0#64 := BitVec.eq_of_toNat_eq (by simpa using h)
      have h2 : b = (b - a) + a := by rw [BitVec.sub_add_cancel]
      rw [h2, this]; simp
    have h1 : ((b - a) - 1#64).toNat = (b - a).toNat - 1 := by
      have := (b - a).isLt
      generalize b - a = d at *
      rw [BitVec.toNat_sub]
      simp only [BitVec.toNat_ofNat]
      omega
    rw [h1]
    simp only [hb, false_or]
    omega

/-- What a store of consecutive bytes leaves at each address, no longer than the address space (R91). -/
theorem Memory.byteAt_storeBytes {m : Memory} (hm : m.wf = true) (a : Word) {bs : List Byte} (hlen : bs.length ≤ 2 ^ 64)
    (b : Word) : (m.storeBytes a bs).byteAt b.toNat = (bs[(b - a).toNat]?).getD (m.byteAt b.toNat) := by
  induction bs generalizing m a with
  | nil => simp [Memory.storeBytes]
  | cons v bs ih =>
    simp only [List.length_cons] at hlen
    rw [Memory.storeBytes, ih (Memory.wf_setByte hm a.isLt) (a + 1#64) (by omega), Memory.byteAt_setByte hm]
    by_cases hb : b = a
    · subst hb
      have hlast : (b - (b + 1#64)).toNat = 2 ^ 64 - 1 := by
        rw [sub_add_cancel_left]; decide
      rw [hlast, List.getElem?_eq_none (by omega)]
      simp
    · have hne : b.toNat ≠ a.toNat := fun h => hb (BitVec.eq_of_toNat_eq h)
      have hstep : (b - a).toNat = (b - (a + 1#64)).toNat + 1 := by
        have h1 := stored_step (a := a) (b := b) (j := (b - (a + 1#64)).toNat)
        have h2 := stored_step (a := a) (b := b) (j := (b - (a + 1#64)).toNat + 1)
        simp only [hb, false_or] at h1 h2
        omega
      rw [hstep, List.getElem?_cons_succ, if_neg hne]

/-- What a MemWrite does (R62, R255): it stores the bytes before the first one the port does not perform, least significant
first, leaves every other byte, and keeps the canonical form. -/
theorem memWrite_cases {p : Platform} {m : Memory} (hm : m.wf = true) (a : Word) {n : Nat} (hn : n ≤ 8) (v : Word) :
    ∃ j ≤ n, (∀ i < j, p.check .write (a + BitVec.ofNat 64 i) = none) ∧
      (∀ b : Word, (memWrite p m a n v).1.byteAt b.toNat =
        if (b - a).toNat < j then BitVec.ofNat 8 (v.toNat / 256 ^ (b - a).toNat) else m.byteAt b.toNat) ∧
      (memWrite p m a n v).1.wf = true ∧
      ((j = n ∧ (memWrite p m a n v).2 = none) ∨
        (j < n ∧ ∃ stop, p.check .write (a + BitVec.ofNat 64 j) = some stop ∧ (memWrite p m a n v).2 = some stop)) := by
  induction n generalizing m a v with
  | zero => exact ⟨0, le_refl 0, by simp, by simp [memWrite], hm, .inl ⟨rfl, rfl⟩⟩
  | succ n ih =>
    cases hc : p.check .write a with
    | some stop =>
      refine ⟨0, Nat.zero_le _, by simp, by simp [memWrite, hc], by simpa [memWrite, hc] using hm, .inr ⟨by omega, stop, ?_⟩⟩
      simp [memWrite, hc]
    | none =>
      have hm' : (m.setByte a.toNat (v.setWidth 8)).wf = true := Memory.wf_setByte hm a.isLt
      obtain ⟨j, hj, hall, hbytes, hwf, hend⟩ := ih hm' (a + 1#64) (by omega) (v >>> 8)
      have hw : memWrite p m a (n + 1) v = memWrite p (m.setByte a.toNat (v.setWidth 8)) (a + 1#64) n (v >>> 8) := by
        simp [memWrite, hc]
      refine ⟨j + 1, by omega, ?_, ?_, by rw [hw]; exact hwf, ?_⟩
      · intro i hi
        cases i with
        | zero => simpa using hc
        | succ i => rw [add_ofNat_succ]; exact hall i (by omega)
      · intro b
        rw [hw, hbytes b, Memory.byteAt_setByte hm]
        by_cases hb : b = a
        · subst hb
          have h1 : (b - (b + 1#64)).toNat = 2 ^ 64 - 1 := by
            rw [sub_add_eq_sub_sub]; simp
          rw [if_neg (by rw [h1]; omega)]
          simp
        · have hstep := stored_step (a := a) (b := b) (j := j)
          simp only [hb, false_or] at hstep
          have hne : b.toNat ≠ a.toNat := fun h => hb (BitVec.eq_of_toNat_eq h)
          rw [if_neg hne]
          by_cases hlt : (b - (a + 1#64)).toNat < j
          · rw [if_pos hlt, if_pos (hstep.2 hlt)]
            have hd : (b - a).toNat = (b - (a + 1#64)).toNat + 1 := by
              have hz : ¬ (b - a).toNat < 0 + 1 := fun h => by
                rcases (stored_step (a := a) (b := b) (j := 0)).1 h with h | h
                · exact hb h
                · omega
              have hrw : b - (a + 1#64) = (b - a) - 1#64 := by rw [sub_add_eq_sub_sub]
              rw [hrw]
              generalize b - a = d at *
              have := d.isLt
              rw [BitVec.toNat_sub]; simp only [BitVec.toNat_ofNat]; omega
            rw [hd, Nat.pow_succ, Nat.mul_comm, ← Nat.div_div_eq_div_mul, BitVec.toNat_ushiftRight,
              Nat.shiftRight_eq_div_pow]
          · rw [if_neg hlt, if_neg (fun h => hlt (hstep.1 h))]
      · rw [hw]
        rcases hend with ⟨hjn, hnone⟩ | ⟨hjn, stop, hs, hsome⟩
        · exact .inl ⟨by omega, hnone⟩
        · exact .inr ⟨by omega, stop, by rw [add_ofNat_succ]; exact hs, hsome⟩

/-- A MemWrite the port performs whole is not stopped. -/
theorem memWrite_allowed {p : Platform} {m : Memory} {a : Word} {n : Nat} {v : Word}
    (h : ∀ j < n, p.check .write (a + BitVec.ofNat 64 j) = none) : (memWrite p m a n v).2 = none := by
  induction n generalizing m a v with
  | zero => rfl
  | succ n ih =>
    have h0 : p.check .write a = none := by simpa using h 0 (Nat.succ_pos n)
    simp only [memWrite, h0]
    exact ih fun j hj => by rw [← add_ofNat_succ]; exact h (j + 1) (by omega)

/-- A MemWrite stops at the first byte the port does not perform. -/
theorem memWrite_stopped {p : Platform} {m : Memory} {a : Word} {n j : Nat} {v : Word} {stop : PortStop} (hj : j < n)
    (h : ∀ i < j, p.check .write (a + BitVec.ofNat 64 i) = none)
    (hs : p.check .write (a + BitVec.ofNat 64 j) = some stop) : (memWrite p m a n v).2 = some stop := by
  induction n generalizing m a j v with
  | zero => omega
  | succ n ih =>
    cases j with
    | zero =>
      have : p.check .write a = some stop := by simpa using hs
      simp [memWrite, this]
    | succ j =>
      have h0 : p.check .write a = none := by simpa using h 0 (Nat.succ_pos j)
      simp only [memWrite, h0]
      exact ih (j := j) (by omega) (fun i hi => by rw [← add_ofNat_succ]; exact h (i + 1) (by omega))
        (by rw [← add_ofNat_succ]; exact hs)

end Sys2Proof.Machine
end

