-- ==== Sys2Proof/Laws/Cursor.lean ====
section
/-! SUPPORT. What the shared cursor operations do, once: taking an element from a reader, putting one into a writer, flushing
a writer (spec `42_byte_codec.md` R172, R191, R195; `43_word_codec.md` R222, R239, R242). -/

namespace Sys2Proof.Machine

open Sys2Proof.Safety

/-! ### Readers -/

/-- A reader in its invariant that is not exhausted holds no negative count. -/
theorem readerOk_avail_nonneg {hi : Int} {r : Reader} (h : ReaderOk hi r) (hne : ¬ Exhausted r) : 0 ≤ r.avail.toInt := by
  by_contra hneg
  exact hne ⟨h.2.1 (by omega), by omega⟩

/-- A tighter range of AVAIL is a reader's invariant for a wider one. -/
theorem readerOk_mono {lo hi : Int} {r : Reader} (h : ReaderOk lo r) (hle : lo ≤ hi) : ReaderOk hi r :=
  ⟨h.1, h.2.1, h.2.2.1, le_trans h.2.2.2 hle⟩

/-- An unexhausted reader that must refill reads its chunk. -/
theorem Reader.chunk_eq {r : Reader} (h : r.avail.toInt < 61) : r.chunk = bytesToRead r := by
  have : ¬ 61 ≤ r.avail.toInt := by omega
  simp only [Reader.chunk, bytesToRead, if_neg this]
  split_ifs <;> omega

theorem bytesToRead_le (r : Reader) : bytesToRead r ≤ 8 ∧ bytesToRead r ≤ r.rem.toNat := by
  simp only [bytesToRead]; split_ifs <;> omega

/-- The bits in hand number AVAIL plus eight for each byte read. -/
theorem bitsInHand_lt {hi : Int} {m : Memory} {r : Reader} (h : ReaderOk hi r) :
    bitsInHand m r < 2 ^ (r.avail.toInt.toNat + 8 * bytesToRead r) := by
  have h1 := streamNat_lt m r.addr (bytesToRead r)
  have h2 := h.1
  have h3 : (256 : Nat) ^ bytesToRead r = 2 ^ (8 * bytesToRead r) := by
    rw [show (256 : Nat) = 2 ^ 8 by norm_num, ← Nat.pow_mul]
  rw [h3] at h1
  rw [Nat.pow_add, bitsInHand]
  calc _ < 2 ^ r.avail.toInt.toNat + 2 ^ r.avail.toInt.toNat * streamNat m r.addr (bytesToRead r) := by omega
    _ = 2 ^ r.avail.toInt.toNat * (streamNat m r.addr (bytesToRead r) + 1) := by ring
    _ ≤ _ := Nat.mul_le_mul_left _ h1

/-- An exhausted reader answers so. -/
theorem Reader.pull_exhausted {p : Platform} {m : Memory} {r : Reader} (h : Exhausted r) : r.pull p m = .exhausted := by
  have h1 : ¬ 61 ≤ r.avail.toInt := by have := h.2; omega
  have h2 : r.rem = 0#64 ∧ r.avail.toInt ≤ 0 := h
  simp [Reader.pull, h1, h2]

/-- A read whose refill the port performs gives the 61-bit candidate and leaves the rest of the bits in hand. -/
theorem Reader.pull_element {hi : Int} {p : Platform} {m : Memory} {r : Reader} (h : ReaderOk hi r)
    (hne : ¬ Exhausted r) (hp : ∀ j < bytesToRead r, p.check .read (r.addr + BitVec.ofNat 64 j) = none) :
    ∃ e, r.pull p m = .element e ∧ e.c.toNat = candidate m r ∧ e.ws.toNat = bitsInHand m r / 2 ^ 61 ∧
      e.nav = r.avail.toInt + 8 * (bytesToRead r : Int) - 61 ∧
      e.addr = r.addr + BitVec.ofNat 64 (bytesToRead r) ∧ e.rem.toNat = r.rem.toNat - bytesToRead r := by
  have h0 := readerOk_avail_nonneg h hne
  by_cases hav : 61 ≤ r.avail.toInt
  · have hn : bytesToRead r = 0 := by simp [bytesToRead, hav]
    refine ⟨⟨r.ws &&& modulus, r.ws >>> 61, r.avail.toInt - 61, r.addr, r.rem⟩, by simp [Reader.pull, hav], ?_⟩
    refine ⟨?_, ?_, ?_, ?_, ?_⟩
    · show (r.ws &&& modulus).toNat = _
      rw [toNat_and_modulus]; simp [candidate, bitsInHand, hn, streamNat]
    all_goals simp [bitsInHand, hn, streamNat, Nat.shiftRight_eq_div_pow]
  · have hc : r.chunk = bytesToRead r := Reader.chunk_eq (by omega)
    obtain ⟨hn8, hnr⟩ := bytesToRead_le r
    obtain ⟨w, hw, hwv⟩ := memRead_value (m := m) hn8 hp
    have hne' : ¬ (r.rem = 0#64 ∧ r.avail.toInt ≤ 0) := hne
    refine ⟨{ c := (r.ws ||| (w <<< r.avail.toInt.toNat)) &&& modulus
              ws := w >>> (61 - r.avail.toInt.toNat)
              nav := r.avail.toInt + 8 * (bytesToRead r : Int) - 61
              addr := r.addr + BitVec.ofNat 64 (bytesToRead r)
              rem := r.rem - BitVec.ofNat 64 (bytesToRead r) },
      by simp only [Reader.pull, if_neg hav, if_neg hne', hc, hw], ?_, ?_, rfl, rfl, ?_⟩
    · simp only [candidate, bitsInHand, toNat_and_modulus, toNat_or_shiftLeft h.1, hwv]
      rw [Nat.mod_mod_of_dvd _ (by norm_num)]
    · simp only [bitsInHand, BitVec.toNat_ushiftRight, Nat.shiftRight_eq_div_pow, hwv]
      rw [add_mul_div_pow h.1 (by omega)]
    · have := r.rem.isLt
      rw [BitVec.toNat_sub, BitVec.toNat_ofNat]
      omega

/-- A read stops where the port does not perform a byte of its refill. -/
theorem Reader.pull_stopped {p : Platform} {m : Memory} {r : Reader} {j : Nat} {stop : PortStop}
    (hne : ¬ Exhausted r) (hj : j < bytesToRead r)
    (hp : ∀ i < j, p.check .read (r.addr + BitVec.ofNat 64 i) = none)
    (hs : p.check .read (r.addr + BitVec.ofNat 64 j) = some stop) : r.pull p m = .stopped stop := by
  have hav : ¬ 61 ≤ r.avail.toInt := fun h => by simp [bytesToRead, h] at hj
  have hc : r.chunk = bytesToRead r := Reader.chunk_eq (by omega)
  have hne' : ¬ (r.rem = 0#64 ∧ r.avail.toInt ≤ 0) := hne
  simp only [Reader.pull, if_neg hav, if_neg hne', hc, memRead_stopped hj hp hs]

/-- Everything a reader can answer (R172, R222): exhausted, stopped by the port, or an element as `pull_element` says. -/
theorem Reader.pull_cases {hi : Int} (p : Platform) (m : Memory) {r : Reader} (h : ReaderOk hi r) :
    (Exhausted r ∧ r.pull p m = .exhausted) ∨
    (¬ Exhausted r ∧ ∃ j < bytesToRead r, ∃ stop, (∀ i < j, p.check .read (r.addr + BitVec.ofNat 64 i) = none) ∧
      p.check .read (r.addr + BitVec.ofNat 64 j) = some stop ∧ r.pull p m = .stopped stop) ∨
    (¬ Exhausted r ∧ ∃ e, r.pull p m = .element e ∧ e.c.toNat = candidate m r ∧ e.ws.toNat = bitsInHand m r / 2 ^ 61 ∧
      e.nav = r.avail.toInt + 8 * (bytesToRead r : Int) - 61 ∧
      e.addr = r.addr + BitVec.ofNat 64 (bytesToRead r) ∧ e.rem.toNat = r.rem.toNat - bytesToRead r) := by
  by_cases hne : Exhausted r
  · exact .inl ⟨hne, Reader.pull_exhausted hne⟩
  by_cases hp : ∀ j < bytesToRead r, p.check .read (r.addr + BitVec.ofNat 64 j) = none
  · exact .inr (.inr ⟨hne, Reader.pull_element h hne hp⟩)
  · have hex : ∃ j, j < bytesToRead r ∧ p.check .read (r.addr + BitVec.ofNat 64 j) ≠ none := by
      push Not at hp; exact hp
    obtain ⟨hj, hst⟩ := Nat.find_spec hex
    have hlow : ∀ i < Nat.find hex, p.check .read (r.addr + BitVec.ofNat 64 i) = none := fun i hi => by
      by_contra hcon
      exact Nat.find_min hex hi ⟨by omega, hcon⟩
    obtain ⟨stop, hstop⟩ := Option.ne_none_iff_exists'.1 hst
    exact .inr (.inl ⟨hne, _, hj, stop, hlow, hstop, Reader.pull_stopped hne hj hlow hstop⟩)

/-- The candidate of a word read commits as R222 says, and the reader's invariant is kept. -/
theorem Reader.after_takes {m : Memory} {r : Reader} {e : Element} (h : ReaderOk 64 r) (hne : ¬ Exhausted r)
    (hws : e.ws.toNat = bitsInHand m r / 2 ^ 61) (hnav : e.nav = r.avail.toInt + 8 * (bytesToRead r : Int) - 61)
    (ha : e.addr = r.addr + BitVec.ofNat 64 (bytesToRead r)) (hr : e.rem.toNat = r.rem.toNat - bytesToRead r) :
    TakesBits m 0 r (r.after e) := by
  have h0 := readerOk_avail_nonneg h hne
  have hn := bytesToRead_le r
  have hlt := h.2.2.2
  refine ⟨rfl, by simpa [Reader.after] using hws, ?_, ha, hr⟩
  simp only [Reader.after, Nat.cast_zero, add_zero, hnav]
  apply toInt_ofInt_eight
  · omega
  · by_cases hav : 61 ≤ r.avail.toInt
    · simp only [bytesToRead, if_pos hav]; omega
    · omega

/-- The candidate of a byte read commits as R172 says: an ambiguous one is emitted as the placeholder and gives one bit
back. -/
theorem Reader.after_resolve_takes {m : Memory} {r : Reader} {e : Element} (h : ReaderOk 64 r) (hne : ¬ Exhausted r)
    (hc : e.c.toNat = candidate m r) (hws : e.ws.toNat = bitsInHand m r / 2 ^ 61)
    (hnav : e.nav = r.avail.toInt + 8 * (bytesToRead r : Int) - 61)
    (ha : e.addr = r.addr + BitVec.ofNat 64 (bytesToRead r)) (hr : e.rem.toNat = r.rem.toNat - bytesToRead r) :
    (Ambiguous (candidate m r) → e.resolve.c.toNat = 2 ^ 60 - 1 ∧ TakesBits m 1 r (r.after e.resolve)) ∧
    (¬ Ambiguous (candidate m r) → e.resolve.c.toNat = candidate m r ∧ TakesBits m 0 r (r.after e.resolve)) := by
  have h0 := readerOk_avail_nonneg h hne
  have hn := bytesToRead_le r
  have hlt := h.2.2.2
  have hbits := bitsInHand_lt (m := m) h
  constructor
  · intro hamb
    have htest : e.c &&& placeholder = placeholder := (and_placeholder_eq_iff e.c).2 (hc ▸ hamb)
    have hres : e.resolve = { e with c := placeholder, ws := (e.ws <<< 1) ||| (e.c >>> 60), nav := e.nav + 1 } := by
      simp [Element.resolve, htest]
    rw [hres]
    refine ⟨show placeholder.toNat = _ by decide, rfl, ?_, ?_, ha, hr⟩
    · have hexp : r.avail.toInt.toNat + 8 * bytesToRead r ≤ 124 := by
        by_cases hav : 61 ≤ r.avail.toInt
        · simp only [bytesToRead, if_pos hav]; omega
        · omega
      have hb : bitsInHand m r < 2 ^ 124 := lt_of_lt_of_le hbits (Nat.pow_le_pow_right (by norm_num) hexp)
      have hc1 : (e.c >>> 60).toNat = candidate m r / 2 ^ 60 := by
        rw [BitVec.toNat_ushiftRight, Nat.shiftRight_eq_div_pow, hc]
      have hc2 : (e.c >>> 60).toNat < 2 ^ 1 := by
        rw [hc1, candidate]; omega
      show ((e.ws <<< 1) ||| (e.c >>> 60)).toNat = _
      rw [BitVec.or_comm, toNat_or_shiftLeft hc2, hc1, hws, candidate]
      norm_num at hb ⊢
      omega
    · simp only [Reader.after, hnav]
      rw [toInt_ofInt_eight]
      · push_cast; rfl
      · omega
      · by_cases hav : 61 ≤ r.avail.toInt
        · simp only [bytesToRead, if_pos hav]; omega
        · omega
  · intro hamb
    have htest : ¬ (e.c &&& placeholder = placeholder) := fun hcon => hamb (hc ▸ (and_placeholder_eq_iff e.c).1 hcon)
    have hres : e.resolve = e := by simp [Element.resolve, htest]
    rw [hres]
    exact ⟨hc, Reader.after_takes h hne hws hnav ha hr⟩

/-- Taking bits keeps the reader's invariant (R176, R226): AVAIL rises by the bit given back at most. -/
theorem readerOk_takes {hi : Int} {m : Memory} {back : Nat} {r r' : Reader} (h : ReaderOk 64 r) (hne : ¬ Exhausted r)
    (hb : back ≤ 1) (ht : TakesBits m back r r') (hhi : 63 + (back : Int) ≤ hi) : ReaderOk hi r' := by
  have h0 := readerOk_avail_nonneg h hne
  have hn := bytesToRead_le r
  have hlt := h.2.2.2
  have hbits := bitsInHand_lt (m := m) h
  obtain ⟨-, hws, hav', -, hrem⟩ := ht
  have hpos : 0 < r.avail.toInt ∨ 0 < bytesToRead r := by
    by_contra hcon
    push Not at hcon
    apply hne
    have hav : ¬ 61 ≤ r.avail.toInt := by omega
    have hz : r.rem.toNat = 0 := by
      have : bytesToRead r = 0 := by omega
      simp only [bytesToRead, if_neg hav] at this
      omega
    exact ⟨BitVec.eq_of_toNat_eq (by simpa using hz), by omega⟩
  refine ⟨?_, ?_, ?_, ?_⟩
  · rw [hws, hav']
    rw [Nat.div_lt_iff_lt_mul (Nat.two_pow_pos _), ← Nat.pow_add]
    exact lt_of_lt_of_le hbits (Nat.pow_le_pow_right (by norm_num) (by omega))
  · intro hneg
    rw [hav'] at hneg
    have hav : ¬ 61 ≤ r.avail.toInt := by omega
    have hmin : bytesToRead r = min 8 r.rem.toNat := by simp only [bytesToRead, if_neg hav]
    exact BitVec.eq_of_toNat_eq (by rw [hrem]; simp; omega)
  · rw [hav']; omega
  · rw [hav']
    by_cases hav : 61 ≤ r.avail.toInt
    · have : bytesToRead r = 0 := by simp only [bytesToRead, if_pos hav]
      omega
    · omega

/-- A reader just bound is in its invariant. -/
theorem readerOk_bind {hi : Int} (hhi : 0 ≤ hi) (base length : Word) : ReaderOk hi (Reader.bind base length) := by
  refine ⟨?_, ?_, ?_, ?_⟩ <;> simp [Reader.bind, hhi]

/-! ### Writers -/

/-- A writer's workspace with an element above it, as one number. -/
theorem Writer.toNat_workspace {w : Writer} (h : WriterOk w) (v : Word) :
    (w.ws ||| (v <<< w.avail.toNat)).toNat = (w.ws.toNat + 2 ^ w.avail.toNat * v.toNat) % 2 ^ 64 :=
  toNat_or_shiftLeft h

/-- Everything a writer can do with an element of `wid` bits (R191, R239): keep it in the workspace, store one full word, or
be stopped by the port with the bytes before the stop stored. -/
theorem Writer.put_cases (p : Platform) {m : Memory} (hm : m.wf = true) {w : Writer} (h : WriterOk w) {v : Word}
    {wid : Nat} (hwid : wid ≤ 61) (hv : v.toNat < 2 ^ wid) :
    (w.avail.toNat + wid < 64 ∧ ∃ w', w.put p m v wid = .stored m w' ∧ WriterOk w' ∧ w'.bound = w.bound ∧
      w'.start = w.start ∧ w'.addr = w.addr ∧ w'.avail.toNat = w.avail.toNat + wid ∧
      w'.ws.toNat = w.ws.toNat + 2 ^ w.avail.toNat * v.toNat) ∨
    (64 ≤ w.avail.toNat + wid ∧ (∀ i < 8, p.check .write (w.addr + BitVec.ofNat 64 i) = none) ∧
      ∃ m' w', w.put p m v wid = .stored m' w' ∧ WriterOk w' ∧ w'.bound = w.bound ∧ w'.start = w.start ∧
      w'.addr = w.addr + 8#64 ∧ w'.avail.toNat = w.avail.toNat + wid - 64 ∧
      w'.ws.toNat = (w.ws.toNat + 2 ^ w.avail.toNat * v.toNat) / 2 ^ 64 ∧ m'.wf = true ∧
      ∀ b : Word, m'.byteAt b.toNat = if (b - w.addr).toNat < 8 then
        BitVec.ofNat 8 ((w.ws.toNat + 2 ^ w.avail.toNat * v.toNat) % 2 ^ 64 / 256 ^ (b - w.addr).toNat)
        else m.byteAt b.toNat) ∨
    (64 ≤ w.avail.toNat + wid ∧ ∃ j < 8, ∃ stop, (∀ i < j, p.check .write (w.addr + BitVec.ofNat 64 i) = none) ∧
      p.check .write (w.addr + BitVec.ofNat 64 j) = some stop ∧
      ∃ m', w.put p m v wid = .stopped m' stop ∧ m'.wf = true ∧
      ∀ b : Word, m'.byteAt b.toNat = if (b - w.addr).toNat < j then
        BitVec.ofNat 8 ((w.ws.toNat + 2 ^ w.avail.toNat * v.toNat) % 2 ^ 64 / 256 ^ (b - w.addr).toNat)
        else m.byteAt b.toNat) := by
  have hold := w.avail.isLt
  have hws : w.ws.toNat < 2 ^ w.avail.toNat := h
  have hsum : w.ws.toNat + 2 ^ w.avail.toNat * v.toNat < 2 ^ (w.avail.toNat + wid) := by
    rw [Nat.pow_add]
    calc _ < 2 ^ w.avail.toNat * (v.toNat + 1) := by rw [Nat.mul_add]; omega
      _ ≤ _ := Nat.mul_le_mul_left _ hv
  by_cases hfull : 64 ≤ w.avail.toNat + wid
  · right
    obtain ⟨j, hj, hall, hbytes, hwf, hend⟩ :=
      memWrite_cases (p := p) hm w.addr (le_refl 8) (w.ws ||| (v <<< w.avail.toNat))
    rw [Writer.toNat_workspace h v] at hbytes
    rcases hend with ⟨rfl, hnone⟩ | ⟨hlt, stop, hstop, hsome⟩
    · left
      have hput : w.put p m v wid = .stored (memWrite p m w.addr 8 (w.ws ||| (v <<< w.avail.toNat))).1
          { w with addr := w.addr + 8#64, ws := v >>> (64 - w.avail.toNat),
                   avail := BitVec.ofNat 6 (w.avail.toNat + wid - 64) } := by
        simp only [Writer.put, if_pos hfull]
        rw [show memWrite p m w.addr 8 (w.ws ||| (v <<< w.avail.toNat)) =
          ((memWrite p m w.addr 8 (w.ws ||| (v <<< w.avail.toNat))).1, none) from Prod.ext rfl hnone]
      have havail : (BitVec.ofNat 6 (w.avail.toNat + wid - 64)).toNat = w.avail.toNat + wid - 64 := by
        rw [BitVec.toNat_ofNat, Nat.mod_eq_of_lt]; norm_num; omega
      have hrest : (v >>> (64 - w.avail.toNat)).toNat = (w.ws.toNat + 2 ^ w.avail.toNat * v.toNat) / 2 ^ 64 := by
        rw [BitVec.toNat_ushiftRight, Nat.shiftRight_eq_div_pow, add_mul_div_pow hws (by omega)]
      refine ⟨hfull, hall, _, _, hput, ?_, rfl, rfl, rfl, havail, hrest, hwf, hbytes⟩
      show (v >>> (64 - w.avail.toNat)).toNat < 2 ^ (BitVec.ofNat 6 (w.avail.toNat + wid - 64)).toNat
      rw [hrest, havail, Nat.div_lt_iff_lt_mul (Nat.two_pow_pos _), ← Nat.pow_add]
      exact lt_of_lt_of_le hsum (Nat.pow_le_pow_right (by norm_num) (by omega))
    · right
      refine ⟨hfull, j, hlt, stop, hall, hstop, (memWrite p m w.addr 8 (w.ws ||| (v <<< w.avail.toNat))).1, ?_, hwf,
        hbytes⟩
      simp only [Writer.put, if_pos hfull]
      rw [show memWrite p m w.addr 8 (w.ws ||| (v <<< w.avail.toNat)) =
        ((memWrite p m w.addr 8 (w.ws ||| (v <<< w.avail.toNat))).1, some stop) from Prod.ext rfl hsome]
  · left
    have havail : (BitVec.ofNat 6 (w.avail.toNat + wid)).toNat = w.avail.toNat + wid := by
      rw [BitVec.toNat_ofNat, Nat.mod_eq_of_lt]; norm_num; omega
    have hle : (2 : Nat) ^ (w.avail.toNat + wid) ≤ 2 ^ 64 := Nat.pow_le_pow_right (by norm_num) (by omega)
    have hval : (w.ws ||| (v <<< w.avail.toNat)).toNat = w.ws.toNat + 2 ^ w.avail.toNat * v.toNat := by
      rw [Writer.toNat_workspace h v, Nat.mod_eq_of_lt (lt_of_lt_of_le hsum hle)]
    refine ⟨by omega, { w with ws := w.ws ||| (v <<< w.avail.toNat), avail := BitVec.ofNat 6 (w.avail.toNat + wid) },
      by simp only [Writer.put, if_neg hfull], ?_, rfl, rfl, rfl, havail, hval⟩
    show (w.ws ||| (v <<< w.avail.toNat)).toNat < 2 ^ (BitVec.ofNat 6 (w.avail.toNat + wid)).toNat
    rw [hval, havail]; exact hsum

/-- Everything a flush can do (R195, R242): store the pending bytes and unbind, or be stopped by the port with the bytes
before the stop stored. -/
theorem Writer.flush_cases (p : Platform) {m : Memory} (hm : m.wf = true) (w : Writer) :
    ((∀ i < w.pendingBytes, p.check .write (w.addr + BitVec.ofNat 64 i) = none) ∧
      ∃ m', w.flush p m = .stored m' { w with bound := false, addr := w.addr + BitVec.ofNat 64 w.pendingBytes,
                                              ws := 0#64, avail := 0#6 } ∧ m'.wf = true ∧
      ∀ b : Word, m'.byteAt b.toNat = if (b - w.addr).toNat < w.pendingBytes then
        BitVec.ofNat 8 (w.ws.toNat / 256 ^ (b - w.addr).toNat) else m.byteAt b.toNat) ∨
    (∃ j < w.pendingBytes, ∃ stop, (∀ i < j, p.check .write (w.addr + BitVec.ofNat 64 i) = none) ∧
      p.check .write (w.addr + BitVec.ofNat 64 j) = some stop ∧
      ∃ m', w.flush p m = .stopped m' stop ∧ m'.wf = true ∧
      ∀ b : Word, m'.byteAt b.toNat = if (b - w.addr).toNat < j then
        BitVec.ofNat 8 (w.ws.toNat / 256 ^ (b - w.addr).toNat) else m.byteAt b.toNat) := by
  have hn : w.pendingBytes ≤ 8 := by
    have := w.avail.isLt
    simp only [Writer.pendingBytes]; omega
  obtain ⟨j, hj, hall, hbytes, hwf, hend⟩ := memWrite_cases (p := p) hm w.addr hn w.ws
  rcases hend with ⟨rfl, hnone⟩ | ⟨hlt, stop, hstop, hsome⟩
  · left
    refine ⟨hall, (memWrite p m w.addr w.pendingBytes w.ws).1, ?_, hwf, hbytes⟩
    simp only [Writer.flush]
    rw [show memWrite p m w.addr w.pendingBytes w.ws = ((memWrite p m w.addr w.pendingBytes w.ws).1, none)
      from Prod.ext rfl hnone]
  · right
    refine ⟨j, hlt, stop, hall, hstop, (memWrite p m w.addr w.pendingBytes w.ws).1, ?_, hwf, hbytes⟩
    simp only [Writer.flush]
    rw [show memWrite p m w.addr w.pendingBytes w.ws = ((memWrite p m w.addr w.pendingBytes w.ws).1, some stop)
      from Prod.ext rfl hsome]

/-- A writer just bound is in its invariant. -/
theorem writerOk_bind (base : Word) : WriterOk (Writer.bind base) := by
  simp [WriterOk, Writer.bind]

end Sys2Proof.Machine
end

