-- ==== Sys2Proof/Laws/Decode.lean ====
section
/-! SUPPORT. The fields of a command word: every word is its seven fields, side by side (spec `30_encoding.md` R80). -/

namespace Sys2Proof

/-- A command word from all seven fields. -/
def allFields (opc : BitVec 6) (rd rs1 rs2 rs3 rs4 : Reg) (rsv : BitVec 6) : CmdWord :=
  opc ++ rd ++ rs1 ++ rs2 ++ rs3 ++ rs4 ++ rsv

/-- `packFields` is the word whose RSV is zero. -/
theorem packFields_eq (opc : BitVec 6) (rd rs1 rs2 rs3 rs4 : Reg) :
    packFields opc rd rs1 rs2 rs3 rs4 = allFields opc rd rs1 rs2 rs3 rs4 0#6 := rfl

theorem toNat_allFields (opc : BitVec 6) (rd rs1 rs2 rs3 rs4 : Reg) (rsv : BitVec 6) :
    (allFields opc rd rs1 rs2 rs3 rs4 rsv).toNat = opc.toNat * 2 ^ 26 + rd.toNat * 2 ^ 22 + rs1.toNat * 2 ^ 18 +
      rs2.toNat * 2 ^ 14 + rs3.toNat * 2 ^ 10 + rs4.toNat * 2 ^ 6 + rsv.toNat := by
  have h1 := rd.isLt
  have h2 := rs1.isLt
  have h3 := rs2.isLt
  have h4 := rs3.isLt
  have h5 := rs4.isLt
  have h6 := rsv.isLt
  simp only [allFields, BitVec.toNat_append]
  rw [← Nat.shiftLeft_add_eq_or_of_lt h6, ← Nat.shiftLeft_add_eq_or_of_lt h5, ← Nat.shiftLeft_add_eq_or_of_lt h4,
    ← Nat.shiftLeft_add_eq_or_of_lt h3, ← Nat.shiftLeft_add_eq_or_of_lt h2, ← Nat.shiftLeft_add_eq_or_of_lt h1]
  simp only [Nat.shiftLeft_eq]
  ring

/-- Reading a field back from a word laid out by R80. -/
theorem fields_allFields (opc : BitVec 6) (rd rs1 rs2 rs3 rs4 : Reg) (rsv : BitVec 6) :
    opcOf (allFields opc rd rs1 rs2 rs3 rs4 rsv) = opc ∧ rdOf (allFields opc rd rs1 rs2 rs3 rs4 rsv) = rd ∧
    rs1Of (allFields opc rd rs1 rs2 rs3 rs4 rsv) = rs1 ∧ rs2Of (allFields opc rd rs1 rs2 rs3 rs4 rsv) = rs2 ∧
    rs3Of (allFields opc rd rs1 rs2 rs3 rs4 rsv) = rs3 ∧ rs4Of (allFields opc rd rs1 rs2 rs3 rs4 rsv) = rs4 ∧
    rsvOf (allFields opc rd rs1 rs2 rs3 rs4 rsv) = rsv := by
  have h := toNat_allFields opc rd rs1 rs2 rs3 rs4 rsv
  have h0 := opc.isLt
  have h1 := rd.isLt
  have h2 := rs1.isLt
  have h3 := rs2.isLt
  have h4 := rs3.isLt
  have h5 := rs4.isLt
  have h6 := rsv.isLt
  refine ⟨?_, ?_, ?_, ?_, ?_, ?_, ?_⟩ <;> apply BitVec.eq_of_toNat_eq <;>
    simp only [opcOf, rdOf, rs1Of, rs2Of, rs3Of, rs4Of, rsvOf, BitVec.extractLsb'_toNat, Nat.shiftRight_eq_div_pow, h] <;>
    omega

/-- Every command word is its fields. -/
theorem eq_allFields (c : CmdWord) :
    c = allFields (opcOf c) (rdOf c) (rs1Of c) (rs2Of c) (rs3Of c) (rs4Of c) (rsvOf c) := by
  apply BitVec.eq_of_toNat_eq
  have hc := c.isLt
  rw [toNat_allFields]
  simp only [opcOf, rdOf, rs1Of, rs2Of, rs3Of, rs4Of, rsvOf, BitVec.extractLsb'_toNat, Nat.shiftRight_eq_div_pow]
  omega

/-- Two words are equal exactly when their fields are. -/
theorem allFields_inj {o o' : BitVec 6} {a a' b b' c c' d d' e e' : Reg} {r r' : BitVec 6} :
    allFields o a b c d e r = allFields o' a' b' c' d' e' r' ↔
      o = o' ∧ a = a' ∧ b = b' ∧ c = c' ∧ d = d' ∧ e = e' ∧ r = r' := by
  constructor
  · intro h
    have h1 := fields_allFields o a b c d e r
    have h2 := fields_allFields o' a' b' c' d' e' r'
    rw [h] at h1
    exact ⟨h1.1.symm.trans h2.1, h1.2.1.symm.trans h2.2.1, h1.2.2.1.symm.trans h2.2.2.1,
      h1.2.2.2.1.symm.trans h2.2.2.2.1, h1.2.2.2.2.1.symm.trans h2.2.2.2.2.1,
      h1.2.2.2.2.2.1.symm.trans h2.2.2.2.2.2.1, h1.2.2.2.2.2.2.symm.trans h2.2.2.2.2.2.2⟩
  · rintro ⟨rfl, rfl, rfl, rfl, rfl, rfl, rfl⟩; rfl

/-- Masking acts on each part of a concatenation. -/
theorem append_and_append {m n : Nat} (x x' : BitVec m) (y y' : BitVec n) :
    (x ++ y) &&& (x' ++ y') = (x &&& x') ++ (y &&& y') := by
  ext i hi
  simp only [BitVec.getElem_and, BitVec.getElem_append]
  split <;> simp

/-- Masking acts field by field. -/
theorem allFields_and (o o' : BitVec 6) (a a' b b' c c' d d' e e' : Reg) (r r' : BitVec 6) :
    allFields o a b c d e r &&& allFields o' a' b' c' d' e' r' =
      allFields (o &&& o') (a &&& a') (b &&& b') (c &&& c') (d &&& d') (e &&& e') (r &&& r') := by
  refine (append_and_append (o ++ a ++ b ++ c ++ d ++ e) (o' ++ a' ++ b' ++ c' ++ d' ++ e') r r').trans ?_
  simp only [append_and_append, allFields]

/-- Decoding the zero-extension of a command word is decoding the word: its upper half is zero (R81). -/
theorem decode_setWidth (c : CmdWord) : decode (c.setWidth 64) = decodeWord c := by
  have h : (c.setWidth 64).extractLsb' 32 32 = 0#32 := by
    apply BitVec.eq_of_toNat_eq
    have := c.isLt
    simp [BitVec.extractLsb'_toNat, Nat.shiftRight_eq_div_pow]
    omega
  rw [decode, if_neg (by rw [h]; simp)]
  congr 1
  apply BitVec.eq_of_toNat_eq
  simp

end Sys2Proof
end

