-- ==== Sys2Proof/Laws/Exec.lean ====
section
/-! SUPPORT. Every way a command can answer a next state, once: an error, or a completion (spec `60_exceptions.md` R252,
`10_state.md` R30, R42). Provers cite it instead of unfolding `exec`. -/

namespace Sys2Proof.Machine

open Sys2Proof.Safety

/-- The commands that store bytes (spec `20_memory.md` R60). -/
def storesBytes (i : Instr) : Bool := usesBw i || usesWw i

/-- The commands whose port accesses are reads store nothing. -/
theorem portKind_eq_read {i : Instr} : portKind i = .read ↔ storesBytes i = false := by
  cases h : storesBytes i <;> simp_all [portKind, storesBytes]

/-- A command raised error `e` on a memory `m`, which is the one before it unless a writer's store was cut short. -/
def EndsInError (i : Instr) (s t : State) : Prop :=
  ∃ m e info, t = ({ s with mem := m }).raiseFor i e info ∧ mayRaise i e = true ∧ (e ≠ .memfault → info = 0#64) ∧
    (storesBytes i = false ∨ e ≠ .memfault → m = s.mem)

/-- A command completed: it wrote `v` to `rd` (f0 where it has no destination), and only what it uses of the rest. -/
def EndsWell (i : Instr) (s t : State) : Prop :=
  ∃ br bw wr ww empty m rd v,
    t = ({ s with br := br, bw := bw, wr := wr, ww := ww, empty := empty, mem := m }).finish rd v ∧
    (usesBr i = false → br = s.br) ∧ (usesBw i = false → bw = s.bw) ∧ (usesWr i = false → wr = s.wr) ∧
    (usesWw i = false → ww = s.ww) ∧ ((∀ r, i ≠ .brread r) → empty = s.empty) ∧ (storesBytes i = false → m = s.mem)

theorem endsInError_raise {i : Instr} {s : State} {e : ECode} (he : mayRaise i e = true) :
    EndsInError i s (s.raiseFor i e 0#64) :=
  ⟨s.mem, e, 0#64, rfl, he, fun _ => rfl, fun _ => rfl⟩

theorem endsInError_port {i : Instr} {s t : State} {m : Memory} {stop : PortStop} (he : mayRaise i .memfault = true)
    (hm : storesBytes i = false → m = s.mem) (h : ({ s with mem := m }).portStop i stop = .next t) :
    EndsInError i s t := by
  cases stop with
  | memFault a =>
    injection h with h
    exact ⟨m, .memfault, a, h.symm, he, fun h => absurd rfl h, fun h => h.elim hm (fun h => absurd rfl h)⟩
  | ownWindow a => cases h

/-- A command that only writes a register. -/
theorem endsWell_finish {i : Instr} {s : State} {rd : Reg} {v : Word} : EndsWell i s (s.finish rd v) :=
  ⟨s.br, s.bw, s.wr, s.ww, s.empty, s.mem, rd, v, rfl, fun _ => rfl, fun _ => rfl, fun _ => rfl, fun _ => rfl,
    fun _ => rfl, fun _ => rfl⟩

/-- Completing with no destination is finishing into f0. -/
theorem complete_eq_finish (s : State) : s.complete = s.finish 0#4 0#64 := rfl

/-- Every way a command can answer a next state. -/
theorem exec_cases {i : Instr} {s t : State} (h : exec i s = .next t) : EndsInError i s t ∨ EndsWell i s t := by
  cases i with
  | pred rd rs1 => injection h with h; exact .inr (h ▸ endsWell_finish)
  | fin rd rs1 =>
    simp only [exec, execFin] at h
    split at h <;> injection h with h
    · exact .inr (h ▸ endsWell_finish)
    · exact .inl (h ▸ endsInError_raise rfl)
  | add4 rd rs1 rs2 rs3 rs4 =>
    simp only [exec, execAdd4] at h
    split at h <;> injection h with h
    · exact .inr (h ▸ endsWell_finish)
    · exact .inl (h ▸ endsInError_raise rfl)
  | neg rd rs1 =>
    simp only [exec, execNeg] at h
    split at h <;> injection h with h
    · exact .inr (h ▸ endsWell_finish)
    · exact .inl (h ▸ endsInError_raise rfl)
  | mul rd rs1 rs2 =>
    simp only [exec, execMul] at h
    split at h <;> injection h with h
    · exact .inr (h ▸ endsWell_finish)
    · exact .inl (h ▸ endsInError_raise rfl)
  | inv rd rs1 => injection h with h; exact .inr (h ▸ endsWell_finish)
  | brbegin rs1 rs2 =>
    simp only [exec, execBrbegin] at h
    split at h <;> injection h with h
    · exact .inr ⟨_, s.bw, s.wr, s.ww, s.empty, s.mem, _, _, h.symm.trans (complete_eq_finish _),
      by simp [usesBr], by simp, by simp, by simp, by simp,
        by simp⟩
    · exact .inl (h ▸ endsInError_raise rfl)
  | brread rd =>
    simp only [exec, execBrread] at h
    split at h
    · split at h
      · injection h with h
        exact .inr ⟨s.br, s.bw, s.wr, s.ww, _, s.mem, _, _, h.symm.trans (complete_eq_finish _),
          by simp, by simp, by simp, by simp, by simp, by simp⟩
      · exact .inl (endsInError_port rfl (fun _ => rfl) h)
      · injection h with h
        exact .inr ⟨_, s.bw, s.wr, s.ww, _, s.mem, _, _, h.symm, by simp [usesBr], by simp, by simp, by simp, by simp,
          by simp⟩
    · injection h with h
      exact .inl (h ▸ endsInError_raise rfl)
  | brmaxw rd rs1 => injection h with h; exact .inr (h ▸ endsWell_finish)
  | bwbegin rs1 =>
    injection h with h
    exact .inr ⟨s.br, _, s.wr, s.ww, s.empty, s.mem, _, _, h.symm.trans (complete_eq_finish _),
      by simp, by simp [usesBw], by simp, by simp, by simp,
      by simp⟩
  | bwwrite rs1 =>
    simp only [exec, execBwwrite] at h
    split at h
    · split at h
      · split at h
        · exact .inl (endsInError_port rfl (by simp [storesBytes, usesBw]) h)
        · injection h with h
          exact .inr ⟨s.br, _, s.wr, s.ww, s.empty, _, _, _, h.symm.trans (complete_eq_finish _),
            by simp, by simp [usesBw], by simp, by simp, by simp,
            by simp [storesBytes, usesBw]⟩
      · injection h with h
        exact .inl (h ▸ endsInError_raise rfl)
    · injection h with h
      exact .inl (h ▸ endsInError_raise rfl)
  | bwflush rd =>
    simp only [exec, execBwflush] at h
    split at h
    · split at h
      · exact .inl (endsInError_port rfl (by simp [storesBytes, usesBw]) h)
      · injection h with h
        exact .inr ⟨s.br, _, s.wr, s.ww, s.empty, _, _, _, h.symm, by simp, by simp [usesBw], by simp, by simp, by simp,
          by simp [storesBytes, usesBw]⟩
    · injection h with h
      exact .inl (h ▸ endsInError_raise rfl)
  | bwmaxb rd rs1 =>
    simp only [exec, execBwmaxb] at h
    split at h <;> injection h with h
    · exact .inr (h ▸ endsWell_finish)
    · exact .inl (h ▸ endsInError_raise rfl)
  | wrbegin rs1 rs2 =>
    simp only [exec, execWrbegin] at h
    split at h <;> injection h with h
    · exact .inr ⟨s.br, s.bw, _, s.ww, s.empty, s.mem, _, _, h.symm.trans (complete_eq_finish _),
      by simp, by simp, by simp [usesWr], by simp, by simp,
        by simp⟩
    · exact .inl (h ▸ endsInError_raise rfl)
  | wrread rd =>
    simp only [exec, execWrread] at h
    split at h
    · split at h
      · injection h with h
        exact .inr (h ▸ endsWell_finish)
      · exact .inl (endsInError_port rfl (fun _ => rfl) h)
      · injection h with h
        exact .inr ⟨s.br, s.bw, _, s.ww, s.empty, s.mem, _, _, h.symm, by simp, by simp, by simp [usesWr], by simp,
          by simp, by simp⟩
    · injection h with h
      exact .inl (h ▸ endsInError_raise rfl)
  | wcount rd rs1 => injection h with h; exact .inr (h ▸ endsWell_finish)
  | wwbegin rs1 =>
    injection h with h
    exact .inr ⟨s.br, s.bw, s.wr, _, s.empty, s.mem, _, _, h.symm.trans (complete_eq_finish _),
      by simp, by simp, by simp, by simp [usesWw], by simp,
      by simp⟩
  | wwwrite rs1 =>
    simp only [exec, execWwwrite] at h
    split at h
    · split at h
      · split at h
        · exact .inl (endsInError_port rfl (by simp [storesBytes, usesWw, usesBw]) h)
        · injection h with h
          exact .inr ⟨s.br, s.bw, s.wr, _, s.empty, _, _, _, h.symm.trans (complete_eq_finish _),
            by simp, by simp, by simp, by simp [usesWw], by simp,
            by simp [storesBytes, usesWw, usesBw]⟩
      · injection h with h
        exact .inl (h ▸ endsInError_raise rfl)
    · injection h with h
      exact .inl (h ▸ endsInError_raise rfl)
  | wwflush rd =>
    simp only [exec, execWwflush] at h
    split at h
    · split at h
      · exact .inl (endsInError_port rfl (by simp [storesBytes, usesWw, usesBw]) h)
      · injection h with h
        exact .inr ⟨s.br, s.bw, s.wr, _, s.empty, _, _, _, h.symm, by simp, by simp, by simp, by simp [usesWw], by simp,
          by simp [storesBytes, usesWw, usesBw]⟩
    · injection h with h
      exact .inl (h ▸ endsInError_raise rfl)

end Sys2Proof.Machine
end

