-- ==== Sys2Proof/Laws/PerInstr.lean ====
section
/-! SUPPORT. The per-instruction family of LAWS.json: the encoding of every command is a well-formed command word, one lemma
per constructor. -/

namespace Sys2Proof.Laws

/-- The encoding of `i` is accepted by a row of the opcode table (spec `30_encoding.md` R80, R83). -/
def EncodeWellFormed.Statement (i : Instr) : Prop := CmdWord.wellFormed (encode i) = true

/-- A word whose fields, masked field by field, are a row's pattern is accepted by that row. -/
theorem wellFormed_of_row {c : CmdWord} {row : OpcodeRow} (hr : row ∈ opcodeTable) (h : c &&& row.mask = row.pattern) :
    CmdWord.wellFormed c = true :=
  List.any_eq_true.2 ⟨row, hr, by simp [h]⟩

theorem EncodeWellFormed.pred (rd rs1 : Reg) : EncodeWellFormed.Statement (.pred rd rs1) := by
  refine wellFormed_of_row (row := ⟨0xFC03FFFF#32, 0x04000000#32⟩) (by decide) ?_
  rw [show (0xFC03FFFF#32 : CmdWord) = allFields 63#6 0#4 0#4 15#4 15#4 15#4 63#6 from rfl,
    show (0x04000000#32 : CmdWord) = allFields 1#6 0#4 0#4 0#4 0#4 0#4 0#6 from rfl, encode, packFields_eq, allFields_and]
  simp

theorem EncodeWellFormed.fin (rd rs1 : Reg) : EncodeWellFormed.Statement (.fin rd rs1) := by
  refine wellFormed_of_row (row := ⟨0xFC03FFFF#32, 0x08000000#32⟩) (by decide) ?_
  rw [show (0xFC03FFFF#32 : CmdWord) = allFields 63#6 0#4 0#4 15#4 15#4 15#4 63#6 from rfl,
    show (0x08000000#32 : CmdWord) = allFields 2#6 0#4 0#4 0#4 0#4 0#4 0#6 from rfl, encode, packFields_eq, allFields_and]
  simp

theorem EncodeWellFormed.add4 (rd rs1 rs2 rs3 rs4 : Reg) : EncodeWellFormed.Statement (.add4 rd rs1 rs2 rs3 rs4) := by
  refine wellFormed_of_row (row := ⟨0xFC00003F#32, 0x0C000000#32⟩) (by decide) ?_
  rw [show (0xFC00003F#32 : CmdWord) = allFields 63#6 0#4 0#4 0#4 0#4 0#4 63#6 from rfl,
    show (0x0C000000#32 : CmdWord) = allFields 3#6 0#4 0#4 0#4 0#4 0#4 0#6 from rfl, encode, packFields_eq, allFields_and]
  simp

theorem EncodeWellFormed.neg (rd rs1 : Reg) : EncodeWellFormed.Statement (.neg rd rs1) := by
  refine wellFormed_of_row (row := ⟨0xFC03FFFF#32, 0x10000000#32⟩) (by decide) ?_
  rw [show (0xFC03FFFF#32 : CmdWord) = allFields 63#6 0#4 0#4 15#4 15#4 15#4 63#6 from rfl,
    show (0x10000000#32 : CmdWord) = allFields 4#6 0#4 0#4 0#4 0#4 0#4 0#6 from rfl, encode, packFields_eq, allFields_and]
  simp

theorem EncodeWellFormed.mul (rd rs1 rs2 : Reg) : EncodeWellFormed.Statement (.mul rd rs1 rs2) := by
  refine wellFormed_of_row (row := ⟨0xFC003FFF#32, 0x14000000#32⟩) (by decide) ?_
  rw [show (0xFC003FFF#32 : CmdWord) = allFields 63#6 0#4 0#4 0#4 15#4 15#4 63#6 from rfl,
    show (0x14000000#32 : CmdWord) = allFields 5#6 0#4 0#4 0#4 0#4 0#4 0#6 from rfl, encode, packFields_eq, allFields_and]
  simp

theorem EncodeWellFormed.inv (rd rs1 : Reg) : EncodeWellFormed.Statement (.inv rd rs1) := by
  refine wellFormed_of_row (row := ⟨0xFC03FFFF#32, 0x18000000#32⟩) (by decide) ?_
  rw [show (0xFC03FFFF#32 : CmdWord) = allFields 63#6 0#4 0#4 15#4 15#4 15#4 63#6 from rfl,
    show (0x18000000#32 : CmdWord) = allFields 6#6 0#4 0#4 0#4 0#4 0#4 0#6 from rfl, encode, packFields_eq, allFields_and]
  simp

theorem EncodeWellFormed.brbegin (rs1 rs2 : Reg) : EncodeWellFormed.Statement (.brbegin rs1 rs2) := by
  refine wellFormed_of_row (row := ⟨0xFFC03FFF#32, 0x40000000#32⟩) (by decide) ?_
  rw [show (0xFFC03FFF#32 : CmdWord) = allFields 63#6 15#4 0#4 0#4 15#4 15#4 63#6 from rfl,
    show (0x40000000#32 : CmdWord) = allFields 16#6 0#4 0#4 0#4 0#4 0#4 0#6 from rfl, encode, packFields_eq, allFields_and]
  simp

theorem EncodeWellFormed.brread (rd : Reg) : EncodeWellFormed.Statement (.brread rd) := by
  refine wellFormed_of_row (row := ⟨0xFC3FFFFF#32, 0x44000000#32⟩) (by decide) ?_
  rw [show (0xFC3FFFFF#32 : CmdWord) = allFields 63#6 0#4 15#4 15#4 15#4 15#4 63#6 from rfl,
    show (0x44000000#32 : CmdWord) = allFields 17#6 0#4 0#4 0#4 0#4 0#4 0#6 from rfl, encode, packFields_eq, allFields_and]
  simp

theorem EncodeWellFormed.brmaxw (rd rs1 : Reg) : EncodeWellFormed.Statement (.brmaxw rd rs1) := by
  refine wellFormed_of_row (row := ⟨0xFC03FFFF#32, 0x48000000#32⟩) (by decide) ?_
  rw [show (0xFC03FFFF#32 : CmdWord) = allFields 63#6 0#4 0#4 15#4 15#4 15#4 63#6 from rfl,
    show (0x48000000#32 : CmdWord) = allFields 18#6 0#4 0#4 0#4 0#4 0#4 0#6 from rfl, encode, packFields_eq, allFields_and]
  simp

theorem EncodeWellFormed.bwbegin (rs1 : Reg) : EncodeWellFormed.Statement (.bwbegin rs1) := by
  refine wellFormed_of_row (row := ⟨0xFFC3FFFF#32, 0x50000000#32⟩) (by decide) ?_
  rw [show (0xFFC3FFFF#32 : CmdWord) = allFields 63#6 15#4 0#4 15#4 15#4 15#4 63#6 from rfl,
    show (0x50000000#32 : CmdWord) = allFields 20#6 0#4 0#4 0#4 0#4 0#4 0#6 from rfl, encode, packFields_eq, allFields_and]
  simp

theorem EncodeWellFormed.bwwrite (rs1 : Reg) : EncodeWellFormed.Statement (.bwwrite rs1) := by
  refine wellFormed_of_row (row := ⟨0xFFC3FFFF#32, 0x54000000#32⟩) (by decide) ?_
  rw [show (0xFFC3FFFF#32 : CmdWord) = allFields 63#6 15#4 0#4 15#4 15#4 15#4 63#6 from rfl,
    show (0x54000000#32 : CmdWord) = allFields 21#6 0#4 0#4 0#4 0#4 0#4 0#6 from rfl, encode, packFields_eq, allFields_and]
  simp

theorem EncodeWellFormed.bwflush (rd : Reg) : EncodeWellFormed.Statement (.bwflush rd) := by
  refine wellFormed_of_row (row := ⟨0xFC3FFFFF#32, 0x58000000#32⟩) (by decide) ?_
  rw [show (0xFC3FFFFF#32 : CmdWord) = allFields 63#6 0#4 15#4 15#4 15#4 15#4 63#6 from rfl,
    show (0x58000000#32 : CmdWord) = allFields 22#6 0#4 0#4 0#4 0#4 0#4 0#6 from rfl, encode, packFields_eq, allFields_and]
  simp

theorem EncodeWellFormed.bwmaxb (rd rs1 : Reg) : EncodeWellFormed.Statement (.bwmaxb rd rs1) := by
  refine wellFormed_of_row (row := ⟨0xFC03FFFF#32, 0x5C000000#32⟩) (by decide) ?_
  rw [show (0xFC03FFFF#32 : CmdWord) = allFields 63#6 0#4 0#4 15#4 15#4 15#4 63#6 from rfl,
    show (0x5C000000#32 : CmdWord) = allFields 23#6 0#4 0#4 0#4 0#4 0#4 0#6 from rfl, encode, packFields_eq, allFields_and]
  simp

theorem EncodeWellFormed.wrbegin (rs1 rs2 : Reg) : EncodeWellFormed.Statement (.wrbegin rs1 rs2) := by
  refine wellFormed_of_row (row := ⟨0xFFC03FFF#32, 0x60000000#32⟩) (by decide) ?_
  rw [show (0xFFC03FFF#32 : CmdWord) = allFields 63#6 15#4 0#4 0#4 15#4 15#4 63#6 from rfl,
    show (0x60000000#32 : CmdWord) = allFields 24#6 0#4 0#4 0#4 0#4 0#4 0#6 from rfl, encode, packFields_eq, allFields_and]
  simp

theorem EncodeWellFormed.wrread (rd : Reg) : EncodeWellFormed.Statement (.wrread rd) := by
  refine wellFormed_of_row (row := ⟨0xFC3FFFFF#32, 0x64000000#32⟩) (by decide) ?_
  rw [show (0xFC3FFFFF#32 : CmdWord) = allFields 63#6 0#4 15#4 15#4 15#4 15#4 63#6 from rfl,
    show (0x64000000#32 : CmdWord) = allFields 25#6 0#4 0#4 0#4 0#4 0#4 0#6 from rfl, encode, packFields_eq, allFields_and]
  simp

theorem EncodeWellFormed.wcount (rd rs1 : Reg) : EncodeWellFormed.Statement (.wcount rd rs1) := by
  refine wellFormed_of_row (row := ⟨0xFC03FFFF#32, 0x68000000#32⟩) (by decide) ?_
  rw [show (0xFC03FFFF#32 : CmdWord) = allFields 63#6 0#4 0#4 15#4 15#4 15#4 63#6 from rfl,
    show (0x68000000#32 : CmdWord) = allFields 26#6 0#4 0#4 0#4 0#4 0#4 0#6 from rfl, encode, packFields_eq, allFields_and]
  simp

theorem EncodeWellFormed.wwbegin (rs1 : Reg) : EncodeWellFormed.Statement (.wwbegin rs1) := by
  refine wellFormed_of_row (row := ⟨0xFFC3FFFF#32, 0x70000000#32⟩) (by decide) ?_
  rw [show (0xFFC3FFFF#32 : CmdWord) = allFields 63#6 15#4 0#4 15#4 15#4 15#4 63#6 from rfl,
    show (0x70000000#32 : CmdWord) = allFields 28#6 0#4 0#4 0#4 0#4 0#4 0#6 from rfl, encode, packFields_eq, allFields_and]
  simp

theorem EncodeWellFormed.wwwrite (rs1 : Reg) : EncodeWellFormed.Statement (.wwwrite rs1) := by
  refine wellFormed_of_row (row := ⟨0xFFC3FFFF#32, 0x74000000#32⟩) (by decide) ?_
  rw [show (0xFFC3FFFF#32 : CmdWord) = allFields 63#6 15#4 0#4 15#4 15#4 15#4 63#6 from rfl,
    show (0x74000000#32 : CmdWord) = allFields 29#6 0#4 0#4 0#4 0#4 0#4 0#6 from rfl, encode, packFields_eq, allFields_and]
  simp

theorem EncodeWellFormed.wwflush (rd : Reg) : EncodeWellFormed.Statement (.wwflush rd) := by
  refine wellFormed_of_row (row := ⟨0xFC3FFFFF#32, 0x78000000#32⟩) (by decide) ?_
  rw [show (0xFC3FFFFF#32 : CmdWord) = allFields 63#6 0#4 15#4 15#4 15#4 15#4 63#6 from rfl,
    show (0x78000000#32 : CmdWord) = allFields 30#6 0#4 0#4 0#4 0#4 0#4 0#6 from rfl, encode, packFields_eq, allFields_and]
  simp

end Sys2Proof.Laws
end

