-- ==== Sys2Proof/Tests/Slice0.lean ====
section
/-! SUPPORT. Own tests: the WellFormed smoke test, one written-out word per command, at most two one-step tests per command,
and a witness for every statement that has hypotheses. Expected values are those of `95_test_vectors.md` (the table or program
is named at each); words are laid out by R80 and R83. -/

set_option Elab.async false

namespace Sys2Proof.Tests

open Sys2Proof Sys2Proof.Machine Sys2Proof.Safety

/-! ### Helpers -/

/-- The state after reset with the given data registers. -/
def start (regs : List (Reg × Word)) : State := regs.foldl (fun s p => s.setReg p.1 p.2) State.reset

/-- The next state a result answers, if it is one. -/
def nextOf : Result → Option State
  | .next t => some t
  | .fault _ => none
  | .refused _ => none

/-- The refusal a result answers, if it is one. -/
def refusalOf : Result → Option Refusal
  | .refused r => some r
  | .next _ => none
  | .fault _ => none

/-- What `f` reads in the state after a command. -/
def afterExec {α : Type} (i : Instr) (s : State) (f : State → α) : Option α := (nextOf (exec i s)).map f

/-- What `f` reads in the state after a step on these events. -/
def afterStep {α : Type} (s : State) (e : HostEvent) (f : State → α) : Option α :=
  (nextOf (step { s with bus := [e] })).map f

/-- M64, the largest u64 (R12). -/
def m64 : Word := 0xFFFFFFFFFFFFFFFF#64

/-- The bytes 01 to 0A at 0x1000 (W1, P2). -/
def tenBytes : Memory := (List.range 10).map fun k => (0x1000 + k, BitVec.ofNat 8 (k + 1))

/-- Eight bytes FF at 0x1000 (V-BR). -/
def eightOnes : Memory := (List.range 8).map fun k => (0x1000 + k, 0xFF#8)

/-- A reader bound to `n` bytes at 0x1000. -/
def boundReader (n : Word) : Reader := Reader.bind 0x1000#64 n

/-- A platform that refuses the bytes `lo` to `hi` for both kinds. -/
def refusing (lo hi : Word) : Platform := { refused := [⟨lo, hi, true, true⟩], window := none }

/-- A platform whose port sees the unit's window at `base`. -/
def windowAt (base : Word) : Platform := { refused := [], window := some base }

/-- A property of each member of a list, decided member by member. -/
abbrev AllOf {α : Type} (l : List α) (p : α → Prop) [DecidablePred p] : Prop := l.all (fun x => decide (p x)) = true

/-- The next event is a host write of `v` to CMD. -/
def withCmd (s : State) (v : Word) : State := { s with bus := [cmdWrite v] }

/-- A machine in an error: DOMAIN on record. -/
def failed : State := State.reset.raise .domain 0x0CC80000#64 0#64

/-! ### WellFormed refuses an ill-formed value for each of its checks (V-DEC) -/

theorem test_wellFormed_upper_half : cmdWellFormed 0xFFFFFFFF04480000#64 = false := by decide
theorem test_wellFormed_opcode_zero : cmdWellFormed 0x0#64 = false := by decide
theorem test_wellFormed_opcode_unassigned : cmdWellFormed 0x20000000#64 = false := by decide
theorem test_wellFormed_reserved_field : cmdWellFormed 0x04000001#64 = false := by decide
theorem test_wellFormed_unused_field : cmdWellFormed 0x04484000#64 = false := by decide
theorem test_wellFormed_accepts : cmdWellFormed 0x04480000#64 = true := by decide

/-! ### One word per command, from the programs of `95_test_vectors.md` -/

theorem test_decode_pred : decode 0x05940000#64 = .instr (.pred 6 5) := by decide
theorem test_decode_fin : decode 0x090C0000#64 = .instr (.fin 4 3) := by decide
theorem test_decode_add4 : decode 0x0DD28000#64 = .instr (.add4 7 4 10 0 0) := by decide
theorem test_decode_neg : decode 0x12A80000#64 = .instr (.neg 10 10) := by decide
theorem test_decode_mul : decode 0x14C48000#64 = .instr (.mul 3 1 2) := by decide
theorem test_decode_inv : decode 0x18840000#64 = .instr (.inv 2 1) := by decide
theorem test_decode_brbegin : decode 0x40048000#64 = .instr (.brbegin 1 2) := by decide
theorem test_decode_brread : decode 0x44C00000#64 = .instr (.brread 3) := by decide
theorem test_decode_brmaxw : decode 0x4A080000#64 = .instr (.brmaxw 8 2) := by decide
theorem test_decode_bwbegin : decode 0x50180000#64 = .instr (.bwbegin 6) := by decide
theorem test_decode_bwwrite : decode 0x540C0000#64 = .instr (.bwwrite 3) := by decide
theorem test_decode_bwflush : decode 0x59C00000#64 = .instr (.bwflush 7) := by decide
theorem test_decode_bwmaxb : decode 0x5E600000#64 = .instr (.bwmaxb 9 8) := by decide
theorem test_decode_wrbegin : decode 0x6019C000#64 = .instr (.wrbegin 6 7) := by decide
theorem test_decode_wrread : decode 0x66400000#64 = .instr (.wrread 9) := by decide
theorem test_decode_wcount : decode 0x6A1C0000#64 = .instr (.wcount 8 7) := by decide
theorem test_decode_wwbegin : decode 0x70180000#64 = .instr (.wwbegin 6) := by decide
theorem test_decode_wwwrite : decode 0x74040000#64 = .instr (.wwwrite 1) := by decide
theorem test_decode_wwflush : decode 0x79C00000#64 = .instr (.wwflush 7) := by decide

/-- The last four register fields of ADD4, each of its own value (R80). -/
theorem test_decode_add4_fields : decode 0x0C48D140#64 = .instr (.add4 1 2 3 4 5) := by decide
theorem test_encode_add4_fields : cmdValue (.add4 1 2 3 4 5) = 0x0C48D140#64 := by decide

theorem test_decode_rejects_upper_half : decode 0xFFFFFFFF04480000#64 = .illegal .upperHalf := by decide
theorem test_decode_rejects_opcode : decode 0x20000000#64 = .illegal .opcode := by decide
theorem test_decode_rejects_reserved : decode 0x04000001#64 = .illegal .reserved := by decide
theorem test_decode_rejects_unused_field : decode 0x04484000#64 = .illegal .unusedField := by decide

/-! ### One step of each command (L2) -/

theorem test_pred_largest : afterExec (.pred 6 5) (start [(5, m64)]) (·.getReg 6) = some 0x2000000000000006#64 := by decide
theorem test_pred_same_register :
    afterExec (.pred 5 5) (start [(5, 0x3FFFFFFFFFFFFFFF#64)]) (·.getReg 5) = some 0x2000000000000000#64 := by decide
theorem test_fin_largest : afterExec (.fin 4 3) (start [(3, maxPartial)]) (·.getReg 4) = some 1#64 := by decide
theorem test_fin_excluded :
    afterExec (.fin 4 3) (start [(3, finExcluded), (4, 9#64)]) (fun t => (t.getReg 4, t.statusWord)) =
      some (9#64, 0x2C#64) := by decide
theorem test_add4_largest :
    afterExec (.add4 2 1 1 1 1) (start [(1, maxPartial)]) (·.getReg 2) = some 0x2000000000000003#64 := by decide
theorem test_add4_fourth_operand :
    afterExec (.add4 2 0 0 0 1) (start [(1, m64)]) (·.statusWord) = some 0x2C#64 := by decide
theorem test_neg_zero : afterExec (.neg 1 0) (start []) (·.getReg 1) = some modulus := by decide
theorem test_neg_above_p : afterExec (.neg 1 2) (start [(2, 0x2000000000000000#64)]) (·.statusWord) = some 0x2C#64 := by
  decide
theorem test_mul_vector :
    afterExec (.mul 3 1 2) (start [(1, 0x123456789ABCDEF0#64), (2, 0x0FEDCBA987654321#64)]) (·.getReg 3) =
      some 0x0B46A89551204701#64 := by decide
theorem test_mul_domain :
    afterExec (.mul 3 1 2) (start [(1, 0x1000000000000000#64), (2, m64)]) (·.statusWord) = some 0x2C#64 := by decide
theorem test_inv_vector :
    afterExec (.inv 2 1) (start [(1, 0x0123456789ABCDEF#64)]) (·.getReg 2) = some 0x1220F61C9107B0E3#64 := by
  decide +kernel
theorem test_inv_of_p : afterExec (.inv 2 1) (start [(1, modulus), (2, 5#64)]) (·.getReg 2) = some 0#64 := by decide
theorem test_brbegin_limit :
    afterExec (.brbegin 1 2) (start [(1, 0xFFFFFFFFFFFFFFFB#64), (2, 5#64)]) (·.statusWord) = some 0x108#64 := by decide
theorem test_brbegin_past_the_end :
    afterExec (.brbegin 1 2) (start [(1, 0xFFFFFFFFFFFFFFFB#64), (2, 6#64)]) (·.statusWord) = some 0x2C#64 := by decide
theorem test_brread_first :
    afterExec (.brread 3) { start [] with br := boundReader 10#64, mem := tenBytes }
      (fun t => (t.getReg 3, t.br)) =
      some (0x0807060504030201#64, ⟨true, 0x1008#64, 2#64, 0#64, 3#8⟩) := by decide
theorem test_brread_placeholder :
    afterExec (.brread 3) { start [] with br := boundReader 8#64, mem := eightOnes } (fun t => (t.getReg 3, t.br.ws)) =
      some (placeholder, 0xF#64) := by decide
theorem test_brmaxw_ten : afterExec (.brmaxw 8 2) (start [(2, 1418#64)]) (·.getReg 8) = some 190#64 := by decide
theorem test_brmaxw_largest : afterExec (.brmaxw 8 2) (start [(2, m64)]) (·.getReg 8) = some 0x2222222222222222#64 := by
  decide
theorem test_bwbegin_binds :
    afterExec (.bwbegin 6) (start [(6, 0x2000#64)]) (·.bw) = some ⟨true, 0x2000#64, 0x2000#64, 0#64, 0#6⟩ := by decide
theorem test_bwwrite_second :
    afterExec (.bwwrite 3) { start [(3, 0x5048#64)] with bw := ⟨true, 0x2000#64, 0x2000#64, 0x0807060504030201#64, 61#6⟩ }
      (fun t => (t.bw, t.mem.byteAt 0x2007)) =
      some (⟨true, 0x2008#64, 0x2000#64, 0x0A09#64, 58#6⟩, 8#8) := by decide
theorem test_bwwrite_p :
    afterExec (.bwwrite 3) { start [(3, modulus)] with bw := Writer.bind 0x2000#64 } (·.statusWord) = some 0x22C#64 := by
  decide
theorem test_bwflush_total :
    afterExec (.bwflush 7) { start [] with bw := ⟨true, 0x2008#64, 0x2000#64, 0x0A09#64, 58#6⟩ }
      (fun t => (t.getReg 7, t.bw.bound, t.mem)) = some (16#64, false, [(0x2008, 9#8), (0x2009, 0xA#8)]) := by decide
theorem test_bwflush_unbound :
    afterExec (.bwflush 1) (start []) (fun t => (t.statusWord, t.faultCmd)) = some (0x3C#64, 0x58400000#64) := by decide
theorem test_bwmaxb_largest :
    afterExec (.bwmaxb 9 8) (start [(8, 0x2192E29F79B47581#64)]) (·.getReg 9) = some 0xFFFFFFFFFFFFFFF8#64 := by decide
theorem test_bwmaxb_domain :
    afterExec (.bwmaxb 9 8) (start [(8, 0x2192E29F79B47582#64)]) (·.statusWord) = some 0x2C#64 := by decide
theorem test_wrbegin_past_the_end :
    afterExec (.wrbegin 1 2) (start [(1, 0xFFFFFFFFFFFFFFFB#64), (2, 6#64)]) (·.statusWord) = some 0x2C#64 := by decide
theorem test_wrread_ones :
    afterExec (.wrread 9) { start [] with wr := boundReader 8#64, mem := eightOnes } (fun t => (t.getReg 9, t.wr.ws)) =
      some (modulus, 7#64) := by decide
theorem test_wrread_exhausted :
    afterExec (.wrread 9) { start [(9, 4#64)] with wr := ⟨true, 0x1000#64, 0#64, 0#64, 0xC4#8⟩ }
      (fun t => (t.getReg 9, t.wr.avail, t.empty)) = some (0#64, 0xC4#8, false) := by decide
theorem test_wcount : afterExec (.wcount 8 7) (start [(7, 23#64)]) (·.getReg 8) = some 3#64 := by decide
theorem test_wcount_largest : afterExec (.wcount 8 7) (start [(7, m64)]) (·.getReg 8) = some 0x2192E29F79B47581#64 := by
  decide
theorem test_wwbegin_binds :
    afterExec (.wwbegin 6) (start [(6, 0x2000#64)]) (fun t => (t.ww.bound, t.ww.start)) = some (true, 0x2000#64) := by decide
theorem test_wwwrite_second :
    afterExec (.wwwrite 2) { start [(2, 2#64)] with ww := ⟨true, 0x2000#64, 0x2000#64, 1#64, 61#6⟩ }
      (fun t => (t.ww, t.mem)) = some (⟨true, 0x2008#64, 0x2000#64, 0#64, 58#6⟩, [(0x2000, 1#8), (0x2007, 0x40#8)]) := by
  decide
theorem test_wwwrite_p :
    afterExec (.wwwrite 2) { start [(2, modulus)] with ww := Writer.bind 0x2000#64 } (·.ecode) = some .domain := by decide
theorem test_wwflush_total :
    afterExec (.wwflush 7) { start [] with ww := ⟨true, 0x2010#64, 0x2000#64, 0#64, 55#6⟩ }
      (fun t => (t.getReg 7, t.ww.bound)) = some (23#64, false) := by decide

/-! ### The host's side (V-ERR, V-RST) -/

theorem test_step_runs_the_table_word :
    (nextOf (step (State.reset.withFetchWord 32 0x04400000))).map (fun t => (t.statusWord, t.bus)) = some (0x8#64, []) := by
  decide
theorem test_decodeTableWord : decodeTableWord 32 0x05940000 = some (.pred 6 5) := by decide
theorem test_step_memfault :
    (nextOf (step (withCmd { start [(3, 1#64)] with
        bw := ⟨true, 0x3000#64, 0x3000#64, 5#64, 61#6⟩, platform := refusing 0x3003#64 0x3003#64 }
      0x540C0000#64))).map (fun t => (t.statusWord, t.faultAddr, t.mem)) =
      some (0x24C#64, 0x3003#64, [(0x3000, 5#8)]) := by decide
theorem test_status_clear :
    afterStep failed (.write 0x010#12 8 0xC#64) (fun t => (t.statusWord, t.faultCmd)) = some (0#64, 0#64) := by decide
/-- A store that runs over the end of the address space (R60, R91). -/
theorem test_store_wraps :
    afterStep (start []) (.store m64 [1#8, 2#8]) (fun t => (t.mem.byteAt m64.toNat, t.mem.byteAt 0, t.mem.byteAt 1)) =
      some (1#8, 2#8, 0#8) := by decide
theorem test_irq_after_done :
    afterStep { start [] with die := true } (cmdWrite 0x04400000#64) (fun t => (t.statusWord, t.irq)) =
      some (0x8#64, true) := by decide
theorem test_soft_reset :
    afterStep { failed with mem := tenBytes } (.write 0x008#12 8 7#64)
      (fun t => (t.ctrlWord, t.statusWord, t.mem.byteAt 0x1000)) = some (0#64, 0#64, 1#8) := by decide
theorem test_polled_status :
    afterStep (start []) (.polledCmd 0x04400000#64 0x010#12) (fun t => (t.replies, t.statusWord)) =
      some ([1#64], 0x8#64) := by decide

/-! ### Witnesses: a state and operands that meet the hypotheses of each statement, for each clause at a boundary -/

theorem witness_CommandHasOneEncoding :
    decode 0x04000000#64 = .instr (.pred 0 0) ∧ decode 0x0FFFFFC0#64 = .instr (.add4 15 15 15 15 15) := by decide +kernel

/-- One value for each of the four cases of R250. -/
theorem witness_UndecodableValueRaisesIllegal :
    AllOf [0x0#64, 0x20000000#64, 0x04000001#64, 0x04484000#64, 0xFFFFFFFF04480000#64, 0x100000000#64] fun v =>
      (withCmd (start []) v).bus = .write 0x018#12 8 v :: [] ∧ (withCmd (start []) v).err = false ∧
        cmdWellFormed v = false := by decide +kernel

theorem witness_StepRunsTheDecodedCommand :
    (withCmd (start []) 0x04400000#64).bus = .write 0x018#12 8 0x04400000#64 :: [] ∧
      (withCmd (start []) 0x04400000#64).err = false ∧ decode 0x04400000#64 = .instr (.pred 1 0) ∧
      (start []).bus = [] := by decide +kernel

/-- A host store keeps ERR; a reset and a STATUS write with bit 2 set end it; a command is discarded. -/
theorem witness_ErrIsStickyAndDiscardsCommands :
    AllOf [HostEvent.store 0#64 [1#8], .hwReset, .write 0x010#12 8 4#64, .write 0x010#12 8 8#64,
        .write 0x018#12 8 0x04400000#64] fun e =>
      { failed with bus := [e] }.bus = e :: [] ∧ { failed with bus := [e] }.err = true ∧
        (nextOf (step { failed with bus := [e] })).isSome = true := by decide +kernel

theorem witness_StatusWriteClearsErrAndDone :
    AllOf [0#64, 4#64, 8#64, 0xC#64, 0xFFFFFFFFFFFFFFF3#64] fun v =>
      { failed with bus := [.write 0x010#12 8 v] }.bus = .write 0x010#12 8 v :: [] := by decide +kernel

theorem witness_ControlWriteSetsEnablesOrResets :
    AllOf [0#64, 3#64, 4#64, 7#64, 0xFFFFFFFFFFFFFFFB#64] fun v =>
      { failed with bus := [.write 0x008#12 8 v] }.bus = .write 0x008#12 8 v :: [] ∧
        (v.getLsbD 2 = true ∨ v.getLsbD 2 = false) := by decide +kernel

theorem witness_ResetLeavesTheTableOfValues :
    { failed with bus := [.hwReset] }.bus = HostEvent.hwReset :: [] ∧
      { failed with bus := [.write 0x008#12 8 4#64] }.bus = .write 0x008#12 8 4#64 :: [] ∧
      (4#64).getLsbD 2 = true := by decide +kernel

theorem witness_HostReadsEveryRegister :
    (AllOf [0x000#12, 0x178#12, 0x278#12, 0xFF8#12] fun off => off.toNat % 8 = 0 ∧
      { start [] with bus := [.read off 8] }.bus = .read off 8 :: []) ∧
    AllOf [0x000#12, 0x020#12, 0x028#12, 0x200#12, 0x278#12] fun off => off.toNat ∈ readOnlyOffsets ∧
      { start [] with bus := [.write off 8 m64] }.bus = .write off 8 m64 :: [] := by decide +kernel

theorem witness_ReservedOffsetsReadZeroAndIgnoreWrites :
    AllOf [0x030#12, 0x0F8#12, 0x180#12, 0x1F8#12, 0x280#12, 0xFF8#12] fun off => ReservedOffset off ∧
      { start [] with bus := [.read off 8] }.bus = .read off 8 :: [] ∧
      { start [] with bus := [.write off 8 m64] }.bus = .write off 8 m64 :: [] := by decide +kernel

theorem witness_DataRegistersAndHardwiredZero :
    AllOf [0#4, 1#4, 15#4] fun rd =>
      { start [] with bus := [.write (BitVec.ofNat 12 (0x100 + 8 * rd.toNat)) 8 m64] }.bus =
        .write (BitVec.ofNat 12 (0x100 + 8 * rd.toNat)) 8 m64 :: [] := by decide +kernel

/-- Too narrow and aligned, wide enough and misaligned. -/
theorem witness_NarrowHostAccessIsRefused :
    AllOf [(0x000#12, 4), (0x008#12, 7), (0x001#12, 8), (0xFFF#12, 8), (0x008#12, 0)] fun q => (q.2 < 8 ∨ q.1.toNat % 8 ≠ 0) ∧
      { start [] with bus := [.write q.1 q.2 0#64] }.bus = .write q.1 q.2 0#64 :: [] ∧
      { start [] with bus := [.read q.1 q.2] }.bus = .read q.1 q.2 :: [] := by decide +kernel

theorem witness_FinFinalizesOrRaisesDomain :
    (AllOf [0#64, 0x3FFFFFFFFFFFFFFD#64, 0x3FFFFFFFFFFFFFFF#64] fun x =>
      ((start [(1, x)]).getReg 1).toNat = x.toNat ∧ x.toNat < 2 ^ 62 ∧ x.toNat ≠ 0x3FFFFFFFFFFFFFFE) ∧
    AllOf [0x3FFFFFFFFFFFFFFE#64, 0x4000000000000000#64, m64] fun x =>
      ((start [(1, x)]).getReg 1).toNat = x.toNat ∧ (2 ^ 62 ≤ x.toNat ∨ x.toNat = 0x3FFFFFFFFFFFFFFE) := by decide +kernel

theorem witness_Add4FoldsTheExactSumOrRaisesDomain :
    ((start [(1, maxPartial)]).getReg 1).toNat < 2 ^ 62 ∧
      2 ^ 62 ≤ ((start [(1, 0x4000000000000000#64)]).getReg 1).toNat := by decide +kernel

theorem witness_NegSubtractsFromThePrimeOrRaisesDomain :
    ((start [(1, modulus)]).getReg 1).toNat ≤ 2 ^ 61 - 1 ∧
      2 ^ 61 - 1 < ((start [(1, 0x2000000000000000#64)]).getReg 1).toNat := by decide +kernel

theorem witness_ReductionsKeepTheResidue :
    (∃ t, (2#4 ≠ 0#4 ∧ t.err = false) ∧ exec (.pred 2 1) (start [(1, m64)]) = .next t) ∧
    (∃ t, (2#4 ≠ 0#4 ∧ t.err = false) ∧ exec (.fin 2 1) (start [(1, maxPartial)]) = .next t) ∧
    ∃ t, (2#4 ≠ 0#4 ∧ t.err = false) ∧ exec (.add4 2 1 1 1 1) (start [(1, maxPartial)]) = .next t :=
  ⟨⟨_, by decide +kernel, rfl⟩, ⟨_, by decide +kernel, rfl⟩, ⟨_, by decide +kernel, rfl⟩⟩

theorem witness_MulFoldsTheProductOrRaisesDomain :
    ((start [(1, maxPartial)]).getReg 1).toNat.size + ((start [(2, maxPartial)]).getReg 2).toNat.size ≤ 124 ∧
      124 < ((start [(1, 0x4000000000000000#64)]).getReg 1).toNat.size +
        ((start [(2, maxPartial)]).getReg 2).toNat.size := by decide +kernel

theorem witness_InvWritesTheUniqueInverse :
    (AllOf [0#64, modulus, finExcluded] fun x => ((start [(1, x)]).getReg 1).toNat % (2 ^ 61 - 1) = 0) ∧
      AllOf [1#64, 0x1FFFFFFFFFFFFFFE#64, m64] fun x => ((start [(1, x)]).getReg 1).toNat % (2 ^ 61 - 1) ≠ 0 := by decide +kernel

theorem witness_FinAfterMulIsTheProductModuloP :
    (3#4 ≠ 0#4 ∧ 4#4 ≠ 0#4) ∧
      ((start [(1, m64), (2, placeholder)]).getReg 1).toNat.size +
        ((start [(1, m64), (2, placeholder)]).getReg 2).toNat.size ≤ 124 := by decide +kernel

theorem witness_ValueTimesItsInverseIsOne :
    AllOf [1#64, 0x7FFFFFFFFFFFFFFF#64] fun x => 2#4 ≠ 0#4 ∧ 3#4 ≠ 0#4 ∧ 4#4 ≠ 0#4 ∧ 2#4 ≠ 1#4 ∧
      ((start [(1, x)]).getReg 1).toNat < 2 ^ 63 ∧ ((start [(1, x)]).getReg 1).toNat % (2 ^ 61 - 1) ≠ 0 := by decide +kernel

/-- The last legal length and the first illegal one, for BRBEGIN and WRBEGIN alike. -/
theorem witness_BrbeginBindsOrRaisesDomain :
    ((start [(1, 0xFFFFFFFFFFFFFFFB#64), (2, 5#64)]).getReg 1).toNat +
        ((start [(1, 0xFFFFFFFFFFFFFFFB#64), (2, 5#64)]).getReg 2).toNat ≤ 2 ^ 64 ∧
      2 ^ 64 < ((start [(1, 0xFFFFFFFFFFFFFFFB#64), (2, 6#64)]).getReg 1).toNat +
        ((start [(1, 0xFFFFFFFFFFFFFFFB#64), (2, 6#64)]).getReg 2).toNat := by decide +kernel

theorem witness_WrbeginBindsOrRaisesDomain :
    ((start [(1, m64), (2, 1#64)]).getReg 1).toNat + ((start [(1, m64), (2, 1#64)]).getReg 2).toNat ≤ 2 ^ 64 ∧
      2 ^ 64 < ((start [(1, m64), (2, 2#64)]).getReg 1).toNat + ((start [(1, m64), (2, 2#64)]).getReg 2).toNat := by
  decide +kernel

/-- The platform of the state after reset: it refuses nothing and does not see the window. -/
def free : Platform := State.reset.platform

/-- Both readers on `r`, with the eight bytes FF at 0x1000. -/
def reading (r : Reader) (p : Platform) : State := { start [] with br := r, wr := r, mem := eightOnes, platform := p }

/-- Both writers on `w`, `v` in register 1. -/
def writing (v : Word) (w : Writer) (p : Platform) : State :=
  { start [(1, v)] with bw := w, ww := w, mem := tenBytes, platform := p }

/-- A reader that has nothing left: at its start, and after its zero padding. -/
def exhaustedReaders : List Reader := [boundReader 0#64, { boundReader 0#64 with avail := 0xC4#8 }]

/-- Readers that take a full chunk, a tail of one byte, no byte with 61 bits held, and no byte with one bit held. -/
def activeReaders : List Reader :=
  [boundReader 8#64, boundReader 1#64, { boundReader 0#64 with ws := modulus, avail := 61#8 },
    { boundReader 0#64 with ws := 1#64, avail := 1#8 }]

/-- Writers at 0 with nothing, one bit, two bits, three bits and 63 bits pending. -/
def someWriters : List Writer :=
  [Writer.bind 0#64, ⟨true, 0#64, 0#64, 1#64, 1#6⟩, ⟨true, 0#64, 0#64, 3#64, 2#6⟩, ⟨true, 0#64, 0#64, 7#64, 3#6⟩,
    ⟨true, 0#64, 0#64, 0x7FFFFFFFFFFFFFFF#64, 63#6⟩]

/-- A writer four bytes below the end of the address space, three bits pending. -/
def wrappingWriter : Writer := ⟨true, 0xFFFFFFFFFFFFFFFC#64, 0#64, 7#64, 3#6⟩

/-- A writer at 0x1000 whose next element and whose flush both store eight bytes. -/
def fullWriter : Writer := ⟨true, 0x1000#64, 0x1000#64, 0x7FFFFFFFFFFFFFFF#64, 63#6⟩

/-- Platforms that stop an eight-byte access from 0x1000 at its first and at its last byte, with the index of the byte. -/
def refusals : List (Platform × Nat) := [(refusing 0x1000#64 0x1000#64, 0), (refusing 0x1007#64 0x1007#64, 7)]

/-- Unbound; exhausted; an ordinary and an ambiguous candidate; the first and the last byte of a refill refused. -/
theorem witness_BrreadReturnsTheNextElement :
    (start []).br.bound = false ∧
    (AllOf exhaustedReaders fun r => (reading r free).br.bound = true ∧ ReaderOk 64 (reading r free).br ∧
      Exhausted (reading r free).br) ∧
    (AllOf activeReaders fun r => (reading r free).br.bound = true ∧ ReaderOk 64 (reading r free).br ∧
      ¬ Exhausted (reading r free).br ∧ PortAllows .read (reading r free) r.addr (bytesToRead r)) ∧
    Ambiguous (candidate (reading (boundReader 8#64) free).mem (boundReader 8#64)) ∧
    ¬ Ambiguous (candidate (reading (boundReader 1#64) free).mem (boundReader 1#64)) ∧
    AllOf refusals fun q => (reading (boundReader 8#64) q.1).br.bound = true ∧
      ReaderOk 64 (reading (boundReader 8#64) q.1).br ∧
      FirstRefused .read (reading (boundReader 8#64) q.1) (reading (boundReader 8#64) q.1).br.addr
        (bytesToRead (reading (boundReader 8#64) q.1).br) q.2 := by decide +kernel

theorem witness_WrreadReturnsTheNextWord :
    (start []).wr.bound = false ∧
    (AllOf exhaustedReaders fun r => (reading r free).wr.bound = true ∧ ReaderOk 63 (reading r free).wr ∧
      Exhausted (reading r free).wr) ∧
    (AllOf activeReaders fun r => (reading r free).wr.bound = true ∧ ReaderOk 63 (reading r free).wr ∧
      ¬ Exhausted (reading r free).wr ∧ PortAllows .read (reading r free) r.addr (bytesToRead r)) ∧
    AllOf refusals fun q => (reading (boundReader 8#64) q.1).wr.bound = true ∧
      ReaderOk 63 (reading (boundReader 8#64) q.1).wr ∧
      FirstRefused .read (reading (boundReader 8#64) q.1) (reading (boundReader 8#64) q.1).wr.addr
        (bytesToRead (reading (boundReader 8#64) q.1).wr) q.2 := by decide +kernel

/-- Unbound; v = p; the last width that stores nothing and the first that stores, the store wrapping at the end of the address
space among them; the first and the last byte refused. -/
theorem witness_BwwriteTakesOneElement :
    (start []).bw.bound = false ∧
    ((writing modulus (Writer.bind 0#64) free).bw.bound = true ∧
      2 ^ 61 - 1 ≤ ((writing modulus (Writer.bind 0#64) free).getReg 1).toNat) ∧
    (AllOf [(0x1FFFFFFFFFFFFFFE#64, Writer.bind 0#64), (placeholder, ⟨true, 0#64, 0#64, 7#64, 3#6⟩),
        (0#64, ⟨true, 0#64, 0#64, 3#64, 2#6⟩)] fun q =>
      (writing q.1 q.2 free).bw.bound = true ∧ ((writing q.1 q.2 free).getReg 1).toNat < 2 ^ 61 - 1 ∧
        WriterOk (writing q.1 q.2 free).bw ∧ Memory.wf (writing q.1 q.2 free).mem = true ∧
        q.2.avail.toNat + byteWidth q.1.toNat < 64) ∧
    (AllOf [(0#64, wrappingWriter), (placeholder, ⟨true, 0#64, 0#64, 7#64, 4#6⟩),
        (0x1FFFFFFFFFFFFFFE#64, ⟨true, 0#64, 0#64, 0x7FFFFFFFFFFFFFFF#64, 63#6⟩)] fun q =>
      (writing q.1 q.2 free).bw.bound = true ∧ ((writing q.1 q.2 free).getReg 1).toNat < 2 ^ 61 - 1 ∧
        WriterOk (writing q.1 q.2 free).bw ∧ Memory.wf (writing q.1 q.2 free).mem = true ∧
        64 ≤ q.2.avail.toNat + byteWidth q.1.toNat ∧ PortAllows .write (writing q.1 q.2 free) q.2.addr 8) ∧
    AllOf refusals fun q =>
      (writing 0#64 fullWriter q.1).bw.bound = true ∧ ((writing 0#64 fullWriter q.1).getReg 1).toNat < 2 ^ 61 - 1 ∧
        WriterOk (writing 0#64 fullWriter q.1).bw ∧ Memory.wf (writing 0#64 fullWriter q.1).mem = true ∧
        64 ≤ (writing 0#64 fullWriter q.1).bw.avail.toNat + byteWidth 0 ∧
        FirstRefused .write (writing 0#64 fullWriter q.1) (writing 0#64 fullWriter q.1).bw.addr 8 q.2 := by
  decide +kernel

theorem witness_WwwriteTakesOneWord :
    (start []).ww.bound = false ∧
    ((writing modulus (Writer.bind 0#64) free).ww.bound = true ∧
      2 ^ 61 - 1 ≤ ((writing modulus (Writer.bind 0#64) free).getReg 1).toNat) ∧
    (AllOf [(0x1FFFFFFFFFFFFFFE#64, Writer.bind 0#64), (placeholder, ⟨true, 0#64, 0#64, 3#64, 2#6⟩)] fun q =>
      (writing q.1 q.2 free).ww.bound = true ∧ ((writing q.1 q.2 free).getReg 1).toNat < 2 ^ 61 - 1 ∧
        WriterOk (writing q.1 q.2 free).ww ∧ Memory.wf (writing q.1 q.2 free).mem = true ∧
        q.2.avail.toNat + 61 < 64) ∧
    (AllOf [(placeholder, wrappingWriter), (0x1FFFFFFFFFFFFFFE#64, ⟨true, 0#64, 0#64, 0x7FFFFFFFFFFFFFFF#64, 63#6⟩)]
        fun q =>
      (writing q.1 q.2 free).ww.bound = true ∧ ((writing q.1 q.2 free).getReg 1).toNat < 2 ^ 61 - 1 ∧
        WriterOk (writing q.1 q.2 free).ww ∧ Memory.wf (writing q.1 q.2 free).mem = true ∧
        64 ≤ q.2.avail.toNat + 61 ∧ PortAllows .write (writing q.1 q.2 free) q.2.addr 8) ∧
    AllOf refusals fun q =>
      (writing 0#64 fullWriter q.1).ww.bound = true ∧ ((writing 0#64 fullWriter q.1).getReg 1).toNat < 2 ^ 61 - 1 ∧
        WriterOk (writing 0#64 fullWriter q.1).ww ∧ Memory.wf (writing 0#64 fullWriter q.1).mem = true ∧
        64 ≤ (writing 0#64 fullWriter q.1).ww.avail.toNat + 61 ∧
        FirstRefused .write (writing 0#64 fullWriter q.1) (writing 0#64 fullWriter q.1).ww.addr 8 q.2 := by
  decide +kernel

/-- Unbound; no byte, one byte and eight bytes pending; the first and the last byte refused. -/
theorem witness_BwflushStoresThePendingBytes :
    (start []).bw.bound = false ∧
    (AllOf someWriters fun w => (writing 0#64 w free).bw.bound = true ∧ Memory.wf (writing 0#64 w free).mem = true ∧
      PortAllows .write (writing 0#64 w free) w.addr ((w.avail.toNat + 7) / 8)) ∧
    AllOf refusals fun q =>
      (writing 0#64 fullWriter q.1).bw.bound = true ∧ Memory.wf (writing 0#64 fullWriter q.1).mem = true ∧
        FirstRefused .write (writing 0#64 fullWriter q.1) (writing 0#64 fullWriter q.1).bw.addr
          (((writing 0#64 fullWriter q.1).bw.avail.toNat + 7) / 8) q.2 := by decide +kernel

theorem witness_WwflushStoresThePendingBytes :
    (start []).ww.bound = false ∧
    (AllOf someWriters fun w => (writing 0#64 w free).ww.bound = true ∧ Memory.wf (writing 0#64 w free).mem = true ∧
      PortAllows .write (writing 0#64 w free) w.addr ((w.avail.toNat + 7) / 8)) ∧
    AllOf refusals fun q =>
      (writing 0#64 fullWriter q.1).ww.bound = true ∧ Memory.wf (writing 0#64 fullWriter q.1).mem = true ∧
        FirstRefused .write (writing 0#64 fullWriter q.1) (writing 0#64 fullWriter q.1).ww.addr
          (((writing 0#64 fullWriter q.1).ww.avail.toNat + 7) / 8) q.2 := by decide +kernel

theorem witness_BwmaxbBoundsTheByteCount :
    (61 * ((start [(1, 0x2192E29F79B47581#64)]).getReg 1).toNat + 7) / 8 < 2 ^ 64 ∧
      2 ^ 64 ≤ (61 * ((start [(1, 0x2192E29F79B47582#64)]).getReg 1).toNat + 7) / 8 := by decide +kernel

/-- The ten bytes of W1 at 0x1000, registers 1 and 2 naming them, 6 a destination. -/
def codecStart : State := { start [(1, 0x1000#64), (2, 10#64), (6, 0x2000#64)] with mem := tenBytes }

theorem witness_ByteReaderEmitsTheElementStream :
    3#4 ≠ 0#4 ∧ codecStart.err = false ∧ (codecStart.getReg 1).toNat + (codecStart.getReg 2).toNat ≤ 2 ^ 64 ∧
      PortAllows .read codecStart (codecStart.getReg 1) (codecStart.getReg 2).toNat ∧
      ∃ t, exec (.brbegin 1 2) codecStart = .next t :=
  by refine ⟨?_, ?_, ?_, ?_, _, rfl⟩ <;> decide +kernel

theorem witness_WordReaderEmitsTheWordStream :
    3#4 ≠ 0#4 ∧ codecStart.err = false ∧ (codecStart.getReg 1).toNat + (codecStart.getReg 2).toNat ≤ 2 ^ 64 ∧
      PortAllows .read codecStart (codecStart.getReg 1) (codecStart.getReg 2).toNat ∧
      ∃ t, exec (.wrbegin 1 2) codecStart = .next t :=
  by refine ⟨?_, ?_, ?_, ?_, _, rfl⟩ <;> decide +kernel

theorem witness_ElementCountOfABuffer :
    (bufferElements eightOnes 0x1000#64 (8#64).toNat).count (2 ^ 60 - 1) = 1 := by decide +kernel

/-- The two elements of W1 and the placeholder. -/
def someElements : List Word := [0x0807060504030201#64, 0x5048#64, placeholder]

theorem test_someElements_canonical : ∀ v ∈ someElements, v.toNat < 2 ^ 61 - 1 := by simp [someElements, placeholder]

theorem witness_ByteWriterPacksItsElements :
    3#4 ≠ 0#4 ∧ 7#4 ≠ 0#4 ∧ codecStart.err = false ∧ Memory.wf codecStart.mem = true ∧
      (∀ v ∈ someElements, v.toNat < 2 ^ 61 - 1) ∧ (streamWidth byteWidth (someElements.map BitVec.toNat) + 7) / 8 = 23 ∧
      23 < 2 ^ 64 ∧ PortAllows .write codecStart (codecStart.getReg 6) 23 :=
  ⟨by decide +kernel, by decide +kernel, by decide +kernel, by decide +kernel, test_someElements_canonical,
    by decide +kernel⟩

theorem witness_WordWriterPacksItsWords :
    3#4 ≠ 0#4 ∧ 7#4 ≠ 0#4 ∧ codecStart.err = false ∧ Memory.wf codecStart.mem = true ∧
      (∀ v ∈ someElements, v.toNat < 2 ^ 61 - 1) ∧ (61 * someElements.length + 7) / 8 = 23 ∧
      23 < 2 ^ 64 ∧ PortAllows .write codecStart (codecStart.getReg 6) 23 :=
  ⟨by decide +kernel, by decide +kernel, by decide +kernel, by decide +kernel, test_someElements_canonical,
    by decide +kernel⟩

theorem witness_WordRoundTripReturnsTheWords :
    (3#4 ≠ 0#4 ∧ 8#4 ≠ 0#4 ∧ 7#4 ≠ 0#4 ∧ 6#4 ≠ 3#4 ∧ 6#4 ≠ 7#4) ∧ codecStart.err = false ∧
      Memory.wf codecStart.mem = true ∧ (∀ v ∈ someElements, v.toNat < 2 ^ 61 - 1) ∧
      (61 * someElements.length + 7) / 8 = 23 ∧ (codecStart.getReg 6).toNat + 23 ≤ 2 ^ 64 ∧ 23 < 2 ^ 64 ∧
      PortAllows .write codecStart (codecStart.getReg 6) 23 ∧ PortAllows .read codecStart (codecStart.getReg 6) 23 :=
  ⟨by decide +kernel, by decide +kernel, by decide +kernel, test_someElements_canonical, by decide +kernel⟩

theorem witness_ByteRoundTripReproducesTheBuffer :
    (3#4 ≠ 0#4 ∧ 7#4 ≠ 0#4) ∧ codecStart.err = false ∧ Memory.wf codecStart.mem = true ∧
      codecStart.getReg 1 = 0x1000#64 ∧ (codecStart.getReg 2).toNat = 10 ∧ codecStart.getReg 6 = 0x2000#64 ∧
      (0x1000#64).toNat + 10 ≤ 2 ^ 64 ∧ 10 + 8 < 2 ^ 64 ∧ 8 * 10 < 81 ∧ PortAllows .read codecStart 0x1000#64 10 ∧
      PortAllows .write codecStart 0x2000#64 (10 + 8) ∧
      (∀ j < 10, 10 + 8 ≤ (0x1000#64 + BitVec.ofNat 64 j - 0x2000#64).toNat) ∧
      ∃ t u, exec (.brbegin 1 2) codecStart = .next t ∧ exec (.bwbegin 6) t = .next u :=
  by refine ⟨?_, ?_, ?_, ?_, ?_, ?_, ?_, ?_, ?_, ?_, ?_, ?_, _, _, rfl, rfl⟩ <;> decide +kernel

/-- BRREAD of an element, of an exhausted reader, of an unbound one, and another command. -/
theorem witness_EmptyIsWrittenByBrreadOnly :
    (∃ t, exec (.brread 3) { codecStart with br := boundReader 10#64 } = .next t ∧ t.err = false ∧ t.empty = false) ∧
    (∃ t, exec (.brread 3) { codecStart with br := boundReader 0#64 } = .next t ∧ t.err = false ∧ t.empty = true) ∧
    (∃ t, exec (.brread 3) codecStart = .next t ∧ t.err = true) ∧
    (∃ t, exec (.pred 3 1) codecStart = .next t) ∧ codecStart.err = false :=
  ⟨⟨_, rfl, by decide +kernel⟩, ⟨_, rfl, by decide +kernel⟩, ⟨_, rfl, by decide +kernel⟩, ⟨_, rfl⟩, by decide +kernel⟩

theorem witness_DoneIsSetByCommandsAndSticky :
    (∃ t, exec (.pred 3 1) codecStart = .next t) ∧
    (codecStart.err = false ∧ ∃ t, codecStart.writeCmd 0x04400000#64 = .next t) ∧
    (failed.err = true ∧ ∃ t, failed.writeCmd 0x04400000#64 = .next t) ∧
    AllOf [HostEvent.hwReset, .write 0x010#12 8 8#64, .write 0x010#12 8 4#64, .store 0#64 [1#8]] fun e =>
      { failed with bus := [e] }.bus = e :: [] ∧ failed.done = true ∧
        (nextOf (step { failed with bus := [e] })).isSome = true :=
  ⟨⟨_, rfl⟩, ⟨by decide +kernel, _, rfl⟩, ⟨by decide +kernel, _, rfl⟩, by decide +kernel⟩

/-- A BEGIN that binds and one that fails, a flush that unbinds and one that fails, and an event that is neither a reset nor a
command. -/
theorem witness_BoundBitsFollowBeginAndFlush :
    (∃ t, exec (.brbegin 1 2) codecStart = .next t ∧ t.err = false) ∧
    (∃ t, exec (.wrbegin 1 1) (start [(1, m64)]) = .next t ∧ t.err = true) ∧
    (∃ t, exec (.bwflush 7) { codecStart with bw := Writer.bind 0#64 } = .next t ∧ t.err = false) ∧
    (∃ t, exec (.wwflush 7) codecStart = .next t ∧ t.err = true) ∧
    (∃ t, codecStart.writeCmd 0x04000001#64 = .next t ∧ cmdWellFormed 0x04000001#64 = false) ∧
    (∃ t, failed.writeCmd 0x40048000#64 = .next t ∧ failed.err = true) ∧
    ∃ t, { codecStart with bus := [.store 0#64 [1#8]] }.bus = HostEvent.store 0#64 [1#8] :: [] ∧
      ¬ IsReset (.store 0#64 [1#8]) ∧ ¬ IsCommand (.store 0#64 [1#8]) ∧
      step { codecStart with bus := [.store 0#64 [1#8]] } = .next t :=
  ⟨⟨_, rfl, by decide +kernel⟩, ⟨_, rfl, by decide +kernel⟩, ⟨_, rfl, by decide +kernel⟩, ⟨_, rfl, by decide +kernel⟩,
    ⟨_, rfl, by decide +kernel⟩, ⟨_, rfl, by decide +kernel⟩, ⟨_, rfl, by simp [IsReset], by simp [IsCommand], rfl⟩⟩

/-- A failed command of each error the decoder does not raise. -/
theorem witness_FailedCommandWritesNoRegister :
    (∃ t, exec (.fin 4 1) (start [(1, m64)]) = .next t ∧ t.ecode = .domain ∧ t.err = true) ∧
    (∃ t, exec (.brread 4) codecStart = .next t ∧ t.ecode = .notbound ∧ t.err = true) ∧
    (∃ t, exec (.bwwrite 4) { codecStart with bw := ⟨true, 0x3000#64, 0x3000#64, 5#64, 61#6⟩
                                              platform := refusing 0x3003#64 0x3003#64 } = .next t ∧
      t.ecode = .memfault ∧ t.err = true) ∧
    (∃ t, exec (.brread 4) (reading (boundReader 8#64) (refusing 0x1003#64 0x1003#64)) = .next t ∧
      t.ecode = .memfault ∧ t.err = true) ∧
    (∃ t, codecStart.writeCmd 0x04000001#64 = .next t ∧ cmdWellFormed 0x04000001#64 = false) ∧
    codecStart.err = false ∧ Memory.wf codecStart.mem = true :=
  ⟨⟨_, rfl, by decide +kernel⟩, ⟨_, rfl, by decide +kernel⟩, ⟨_, rfl, by decide +kernel⟩, ⟨_, rfl, by decide +kernel⟩,
    ⟨_, rfl, by decide +kernel⟩, by decide +kernel⟩

/-- The same, and a command on each unbound cursor. -/
theorem witness_EachCommandRaisesOnlyItsErrors :
    (∃ t, exec (.bwwrite 1) (start [(1, m64)]) = .next t ∧ t.err = true) ∧
    (∃ t, exec (.wwwrite 1) (start [(1, m64)]) = .next t ∧ t.err = true) ∧
    (∃ t, exec (.wrread 1) (start []) = .next t ∧ t.err = true) ∧
    (∃ t, exec (.mul 1 2 2) (start [(2, m64)]) = .next t ∧ t.err = true) ∧
    ((start [(1, m64)]).err = false ∧ (start [(1, m64)]).bw.bound = false ∧ (start [(1, m64)]).ww.bound = false) :=
  ⟨⟨_, rfl, by decide +kernel⟩, ⟨_, rfl, by decide +kernel⟩, ⟨_, rfl, by decide +kernel⟩, ⟨_, rfl, by decide +kernel⟩,
    by decide +kernel⟩

/-- The window at the first byte of an eight-byte access, and at its last: for each clause one state that meets all its
hypotheses. -/
theorem witness_OwnWindowAccessIsRefused :
    AllOf [(windowAt 0x1000#64, 0), (windowAt 0x1007#64, 7)] fun q =>
      ((reading (boundReader 8#64) q.1).br.bound = true ∧
        FirstInWindow .read (reading (boundReader 8#64) q.1) (reading (boundReader 8#64) q.1).br.addr
          (bytesToRead (reading (boundReader 8#64) q.1).br) q.2) ∧
      ((reading (boundReader 8#64) q.1).wr.bound = true ∧
        FirstInWindow .read (reading (boundReader 8#64) q.1) (reading (boundReader 8#64) q.1).wr.addr
          (bytesToRead (reading (boundReader 8#64) q.1).wr) q.2) ∧
      ((writing 0#64 fullWriter q.1).bw.bound = true ∧ ((writing 0#64 fullWriter q.1).getReg 1).toNat < 2 ^ 61 - 1 ∧
        64 ≤ (writing 0#64 fullWriter q.1).bw.avail.toNat + byteWidth ((writing 0#64 fullWriter q.1).getReg 1).toNat ∧
        FirstInWindow .write (writing 0#64 fullWriter q.1) (writing 0#64 fullWriter q.1).bw.addr 8 q.2) ∧
      ((writing 0#64 fullWriter q.1).ww.bound = true ∧ ((writing 0#64 fullWriter q.1).getReg 1).toNat < 2 ^ 61 - 1 ∧
        64 ≤ (writing 0#64 fullWriter q.1).ww.avail.toNat + 61 ∧
        FirstInWindow .write (writing 0#64 fullWriter q.1) (writing 0#64 fullWriter q.1).ww.addr 8 q.2) ∧
      FirstInWindow .write (writing 0#64 fullWriter q.1) (writing 0#64 fullWriter q.1).bw.addr
        (((writing 0#64 fullWriter q.1).bw.avail.toNat + 7) / 8) q.2 ∧
      FirstInWindow .write (writing 0#64 fullWriter q.1) (writing 0#64 fullWriter q.1).ww.addr
        (((writing 0#64 fullWriter q.1).ww.avail.toNat + 7) / 8) q.2 := by decide +kernel

theorem witness_CommandsUseOnlyTheirOwnState :
    usesBr (.brmaxw 1 1) = false ∧ usesBw (.brread 1) = false ∧ usesWr (.wcount 1 1) = false ∧
      usesWw (.bwflush 1) = false ∧ usesMemory (.wwbegin 1) = false := by decide +kernel

/-- The invariants together, in a state in the middle of all four streams, and a step from it. -/
theorem witness_EveryStepKeepsTheCursorInvariant :
    ∃ s t : State, CursorsOk s ∧ Memory.wf s.mem = true ∧ ErrorRecordOk s ∧ BuffersOk s ∧ s.busy = false ∧
      s.br.avail = 3#8 ∧ s.wr.avail = 0xC4#8 ∧ s.bw.avail = 58#6 ∧ step s = .next t ∧ t.br ≠ s.br :=
  ⟨withCmd { codecStart with
      br := ⟨true, 0x1008#64, 2#64, 0#64, 3#8⟩
      bw := ⟨true, 0x2008#64, 0x2000#64, 0x0A09#64, 58#6⟩
      wr := ⟨true, 0x1000#64, 0#64, 0#64, 0xC4#8⟩
      ww := ⟨true, 0x2000#64, 0x2000#64, 1#64, 61#6⟩ } 0x44C00000#64,
    _, by refine ⟨?_, ?_, ?_, ?_, ?_, ?_, ?_, ?_, rfl, ?_⟩ <;> decide +kernel⟩

theorem witness_EveryStepKeepsMemoryCanonical :
    ∃ s t : State, Memory.wf s.mem = true ∧ step s = .next t ∧ t.mem ≠ s.mem :=
  ⟨{ codecStart with bus := [.store 0x1002#64 [0#8, 7#8]] }, _, by decide +kernel, rfl, by decide +kernel⟩

theorem witness_EveryStepKeepsTheErrorRecordAndBuffers :
    ∃ s t : State, step s = .next t ∧ ErrorRecordOk s ∧ s.busy = false ∧ BuffersOk s ∧ CursorsOk s ∧ s.err = true :=
  ⟨{ failed with bus := [.write 0x010#12 8 4#64] }, _, rfl, by decide +kernel⟩

theorem witness_RaceTouchesOnlyTheRacedBytes :
    Memory.wf codecStart.mem = true ∧
      { codecStart with bus := [.racedCmd 0x04400000#64 [0x1000#64]] }.bus =
        HostEvent.racedCmd 0x04400000#64 [0x1000#64] :: [] ∧
      ∃ t, step { codecStart with bus := [.racedCmd 0x04400000#64 [0x1000#64]] } = .next t :=
  ⟨by decide +kernel, rfl, _, rfl⟩

/-- W1's flush, abandoned. -/
def abandoning : State :=
  { codecStart with bw := ⟨true, 0x2008#64, 0x2000#64, 0x0A09#64, 58#6⟩, bus := [.abandonedCmd 0x59C00000#64] }

theorem witness_AbandonedCommandLeavesAPrefixOfItsWrite :
    Memory.wf abandoning.mem = true ∧ abandoning.bus = .abandonedCmd 0x59C00000#64 :: [] ∧
      decode 0x59C00000#64 = .instr (.bwflush 7) ∧
      ∃ u, State.writeCmd { abandoning with bus := [] } 0x59C00000#64 = .next u :=
  ⟨by decide +kernel, rfl, by decide +kernel, _, rfl⟩

/-- A read of each kind of register during PRED f1, f0. -/
def polling (off : BitVec 12) : State := { codecStart with bus := [.polledCmd 0x04400000#64 off] }

theorem witness_ReadDuringACommandSeesNoHalfState :
    (AllOf [0x000#12, 0x010#12, 0x100#12, 0x178#12, 0x200#12, 0x278#12] fun off => off.toNat % 8 = 0 ∧
      (polling off).err = false ∧ (polling off).bus = .polledCmd 0x04400000#64 off :: []) ∧
      ∀ off, ∃ u, State.writeCmd { polling off with bus := [] } 0x04400000#64 = .next u :=
  ⟨by decide +kernel, fun _ => ⟨_, rfl⟩⟩

/-- A store of three bytes over the end of the address space, and one of none. -/
theorem witness_HostStoreWritesItsBytes :
    AllOf [(m64 - 1#64, [1#8, 0#8, 3#8]), (0#64, [])] fun q => Memory.wf codecStart.mem = true ∧
      { codecStart with bus := [.store q.1 q.2] }.bus = .store q.1 q.2 :: [] ∧ q.2.length ≤ 2 ^ 64 := by decide +kernel

end Sys2Proof.Tests
end

section
/-! PROOFS. The host's register window and one event of the outside world: what each can do to the state, said once (spec
`10_state.md` R23–R45). -/

namespace Sys2Proof.Machine

open Sys2Proof.Safety

/-! ### One step, and one host access -/

theorem step_cons {s : State} {e : HostEvent} {rest : List HostEvent} (h : s.bus = e :: rest) :
    step s = { s with bus := rest }.perform e := by
  rw [step, h]

theorem windowAdmits_eight {off : BitVec 12} (h : off.toNat % 8 = 0) : windowAdmits off 8 = true := by
  simp [windowAdmits, h]

theorem step_write {s : State} {off : BitVec 12} {v : Word} {rest : List HostEvent} (ha : off.toNat % 8 = 0)
    (h : s.bus = .write off 8 v :: rest) : step s = { s with bus := rest }.windowWrite off v := by
  rw [step_cons h, State.perform, if_pos (windowAdmits_eight ha)]

theorem step_read {s : State} {off : BitVec 12} {rest : List HostEvent} (ha : off.toNat % 8 = 0)
    (h : s.bus = .read off 8 :: rest) :
    step s = .next ({ s with bus := rest }.reply ({ s with bus := rest }.windowRead off)) := by
  rw [step_cons h, State.perform, if_pos (windowAdmits_eight ha)]

/-! ### The register map -/

section RegisterMap

variable (s : State) (v : Word)

theorem State.windowRead_ctrl : s.windowRead 0x008#12 = s.ctrlWord := rfl
theorem State.windowRead_status : s.windowRead 0x010#12 = s.statusWord := rfl
theorem State.windowWrite_ctrl : s.windowWrite 0x008#12 v = .next (s.writeCtrl v) := rfl
theorem State.windowWrite_status : s.windowWrite 0x010#12 v = .next (s.writeStatus v) := rfl
theorem State.windowWrite_cmd : s.windowWrite 0x018#12 v = s.writeCmd v := rfl

/-- Data register `r` stands at 0x100 + 8r (R23). -/
theorem dataRegAt_ofNat (r : Reg) : dataRegAt (BitVec.ofNat 12 (0x100 + 8 * r.toNat)) = some r := by
  revert r; decide

theorem dataRegOffset_aligned (r : Reg) : (BitVec.ofNat 12 (0x100 + 8 * r.toNat)).toNat % 8 = 0 := by
  revert r; decide

/-- The data registers stand in 0x100 to 0x17F. -/
theorem dataRegAt_eq_none {off : BitVec 12} (h : off.toNat < 0x100 ∨ 0x17F < off.toNat) : dataRegAt off = none := by
  refine if_neg fun h2 => ?_
  have hn := congrArg BitVec.toNat h2
  simp only [BitVec.extractLsb'_toNat, Nat.shiftRight_eq_div_pow, BitVec.toNat_ofNat] at hn
  have := off.isLt
  omega

theorem State.windowWrite_dataReg (r : Reg) :
    s.windowWrite (BitVec.ofNat 12 (0x100 + 8 * r.toNat)) v = .next (s.setReg r v) := by
  rw [State.windowWrite, dataRegAt_ofNat]

theorem dataRegAt_reserved {off : BitVec 12} (h : ReservedOffset off) : dataRegAt off = none := by
  obtain ⟨haligned, -, hdata⟩ := h
  exact dataRegAt_eq_none (by omega)

/-- Everything a host write to the window can do (R23). -/
theorem State.windowWrite_cases (off : BitVec 12) :
    (∃ r, dataRegAt off = some r ∧ s.windowWrite off v = .next (s.setReg r v)) ∨
    (off = 0x008#12 ∧ s.windowWrite off v = .next (s.writeCtrl v)) ∨
    (off = 0x010#12 ∧ s.windowWrite off v = .next (s.writeStatus v)) ∨
    (off = 0x018#12 ∧ s.windowWrite off v = s.writeCmd v) ∨
    s.windowWrite off v = .next s := by
  cases hd : dataRegAt off with
  | some r => exact .inl ⟨r, rfl, by rw [State.windowWrite, hd]⟩
  | none =>
    simp only [State.windowWrite, hd]
    split
    next h => exact .inr (.inl ⟨BitVec.eq_of_toNat_eq h, rfl⟩)
    next h => exact .inr (.inr (.inl ⟨BitVec.eq_of_toNat_eq h, rfl⟩))
    next h => exact .inr (.inr (.inr (.inl ⟨BitVec.eq_of_toNat_eq h, rfl⟩)))
    next => exact .inr (.inr (.inr (.inr rfl)))

/-- A write to a reserved offset is ignored (R45). -/
theorem State.windowWrite_reserved {off : BitVec 12} (h : ReservedOffset off) : s.windowWrite off v = .next s := by
  obtain ⟨r, hr, -⟩ | ⟨rfl, -⟩ | ⟨rfl, -⟩ | ⟨rfl, -⟩ | hw := s.windowWrite_cases v off
  · exact absurd hr (by simp [dataRegAt_reserved h])
  · exact absurd h (by decide)
  · exact absurd h (by decide)
  · exact absurd h (by decide)
  · exact hw

/-- A reserved offset reads 0 (R45): it is none of the offsets `windowRead` names. -/
theorem State.windowRead_reserved {off : BitVec 12} (h : ReservedOffset off) : s.windowRead off = 0#64 := by
  have hnamed : off.toNat ∉ namedOffsets := h.2.1
  simp only [namedOffsets, readOnlyOffsets, List.cons_append, List.nil_append, List.mem_cons, not_or] at hnamed
  simp only [State.windowRead, dataRegAt_reserved h]
  split <;> simp_all only [not_true_eq_false, false_and, and_false]

end RegisterMap
end Sys2Proof.Machine
end

section
/-! PROOFS. STATUS and CTRL bit by bit, what writing them changes, and the values reset leaves (spec `10_state.md` R25, R26,
R33, R37, R46). -/

namespace Sys2Proof.Machine

open Sys2Proof.Safety

section Flags

variable (s : State) (v : Word)

/-! ### The bits the host reads -/

theorem getLsbD_bitAt (b : Bool) {pos k : Nat} (hpos : pos < 64) :
    (bitAt b pos).getLsbD k = (k == pos && b) := by
  simp only [bitAt, BitVec.getLsbD_shiftLeft, BitVec.getLsbD_setWidth, BitVec.getLsbD_ofBool]
  rw [Bool.eq_iff_iff]
  simp only [Bool.and_eq_true, decide_eq_true_eq, Bool.not_eq_true', decide_eq_false_iff_not, beq_iff_eq]
  grind

/-- CTRL bit by bit (R25). -/
theorem State.getLsbD_ctrlWord (k : Nat) : s.ctrlWord.getLsbD k = (k == 0 && s.eie || k == 1 && s.die) := by
  simp [State.ctrlWord, getLsbD_bitAt]

/-- STATUS bit by bit (R26). -/
theorem State.getLsbD_statusWord {k : Nat} (hk : k < 64) :
    s.statusWord.getLsbD k =
      (k == 0 && s.busy || k == 1 && s.empty || k == 2 && s.err || k == 3 && s.done ||
        (decide (4 ≤ k) && s.ecode.code.getLsbD (k - 4)) ||
        k == 8 && s.br.bound || k == 9 && s.bw.bound || k == 10 && s.wr.bound || k == 11 && s.ww.bound) := by
  have hcode : (s.ecode.code.setWidth 64 <<< 4).getLsbD k = (decide (4 ≤ k) && s.ecode.code.getLsbD (k - 4)) := by
    have hle : decide (k < 64) = true := by simpa using hk
    have hlt : decide (k - 4 < 64) = true := by simp; omega
    simp only [BitVec.getLsbD_shiftLeft, BitVec.getLsbD_setWidth, hle, hlt, Bool.true_and]
    rw [← decide_not, decide_eq_decide.2 Nat.not_lt]
  simp [State.statusWord, getLsbD_bitAt, hcode]

/-- What CTRL reads back after its enables were set from `v` (R25). -/
theorem State.ctrlWord_of_enables {s : State} {v : Word} (he : s.eie = v.getLsbD 0) (hd : s.die = v.getLsbD 1) :
    s.ctrlWord = v &&& 3#64 := by
  have hthree : ∀ k < 64, (3#64).getLsbD k = (k == 0 || k == 1) := by decide
  apply BitVec.eq_of_getLsbD_eq
  intro k hk
  rw [State.getLsbD_ctrlWord, BitVec.getLsbD_and, hthree k hk, he, hd]
  obtain rfl | rfl | h : k = 0 ∨ k = 1 ∨ 2 ≤ k := by omega
  · simp
  · simp
  · have h0 : (k == 0) = false := by simp; omega
    have h1 : (k == 1) = false := by simp; omega
    simp [h0, h1]

/-! ### Writing STATUS -/

theorem State.writeStatus_done : (s.writeStatus v).done = (s.done && !v.getLsbD 3) := by
  unfold State.writeStatus; cases v.getLsbD 2 <;> cases v.getLsbD 3 <;> simp

theorem State.writeStatus_clears (h : v.getLsbD 2 = true) :
    (s.writeStatus v).err = false ∧ (s.writeStatus v).ecode = .none ∧ (s.writeStatus v).faultCmd = 0#64 ∧
      (s.writeStatus v).faultAddr = 0#64 := by
  unfold State.writeStatus; rw [h]; cases v.getLsbD 3 <;> exact ⟨rfl, rfl, rfl, rfl⟩

theorem State.writeStatus_keepsRecord (h : v.getLsbD 2 = false) : SameErrorRecord s (s.writeStatus v) := by
  unfold State.writeStatus; rw [h]; cases v.getLsbD 3 <;> exact ⟨rfl, rfl, rfl, rfl⟩

theorem State.writeStatus_keepsDone (hv : v.getLsbD 3 = false) (hdone : s.done = true) :
    (s.writeStatus v).done = true := by
  rw [State.writeStatus_done, hv, hdone]; rfl

/-- What every write to STATUS keeps (R33). -/
theorem State.writeStatus_frame :
    (s.writeStatus v).busy = s.busy ∧ (s.writeStatus v).empty = s.empty ∧ SameControl s (s.writeStatus v) ∧
      SameCursors s (s.writeStatus v) ∧ SameRegs s (s.writeStatus v) ∧ SameMemory s (s.writeStatus v) ∧
      SameWorld s (s.writeStatus v) := by
  unfold State.writeStatus
  cases v.getLsbD 2 <;> cases v.getLsbD 3 <;>
    exact ⟨rfl, rfl, ⟨rfl, rfl⟩, ⟨rfl, rfl, rfl, rfl⟩, fun _ => rfl, fun _ => rfl, rfl, rfl, rfl, rfl⟩

/-! ### Writing CTRL -/

theorem State.writeCtrl_reset (h : v.getLsbD 2 = true) : s.writeCtrl v = s.applyReset := if_pos h

theorem State.writeCtrl_enables (h : v.getLsbD 2 = false) :
    s.writeCtrl v = { s with eie := v.getLsbD 0, die := v.getLsbD 1 } := by
  rw [State.writeCtrl, h]; rfl

/-! ### Reset -/

/-- The values R46 lists for the registers of the unit and the interrupt line. -/
structure HoldsResetValues (t : State) : Prop where
  regs : ∀ r : Reg, t.getReg r = 0#64
  id : t.windowRead 0x000#12 = 0x4650363100000007#64
  ctrl : t.windowRead 0x008#12 = 0#64
  status : t.windowRead 0x010#12 = 0#64
  faultCmd : t.faultCmd = 0#64
  faultAddr : t.faultAddr = 0#64
  br : t.br = ⟨false, 0#64, 0#64, 0#64, 0#8⟩
  bw : t.bw = ⟨false, 0#64, 0#64, 0#64, 0#6⟩
  wr : t.wr = ⟨false, 0#64, 0#64, 0#64, 0#8⟩
  ww : t.ww = ⟨false, 0#64, 0#64, 0#64, 0#6⟩
  irq : t.irq = false

theorem State.applyReset_holdsResetValues : HoldsResetValues s.applyReset where
  regs r := (State.getReg_congr _ _ s.applyReset_regs r).trans (State.getReg_reset r)
  id := rfl
  ctrl := by simp [State.windowRead_ctrl, State.ctrlWord, bitAt]
  status := by simp [State.windowRead_status, State.statusWord, bitAt, Reader.reset, Writer.reset, ECode.code]
  faultCmd := rfl
  faultAddr := rfl
  br := rfl
  bw := rfl
  wr := rfl
  ww := rfl
  irq := rfl

/-- The start state holds what a reset of it would leave. -/
theorem State.reset_holdsResetValues : HoldsResetValues State.reset := State.reset.applyReset_holdsResetValues

end Flags
end Sys2Proof.Machine
end

section
/-! PROOFS. A CMD write and every other event: what each can do to the flags and the cursors, said once (spec `10_state.md`
R29, R30, R32, R36; `30_encoding.md` R81). -/

namespace Sys2Proof

/-- What the last two checks of R81 accept. -/
theorem checkedFields_eq_instr {c : CmdWord} {unused : List Reg} {i j : Instr} :
    checkedFields c unused i = .instr j ↔ rsvOf c = 0#6 ∧ (∀ r ∈ unused, r = 0#4) ∧ i = j := by
  simp only [checkedFields]
  split_ifs with hrsv hun
  · simp [hrsv]
  · simp only [List.any_eq_true, decide_eq_true_eq] at hun
    obtain ⟨r, hr, hne⟩ := hun
    exact iff_of_false (by simp) fun ⟨_, hz, _⟩ => hne (hz r hr)
  · have hz : ∀ r ∈ unused, r = 0#4 := by simpa using hun
    simp [not_not.1 hrsv, eq_true hz]

theorem opcOf_eq_of_toNat {c : CmdWord} {n : Nat} (h : (opcOf c).toNat = n) : opcOf c = BitVec.ofNat 6 n := by
  subst h; simp

/-- A command word that decodes is the encoding of its command: its fields are the command's, and the others are 0. -/
theorem eq_encode_of_decodeWord {c : CmdWord} {i : Instr} (h : decodeWord c = .instr i) : c = encode i := by
  simp only [decodeWord] at h
  split at h
  case h_20 => cases h
  all_goals
    next hopc =>
    obtain ⟨hrsv, hun, rfl⟩ := checkedFields_eq_instr.1 h
    refine (eq_allFields c).trans ?_
    simp_all [opcOf_eq_of_toNat hopc, encode, packFields_eq]

/-- The encoding of every command is a well-formed command word. -/
theorem wellFormed_encode (i : Instr) : CmdWord.wellFormed (encode i) = true := by
  cases i with
  | pred rd rs1 => exact Laws.EncodeWellFormed.pred rd rs1
  | fin rd rs1 => exact Laws.EncodeWellFormed.fin rd rs1
  | add4 rd rs1 rs2 rs3 rs4 => exact Laws.EncodeWellFormed.add4 rd rs1 rs2 rs3 rs4
  | neg rd rs1 => exact Laws.EncodeWellFormed.neg rd rs1
  | mul rd rs1 rs2 => exact Laws.EncodeWellFormed.mul rd rs1 rs2
  | inv rd rs1 => exact Laws.EncodeWellFormed.inv rd rs1
  | brbegin rs1 rs2 => exact Laws.EncodeWellFormed.brbegin rs1 rs2
  | brread rd => exact Laws.EncodeWellFormed.brread rd
  | brmaxw rd rs1 => exact Laws.EncodeWellFormed.brmaxw rd rs1
  | bwbegin rs1 => exact Laws.EncodeWellFormed.bwbegin rs1
  | bwwrite rs1 => exact Laws.EncodeWellFormed.bwwrite rs1
  | bwflush rd => exact Laws.EncodeWellFormed.bwflush rd
  | bwmaxb rd rs1 => exact Laws.EncodeWellFormed.bwmaxb rd rs1
  | wrbegin rs1 rs2 => exact Laws.EncodeWellFormed.wrbegin rs1 rs2
  | wrread rd => exact Laws.EncodeWellFormed.wrread rd
  | wcount rd rs1 => exact Laws.EncodeWellFormed.wcount rd rs1
  | wwbegin rs1 => exact Laws.EncodeWellFormed.wwbegin rs1
  | wwwrite rs1 => exact Laws.EncodeWellFormed.wwwrite rs1
  | wwflush rd => exact Laws.EncodeWellFormed.wwflush rd

/-- A CMD value decodes only when its upper half is zero, and then as its lower half does (R81). -/
theorem decode_eq_instr {v : Word} {i : Instr} :
    decode v = .instr i ↔ v.extractLsb' 32 32 = 0#32 ∧ decodeWord (v.setWidth 32) = .instr i := by
  rw [decode]
  split_ifs with h
  · exact iff_of_false (by simp) fun ⟨hz, _⟩ => h hz
  · simp [not_not.1 h]

/-- A CMD value that decodes is one the opcode table accepts. -/
theorem cmdWellFormed_of_decode {v : Word} {i : Instr} (h : decode v = .instr i) : cmdWellFormed v = true := by
  obtain ⟨hupper, hword⟩ := decode_eq_instr.1 h
  rw [cmdWellFormed, hupper, eq_encode_of_decodeWord hword, wellFormed_encode]
  rfl

end Sys2Proof
end

section
/-! PROOFS. A CMD write and every other event: what each can do to the flags and the cursors, said once (spec `10_state.md`
R28–R33, R36; `70_reset_and_hazards.md` R280). -/

namespace Sys2Proof.Machine

open Sys2Proof.Safety

/-! ### A command -/

/-- Every command that answers a next state has set DONE (R30). -/
theorem exec_done {i : Instr} {s t : State} (h : exec i s = .next t) : t.done = true := by
  obtain ⟨m, e, info, rfl, -⟩ | ⟨br, bw, wr, ww, empty, m, rd, v, rfl, -⟩ := exec_cases h <;> rfl

/-- From a unit in service, ERR after a command tells the two ways it can end apart: an error kept every cursor and EMPTY. -/
theorem exec_of_err {i : Instr} {s t : State} (h : exec i s = .next t) (hs : s.err = false) (ht : t.err = true) :
    SameCursors s t ∧ t.empty = s.empty := by
  obtain ⟨m, e, info, rfl, -⟩ | ⟨br, bw, wr, ww, empty, m, rd, v, rfl, -⟩ := exec_cases h
  · exact ⟨⟨rfl, rfl, rfl, rfl⟩, rfl⟩
  · exact absurd (hs.symm.trans ht) (by decide)

/-- Only BRREAD writes EMPTY (R28). -/
theorem exec_empty {i : Instr} {s t : State} (h : exec i s = .next t) (hi : ∀ rd, i ≠ .brread rd) :
    t.empty = s.empty := by
  obtain ⟨m, e, info, rfl, -⟩ | ⟨br, bw, wr, ww, empty, m, rd, v, rfl, -, -, -, -, hempty, -⟩ := exec_cases h
  · rfl
  · exact hempty hi

/-- A command changes only a cursor that it uses (R42). -/
theorem exec_unusedCursors {i : Instr} {s t : State} (h : exec i s = .next t) :
    (usesBr i = false → t.br = s.br) ∧ (usesBw i = false → t.bw = s.bw) ∧ (usesWr i = false → t.wr = s.wr) ∧
      (usesWw i = false → t.ww = s.ww) := by
  obtain ⟨m, e, info, rfl, -⟩ | ⟨br, bw, wr, ww, empty, m, rd, v, rfl, hbr, hbw, hwr, hww, -⟩ := exec_cases h
  · exact ⟨fun _ => rfl, fun _ => rfl, fun _ => rfl, fun _ => rfl⟩
  · exact ⟨hbr, hbw, hwr, hww⟩

/-! ### A CMD write -/

/-- While ERR = 1 a CMD write is discarded (R29). -/
theorem State.writeCmd_of_err {s : State} {v : Word} (h : s.err = true) : s.writeCmd v = .next s := if_pos h

/-- Everything a CMD write can do: it is discarded, runs the command it decodes to, or raises ILLEGAL (R29, R36, R250). -/
theorem State.writeCmd_cases {s t : State} {v : Word} (h : s.writeCmd v = .next t) :
    (s.err = true ∧ t = s) ∨
    (s.err = false ∧ ∃ i, decode v = .instr i ∧ exec i s.accept = .next t) ∨
    (s.err = false ∧ (∃ why, decode v = .illegal why) ∧ t = s.accept.raise .illegal v 0#64) := by
  rw [State.writeCmd] at h
  split_ifs at h with herr
  · injection h with h
    exact .inl ⟨herr, h.symm⟩
  · simp only [Bool.not_eq_true] at herr
    cases hd : decode v with
    | instr i =>
      rw [hd] at h
      exact .inr (.inl ⟨herr, i, rfl, h⟩)
    | illegal why =>
      rw [hd] at h
      injection h with h
      exact .inr (.inr ⟨herr, ⟨why, rfl⟩, h.symm⟩)

/-- A CMD write from a unit in service sets DONE (R30). -/
theorem State.writeCmd_done {s t : State} {v : Word} (h : s.writeCmd v = .next t) (herr : s.err = false) :
    t.done = true := by
  obtain ⟨he, -⟩ | ⟨-, i, -, hexec⟩ | ⟨-, -, rfl⟩ := State.writeCmd_cases h
  · exact absurd (herr.symm.trans he) (by decide)
  · exact exec_done hexec
  · rfl

/-- No CMD write clears DONE (R30). -/
theorem State.writeCmd_keepsDone {s t : State} {v : Word} (h : s.writeCmd v = .next t) (hdone : s.done = true) :
    t.done = true := by
  cases herr : s.err with
  | false => exact State.writeCmd_done h herr
  | true =>
    rw [State.writeCmd_of_err herr] at h
    injection h with h
    exact h ▸ hdone

/-- A CMD value that is discarded or does not decode changes no cursor (R29, R250). -/
theorem State.writeCmd_sameCursors {s t : State} {v : Word} (h : s.writeCmd v = .next t)
    (hv : s.err = true ∨ cmdWellFormed v = false) : SameCursors s t := by
  obtain ⟨-, rfl⟩ | ⟨herr, i, hdec, -⟩ | ⟨-, -, rfl⟩ := State.writeCmd_cases h
  · exact ⟨rfl, rfl, rfl, rfl⟩
  · rw [herr, cmdWellFormed_of_decode hdec] at hv
    exact absurd hv (by decide)
  · exact ⟨rfl, rfl, rfl, rfl⟩

/-! ### Any event -/

/-- ERR, DONE and the four cursors are kept. -/
structure SameFlagsAndCursors (s t : State) : Prop where
  err : t.err = s.err
  done : t.done = s.done
  cursors : SameCursors s t

theorem SameFlagsAndCursors.refl (s : State) : SameFlagsAndCursors s s := ⟨rfl, rfl, rfl, rfl, rfl, rfl⟩

/-- Free bytes written by other agents change memory and the count of free values only (R73(c)). -/
theorem State.havoc_eq (s : State) (racing : List Word) :
    ∃ m n, s.havoc racing = { s with mem := m, freeCount := n } := by
  induction racing generalizing s with
  | nil => exact ⟨s.mem, s.freeCount, rfl⟩
  | cons a rest ih =>
    obtain ⟨m, n, h⟩ := ih { s with mem := s.mem.setByte a.toNat (Config.freeByte s.freeCount), freeCount := s.freeCount + 1 }
    exact ⟨m, n, h⟩

theorem State.havoc_sameFlagsAndCursors (s : State) (racing : List Word) :
    SameFlagsAndCursors s (s.havoc racing) := by
  obtain ⟨m, n, h⟩ := s.havoc_eq racing
  rw [h]
  exact ⟨rfl, rfl, rfl, rfl, rfl, rfl⟩

/-- A command during which the host polls is that command and a reply (R286). -/
theorem State.polled_next {s t : State} {v : Word} {off : BitVec 12} (h : s.polled v off = .next t) :
    ∃ u w, s.writeCmd v = .next u ∧ t = u.reply w := by
  unfold State.polled at h
  cases hu : s.writeCmd v with
  | next u =>
    simp only [hu] at h
    split_ifs at h <;> injection h with h <;> exact ⟨u, _, rfl, h.symm⟩
  | fault r => simp only [hu] at h; cases h
  | refused r => simp only [hu] at h; cases h

/-- A raced command is that command between two writes of free bytes (R73(c)). -/
theorem State.raced_next {s t : State} {v : Word} {racing : List Word} (h : s.raced v racing = .next t) :
    ∃ u, (s.havoc racing).writeCmd v = .next u ∧ t = u.havoc racing := by
  unfold State.raced at h
  cases hu : (s.havoc racing).writeCmd v with
  | next u => simp only [hu] at h; injection h with h; exact ⟨u, rfl, h.symm⟩
  | fault r => simp only [hu] at h; cases h
  | refused r => simp only [hu] at h; cases h

/-- What an event that is performed did to ERR, DONE and the cursors: it was a reset, a write to STATUS, a CMD write between
changes that keep them, or it kept them. -/
theorem State.perform_cases {s t : State} {e : HostEvent} (h : s.perform e = .next t) :
    IsReset e ∨ (∃ v, e = .write 0x010#12 8 v ∧ t = s.writeStatus v) ∨
    (IsCommand e ∧ ∃ s' t' v, SameFlagsAndCursors s s' ∧ s'.writeCmd v = .next t' ∧ SameFlagsAndCursors t' t) ∨
    SameFlagsAndCursors s t := by
  cases e with
  | write off nbytes v =>
    simp only [State.perform] at h
    split_ifs at h with hadmit
    have hn : nbytes = 8 := by
      simp only [windowAdmits, Bool.and_eq_true, decide_eq_true_eq] at hadmit
      exact hadmit.1
    subst hn
    obtain ⟨r, -, hw⟩ | ⟨rfl, hw⟩ | ⟨rfl, hw⟩ | ⟨rfl, hw⟩ | hw := s.windowWrite_cases v off
    · injection hw.symm.trans h with h
      exact .inr (.inr (.inr (h ▸ ⟨rfl, rfl, rfl, rfl, rfl, rfl⟩)))
    · injection hw.symm.trans h with h
      cases hv : v.getLsbD 2 with
      | true => exact .inl (.inr (.inr ⟨v, hv, rfl⟩))
      | false =>
        rw [s.writeCtrl_enables v hv] at h
        exact .inr (.inr (.inr (h ▸ ⟨rfl, rfl, rfl, rfl, rfl, rfl⟩)))
    · injection hw.symm.trans h with h
      exact .inr (.inl ⟨v, rfl, h.symm⟩)
    · exact .inr (.inr (.inl ⟨.inl ⟨v, rfl⟩, s, t, v, .refl s, hw.symm.trans h, .refl t⟩))
    · injection hw.symm.trans h with h
      exact .inr (.inr (.inr (h ▸ .refl s)))
  | read off nbytes =>
    simp only [State.perform] at h
    split_ifs at h
    injection h with h
    exact .inr (.inr (.inr (h ▸ ⟨rfl, rfl, rfl, rfl, rfl, rfl⟩)))
  | store a bytes =>
    injection h with h
    exact .inr (.inr (.inr (h ▸ ⟨rfl, rfl, rfl, rfl, rfl, rfl⟩)))
  | hwReset => exact .inl (.inl rfl)
  | polledCmd v off =>
    simp only [State.perform] at h
    split_ifs at h
    obtain ⟨u, w, hu, rfl⟩ := State.polled_next h
    exact .inr (.inr (.inl ⟨.inr (.inl ⟨v, off, rfl⟩), s, u, v, .refl s, hu, rfl, rfl, rfl, rfl, rfl, rfl⟩))
  | racedCmd v racing =>
    obtain ⟨u, hu, rfl⟩ := State.raced_next h
    exact .inr (.inr (.inl ⟨.inr (.inr (.inl ⟨v, racing, rfl⟩)), s.havoc racing, u, v,
      s.havoc_sameFlagsAndCursors racing, hu, u.havoc_sameFlagsAndCursors racing⟩))
  | abandonedCmd v => exact .inl (.inr (.inl ⟨v, rfl⟩))

end Sys2Proof.Machine
end

section
/-! PROOFS. The BOUND bit of each cursor and EMPTY after a command (spec `10_state.md` R28, R32). -/

namespace Sys2Proof.Machine

open Sys2Proof.Safety

/-! ### What the shared cursor operations do to BOUND -/

theorem Writer.put_bound {p : Platform} {m m' : Memory} {w w' : Writer} {v : Word} {wid : Nat}
    (h : w.put p m v wid = .stored m' w') : w'.bound = w.bound := by
  simp only [Writer.put] at h
  split_ifs at h
  · split at h <;> cases h
    rfl
  · cases h
    rfl

theorem Writer.flush_bound {p : Platform} {m m' : Memory} {w w' : Writer} (h : w.flush p m = .stored m' w') :
    w'.bound = false := by
  simp only [Writer.flush] at h
  split at h <;> cases h
  rfl

/-- A reader answers that it is exhausted exactly when it is (R175, R225). -/
theorem Reader.pull_eq_exhausted_iff {p : Platform} {m : Memory} {r : Reader} :
    r.pull p m = .exhausted ↔ Exhausted r := by
  refine ⟨fun h => ?_, Reader.pull_exhausted⟩
  simp only [Reader.pull] at h
  split_ifs at h with hheld hex
  · exact hex
  · split at h <;> cases h

/-- A command the memory port stopped answers a next state only with ERR set. -/
theorem State.portStop_err {s t : State} {i : Instr} {stop : PortStop} (h : s.portStop i stop = .next t) :
    t.err = true := by
  cases stop <;> cases h
  rfl

/-! ### The readers -/

/-- What BRREAD and its reader say of EMPTY and BOUND when it raised no error (R28). -/
theorem execBrread_of_ok {rd : Reg} {s t : State} (h : execBrread rd s = .next t) (ht : t.err = false) :
    t.br.bound = s.br.bound ∧ (t.empty = true ↔ Exhausted s.br) := by
  have hstop : t.err ≠ true := by simp [ht]
  simp only [execBrread] at h
  split_ifs at h
  · split at h
    next hpull =>
      cases h
      exact ⟨rfl, iff_of_true rfl (Reader.pull_eq_exhausted_iff.1 hpull)⟩
    next => exact absurd (State.portStop_err h) hstop
    next e hpull =>
      cases h
      refine ⟨rfl, iff_of_false Bool.false_ne_true fun hex => ?_⟩
      exact Pull.noConfusion (hpull.symm.trans (Reader.pull_exhausted hex))
  · cases h
    exact absurd rfl hstop

theorem execWrread_bound_of_ok {rd : Reg} {s t : State} (h : execWrread rd s = .next t) (ht : t.err = false) :
    t.wr.bound = s.wr.bound := by
  have hstop : t.err ≠ true := by simp [ht]
  simp only [execWrread] at h
  split_ifs at h
  · split at h
    next => cases h; rfl
    next => exact absurd (State.portStop_err h) hstop
    next => cases h; rfl
  · cases h; rfl

theorem execBrbegin_bound_of_ok {rs1 rs2 : Reg} {s t : State} (h : execBrbegin rs1 rs2 s = .next t)
    (ht : t.err = false) : t.br.bound = true := by
  simp only [execBrbegin] at h
  split_ifs at h <;> cases h
  · rfl
  · exact absurd ht (by simp)

theorem execWrbegin_bound_of_ok {rs1 rs2 : Reg} {s t : State} (h : execWrbegin rs1 rs2 s = .next t)
    (ht : t.err = false) : t.wr.bound = true := by
  simp only [execWrbegin] at h
  split_ifs at h <;> cases h
  · rfl
  · exact absurd ht (by simp)

/-- The commands that bind the byte reader. -/
def bindsBr : Instr → Bool
  | .brbegin _ _ => true
  | _ => false

/-- The commands that bind the word reader. -/
def bindsWr : Instr → Bool
  | .wrbegin _ _ => true
  | _ => false

/-- BRBEGIN without error sets BR's BOUND, and no other command changes it (R32). -/
theorem exec_br_bound {i : Instr} {s t : State} (h : exec i s = .next t) (hs : s.err = false) :
    t.br.bound = (s.br.bound || (!t.err && bindsBr i)) := by
  cases ht : t.err with
  | true =>
    obtain ⟨⟨hbr, -⟩, -⟩ := exec_of_err h hs ht
    simp [hbr]
  | false =>
    obtain ⟨hunused, -⟩ := exec_unusedCursors h
    cases i with
    | brbegin rs1 rs2 => simp [execBrbegin_bound_of_ok h ht, bindsBr]
    | brread rd => simp [execBrread_of_ok h ht, bindsBr]
    | _ => simp [hunused rfl, bindsBr]

/-- WRBEGIN without error sets WR's BOUND, and no other command changes it (R32). -/
theorem exec_wr_bound {i : Instr} {s t : State} (h : exec i s = .next t) (hs : s.err = false) :
    t.wr.bound = (s.wr.bound || (!t.err && bindsWr i)) := by
  cases ht : t.err with
  | true =>
    obtain ⟨⟨-, -, hwr, -⟩, -⟩ := exec_of_err h hs ht
    simp [hwr]
  | false =>
    obtain ⟨-, -, hunused, -⟩ := exec_unusedCursors h
    cases i with
    | wrbegin rs1 rs2 => simp [execWrbegin_bound_of_ok h ht, bindsWr]
    | wrread rd => simp [execWrread_bound_of_ok h ht, bindsWr]
    | _ => simp [hunused rfl, bindsWr]

/-! ### The writers -/

theorem execBwwrite_bound_of_ok {rs1 : Reg} {s t : State} (h : execBwwrite rs1 s = .next t) (ht : t.err = false) :
    t.bw.bound = s.bw.bound := by
  have hstop : t.err ≠ true := by simp [ht]
  simp only [execBwwrite] at h
  split_ifs at h
  · split at h
    next => exact absurd (State.portStop_err h) hstop
    next hput => cases h; exact Writer.put_bound hput
  · cases h; rfl
  · cases h; rfl

theorem execWwwrite_bound_of_ok {rs1 : Reg} {s t : State} (h : execWwwrite rs1 s = .next t) (ht : t.err = false) :
    t.ww.bound = s.ww.bound := by
  have hstop : t.err ≠ true := by simp [ht]
  simp only [execWwwrite] at h
  split_ifs at h
  · split at h
    next => exact absurd (State.portStop_err h) hstop
    next hput => cases h; exact Writer.put_bound hput
  · cases h; rfl
  · cases h; rfl

theorem execBwflush_bound_of_ok {rd : Reg} {s t : State} (h : execBwflush rd s = .next t) (ht : t.err = false) :
    t.bw.bound = false := by
  have hstop : t.err ≠ true := by simp [ht]
  simp only [execBwflush] at h
  split_ifs at h
  · split at h
    next => exact absurd (State.portStop_err h) hstop
    next hflush => cases h; exact Writer.flush_bound hflush
  · cases h; exact absurd rfl hstop

theorem execWwflush_bound_of_ok {rd : Reg} {s t : State} (h : execWwflush rd s = .next t) (ht : t.err = false) :
    t.ww.bound = false := by
  have hstop : t.err ≠ true := by simp [ht]
  simp only [execWwflush] at h
  split_ifs at h
  · split at h
    next => exact absurd (State.portStop_err h) hstop
    next hflush => cases h; exact Writer.flush_bound hflush
  · cases h; exact absurd rfl hstop

/-- BW's BOUND after a command, from its value before and the command's ERR (R32). -/
def bwBoundAfter (i : Instr) (before err : Bool) : Bool :=
  match i with
  | .bwbegin _ => true
  | .bwflush _ => before && err
  | _ => before

/-- WW's BOUND after a command, from its value before and the command's ERR (R32). -/
def wwBoundAfter (i : Instr) (before err : Bool) : Bool :=
  match i with
  | .wwbegin _ => true
  | .wwflush _ => before && err
  | _ => before

/-- BWBEGIN sets BW's BOUND, BWFLUSH without error clears it, and no other command changes it (R32). -/
theorem exec_bw_bound {i : Instr} {s t : State} (h : exec i s = .next t) (hs : s.err = false) :
    t.bw.bound = bwBoundAfter i s.bw.bound t.err := by
  have herr : t.err = true → t.bw = s.bw := fun ht => by
    obtain ⟨⟨-, hbw, -⟩, -⟩ := exec_of_err h hs ht
    exact hbw
  obtain ⟨-, hunused, -⟩ := exec_unusedCursors h
  cases i with
  | bwbegin rs1 => cases h; rfl
  | bwwrite rs1 =>
    cases ht : t.err with
    | true => rw [herr ht]; rfl
    | false => exact execBwwrite_bound_of_ok h ht
  | bwflush rd =>
    cases ht : t.err with
    | true => simp [herr ht, bwBoundAfter]
    | false => simp [execBwflush_bound_of_ok h ht, bwBoundAfter]
  | _ => rw [hunused rfl]; rfl

/-- WWBEGIN sets WW's BOUND, WWFLUSH without error clears it, and no other command changes it (R32). -/
theorem exec_ww_bound {i : Instr} {s t : State} (h : exec i s = .next t) (hs : s.err = false) :
    t.ww.bound = wwBoundAfter i s.ww.bound t.err := by
  have herr : t.err = true → t.ww = s.ww := fun ht => by
    obtain ⟨⟨-, -, -, hww⟩, -⟩ := exec_of_err h hs ht
    exact hww
  obtain ⟨-, -, -, hunused⟩ := exec_unusedCursors h
  cases i with
  | wwbegin rs1 => cases h; rfl
  | wwwrite rs1 =>
    cases ht : t.err with
    | true => rw [herr ht]; rfl
    | false => exact execWwwrite_bound_of_ok h ht
  | wwflush rd =>
    cases ht : t.err with
    | true => simp [herr ht, wwBoundAfter]
    | false => simp [execWwflush_bound_of_ok h ht, wwBoundAfter]
  | _ => rw [hunused rfl]; rfl

end Sys2Proof.Machine
end

section
/-! PROOFS. The statements about the host's registers, the flags and reset (spec `10_state.md`), from the laws above. -/

namespace Sys2Proof.Proofs

open Sys2Proof.Machine Sys2Proof.Safety

/-- Settles O8, bit by bit of the value written and from the frame of a STATUS write. -/
theorem statusWriteClearsErrAndDone : Obligations.StatusWriteClearsErrAndDone := by
  intro s v rest hbus
  set u : State := { s with bus := rest }
  have hstep : step s = .next (u.writeStatus v) := by
    rw [step_write (by decide) hbus, State.windowWrite_status]
  obtain ⟨hbusy, hempty, hctrl, hcursors, hregs, hmem, hworld⟩ := u.writeStatus_frame v
  exact ⟨u.writeStatus v, hstep, u.writeStatus_clears v, u.writeStatus_keepsRecord v, u.writeStatus_done v, hbusy, hempty,
    hctrl, hcursors, hregs, hmem, hworld⟩

/-- Settles O10: both resets are `applyReset`, and the start state is its own reset. -/
theorem resetLeavesTheTableOfValues : Obligations.ResetLeavesTheTableOfValues := by
  refine ⟨fun s e rest hbus he => ?_, ?_⟩
  · set u : State := { s with bus := rest }
    have hstep : step s = .next u.applyReset := by
      obtain rfl | ⟨v, hv, rfl⟩ := he
      · exact step_cons hbus
      · rw [step_write (by decide) hbus, State.windowWrite_ctrl, State.writeCtrl_reset _ _ hv]
    have h := u.applyReset_holdsResetValues
    exact ⟨u.applyReset, hstep, h.regs, h.id, h.ctrl, h.status, h.faultCmd, h.faultAddr, h.br, h.bw, h.wr, h.ww, h.irq,
      fun _ => rfl⟩
  · have h := State.reset_holdsResetValues
    exact ⟨h.regs, h.id, h.ctrl, h.status, h.faultCmd, h.faultAddr, h.br, h.bw, h.wr, h.ww, h.irq⟩

/-- Settles O11, from the bits of STATUS and CTRL. -/
theorem interruptLineFollowsStatusAndControl : Obligations.InterruptLineFollowsStatusAndControl := by
  refine ⟨fun s => ?_, State.reset_holdsResetValues.irq⟩
  have herr : (s.windowRead 0x010#12).getLsbD 2 = s.err := (s.getLsbD_statusWord (by decide)).trans (by simp)
  have hdone : (s.windowRead 0x010#12).getLsbD 3 = s.done := (s.getLsbD_statusWord (by decide)).trans (by simp)
  have heie : (s.windowRead 0x008#12).getLsbD 0 = s.eie := (s.getLsbD_ctrlWord 0).trans (by simp)
  have hdie : (s.windowRead 0x008#12).getLsbD 1 = s.die := (s.getLsbD_ctrlWord 1).trans (by simp)
  rw [herr, hdone, heie, hdie, State.irq]

/-- Settles O7: of the events that are performed, only a reset and a write to STATUS reach ERR, and a CMD write is discarded. -/
theorem errIsStickyAndDiscardsCommands : Obligations.ErrIsStickyAndDiscardsCommands := by
  refine ⟨State.raise_err, fun s t e rest hbus herr hstep => ?_, fun s v rest hbus herr => ?_⟩
  · rw [step_cons hbus] at hstep
    obtain hreset | ⟨v, rfl, rfl⟩ | ⟨-, s', t', v, hs, hcmd, ht⟩ | hkept := State.perform_cases hstep
    · exact .inr (.inl hreset)
    · cases hv : v.getLsbD 2 with
      | true => exact .inr (.inr ⟨v, hv, rfl⟩)
      | false =>
        obtain ⟨hkept, -⟩ := State.writeStatus_keepsRecord { s with bus := rest } v hv
        exact .inl (hkept.trans herr)
    · have herr' : s'.err = true := hs.err.trans herr
      obtain rfl : s' = t' := by
        rw [State.writeCmd_of_err herr'] at hcmd
        injection hcmd
      exact .inl (ht.err.trans herr')
    · exact .inl (hkept.err.trans herr)
  · rw [step_write (by decide) hbus, State.windowWrite_cmd]
    exact State.writeCmd_of_err herr

/-- Settles O9, by the value of SRST. -/
theorem controlWriteSetsEnablesOrResets : Obligations.ControlWriteSetsEnablesOrResets := by
  refine ⟨State.reset_holdsResetValues.ctrl, fun s v rest hbus => ?_⟩
  have hstep : step s = .next ({ s with bus := rest }.writeCtrl v) := by
    rw [step_write (by decide) hbus, State.windowWrite_ctrl]
  refine ⟨fun hv => ?_, fun hv => ?_⟩
  · rw [State.writeCtrl_reset _ _ hv] at hstep
    exact ⟨hstep, (State.applyReset_holdsResetValues _).ctrl⟩
  · rw [State.writeCtrl_enables _ _ hv] at hstep
    exact ⟨_, hstep, rfl, rfl, State.ctrlWord_of_enables rfl rfl, ⟨rfl, rfl, rfl, rfl⟩, rfl, rfl, rfl,
      ⟨rfl, rfl, rfl, rfl⟩, fun _ => rfl, fun _ => rfl, rfl, rfl, rfl, rfl⟩

/-- Settles O13: a reserved offset is no data register and none of the offsets the register map names. -/
theorem reservedOffsetsReadZeroAndIgnoreWrites : Obligations.ReservedOffsetsReadZeroAndIgnoreWrites := by
  intro s off v rest hoff
  obtain ⟨haligned, -, -⟩ := id hoff
  refine ⟨fun hbus => ?_, fun hbus => ?_⟩
  · rw [step_read haligned hbus, State.windowRead_reserved _ hoff]
    rfl
  · rw [step_write haligned hbus, State.windowWrite_reserved _ _ hoff]

/-- Settles O14, from reading a register after a write. -/
theorem dataRegistersAndHardwiredZero : Obligations.DataRegistersAndHardwiredZero := by
  refine ⟨State.getReg_zero, fun s rd r v => s.getReg_setReg rd v r, fun s rd v rest hbus => ?_⟩
  set u : State := { s with bus := rest }
  have hstep : step s = .next (u.setReg rd v) := by
    rw [step_write (dataRegOffset_aligned rd) hbus, State.windowWrite_dataReg]
  exact ⟨u.setReg rd v, hstep, u.getReg_setReg rd v, ⟨rfl, rfl, rfl, rfl⟩, ⟨rfl, rfl⟩, rfl, rfl, rfl,
    ⟨rfl, rfl, rfl, rfl⟩, fun _ => rfl, rfl, rfl, rfl, rfl⟩

/-- Settles O45: for BRREAD by whether it raised an error; no other command reaches EMPTY. -/
theorem emptyIsWrittenByBrreadOnly : Obligations.EmptyIsWrittenByBrreadOnly := by
  intro i s t hs h
  refine ⟨?_, exec_empty h⟩
  rintro rd rfl
  refine ⟨fun ht => ?_, fun ht => ?_⟩
  · obtain ⟨-, hempty⟩ := exec_of_err h hs ht
    exact hempty
  · obtain ⟨-, hempty⟩ := execBrread_of_ok h ht
    exact hempty

/-- Settles O46: of the events that are performed, only a reset and a write to STATUS can clear DONE. -/
theorem doneIsSetByCommandsAndSticky : Obligations.DoneIsSetByCommandsAndSticky := by
  refine ⟨fun i s t => exec_done, fun s t v herr h => State.writeCmd_done h herr, fun s v => State.writeCmd_of_err,
    fun s t e rest hbus hdone hstep => ?_⟩
  rw [step_cons hbus] at hstep
  obtain hreset | ⟨v, rfl, rfl⟩ | ⟨-, s', t', v, hs, hcmd, ht⟩ | hkept := State.perform_cases hstep
  · exact .inr (.inl hreset)
  · cases hv : v.getLsbD 3 with
    | true => exact .inr (.inr ⟨v, hv, rfl⟩)
    | false => exact .inl (State.writeStatus_keepsDone { s with bus := rest } v hv hdone)
  · exact .inl (ht.done.trans (State.writeCmd_keepsDone hcmd (hs.done.trans hdone)))
  · exact .inl (hkept.done.trans hdone)

/-- Settles O47: command by command, and from what any other event can do to the cursors. -/
theorem boundBitsFollowBeginAndFlush : Obligations.BoundBitsFollowBeginAndFlush := by
  refine ⟨fun i s t hs h => ?_, fun s t v hv h => State.writeCmd_sameCursors h hv,
    fun s t e rest hbus hreset hcommand hstep => ?_⟩
  · exact ⟨exec_br_bound h hs, exec_wr_bound h hs, exec_bw_bound h hs, exec_ww_bound h hs⟩
  · rw [step_cons hbus] at hstep
    obtain hr | ⟨v, rfl, rfl⟩ | ⟨hc, -⟩ | ⟨-, -, hcursors⟩ := State.perform_cases hstep
    · exact absurd hr hreset
    · obtain ⟨-, -, -, hcursors, -⟩ := State.writeStatus_frame { s with bus := rest } v
      exact hcursors
    · exact absurd hc hcommand
    · exact hcursors

end Sys2Proof.Proofs
end

section
/-! PROOFS. Which command words a row of the opcode map accepts, for every row at once: the words that are the encoding of the
row's command with their own fields as its operands (spec `30_encoding.md` R80–R84). -/

namespace Sys2Proof

open Sys2Proof.Safety

/-! ### Decoding an encoding -/

/-- Reading a field back from the word that `packFields` lays out. -/
theorem fields_packFields (opc : BitVec 6) (rd rs1 rs2 rs3 rs4 : Reg) :
    opcOf (packFields opc rd rs1 rs2 rs3 rs4) = opc ∧ rdOf (packFields opc rd rs1 rs2 rs3 rs4) = rd ∧
    rs1Of (packFields opc rd rs1 rs2 rs3 rs4) = rs1 ∧ rs2Of (packFields opc rd rs1 rs2 rs3 rs4) = rs2 ∧
    rs3Of (packFields opc rd rs1 rs2 rs3 rs4) = rs3 ∧ rs4Of (packFields opc rd rs1 rs2 rs3 rs4) = rs4 ∧
    rsvOf (packFields opc rd rs1 rs2 rs3 rs4) = 0#6 :=
  fields_allFields opc rd rs1 rs2 rs3 rs4 0#6

/-- The encoding of a command decodes to that command: its opcode selects its row, RSV and the fields it does not use are 0. -/
theorem decodeWord_encode (i : Instr) : decodeWord (encode i) = .instr i := by
  cases i <;> simp [encode, decodeWord, checkedFields, fields_packFields]

/-- A command word decodes to a command exactly when it is that command's encoding. -/
theorem decodeWord_eq_instr_iff {c : CmdWord} {i : Instr} : decodeWord c = .instr i ↔ c = encode i :=
  ⟨eq_encode_of_decodeWord, fun h => h ▸ decodeWord_encode i⟩

/-! ### The rows of the opcode map -/

/-- The mask bits of a register field: a row fixes the fields its command does not use (R84). -/
def fieldMask (used : Bool) : Reg := if used then 0#4 else 15#4

/-- The value of a register field in an encoding: the operand where the command uses the field, else 0 (R80). -/
def fieldValue (used : Bool) (r : Reg) : Reg := if used then r else 0#4

/-- The mask of a row whose command uses the marked register fields. -/
def rowMask (rd rs1 rs2 rs3 rs4 : Bool) : CmdWord :=
  allFields 63#6 (fieldMask rd) (fieldMask rs1) (fieldMask rs2) (fieldMask rs3) (fieldMask rs4) 63#6

theorem and_fieldMask_eq_zero_iff (used : Bool) (r : Reg) : r &&& fieldMask used = 0#4 ↔ r = fieldValue used r := by
  cases used with
  | true => simp [fieldMask, fieldValue]
  | false =>
    have hones : r &&& 15#4 = r := BitVec.and_allOnes
    simp [fieldMask, fieldValue, hones]

/-- Under a row's mask a word has the row's opcode and nothing else exactly when its unused fields and RSV are 0. -/
theorem and_rowMask_eq_iff (c : CmdWord) (opc : BitVec 6) (rd rs1 rs2 rs3 rs4 : Bool) :
    c &&& rowMask rd rs1 rs2 rs3 rs4 = packFields opc 0#4 0#4 0#4 0#4 0#4 ↔
      c = packFields opc (fieldValue rd (rdOf c)) (fieldValue rs1 (rs1Of c)) (fieldValue rs2 (rs2Of c))
        (fieldValue rs3 (rs3Of c)) (fieldValue rs4 (rs4Of c)) := by
  have hones : ∀ x : BitVec 6, x &&& 63#6 = x := fun x => BitVec.and_allOnes
  have hmasked : c &&& rowMask rd rs1 rs2 rs3 rs4 =
      allFields (opcOf c) (rdOf c &&& fieldMask rd) (rs1Of c &&& fieldMask rs1) (rs2Of c &&& fieldMask rs2)
        (rs3Of c &&& fieldMask rs3) (rs4Of c &&& fieldMask rs4) (rsvOf c) := by
    conv_lhs => rw [eq_allFields c, rowMask, allFields_and, hones, hones]
  rw [hmasked, packFields_eq, packFields_eq, allFields_inj]
  simp only [and_fieldMask_eq_zero_iff]
  rw [← allFields_inj, ← eq_allFields]

/-- A row accepts exactly the encodings of its command, so `AcceptsRow` holds of a row whose mask and match are those of the
fields the command's encoding uses. -/
theorem acceptsRow_of_encode (opc : BitVec 6) (rd rs1 rs2 rs3 rs4 : Bool) {command : CmdWord → Instr}
    (henc : ∀ c, encode (command c) = packFields opc (fieldValue rd (rdOf c)) (fieldValue rs1 (rs1Of c))
      (fieldValue rs2 (rs2Of c)) (fieldValue rs3 (rs3Of c)) (fieldValue rs4 (rs4Of c))) :
    AcceptsRow (rowMask rd rs1 rs2 rs3 rs4) (packFields opc 0#4 0#4 0#4 0#4 0#4) command := by
  intro c
  rw [decode_setWidth, decodeWord_eq_instr_iff, henc, and_rowMask_eq_iff]

end Sys2Proof
end

section
/-! PROOFS. The reduction and addition commands: the frame of a command that computes and of one that raises, the domains and
the values as exact arithmetic, and each command on its domain and outside it (spec `40_reduction_add.md`). -/

namespace Sys2Proof.Machine

open Sys2Proof.Safety

/-! ### How a command without memory access ends -/

/-- A command that finishes into `rd` changes `rd` and DONE, and ends BUSY (R22, R27, R30). -/
theorem State.finish_onlyWritesReg (s : State) (rd : Reg) {v : Word} {n : Nat} (hv : v.toNat = n) :
    OnlyWritesReg rd n s (s.finish rd v) := by
  have hregs : WritesReg rd n s (s.finish rd v) := by
    intro r
    rw [State.getReg_finish, apply_ite BitVec.toNat, hv]
  exact ⟨hregs, ⟨rfl, rfl, ⟨rfl, rfl, rfl, rfl⟩, ⟨rfl, rfl⟩, rfl, rfl, rfl, rfl⟩, rfl, ⟨rfl, rfl, rfl, rfl⟩, fun _ => rfl⟩

/-- A command that raises an error with no address leaves its record and nothing else (R252, R259). -/
theorem State.raiseFor_raisedCleanly (s : State) (i : Instr) (e : ECode) :
    RaisedCleanly e (cmdValue i) 0#64 s (s.raiseFor i e 0#64) := by
  have haddr : (s.raiseFor i e 0#64).faultAddr = 0#64 := (s.raiseFor_faultAddr i e 0#64).trans (ite_self _)
  exact ⟨⟨rfl, rfl, rfl, haddr, rfl, rfl, fun _ => rfl, ⟨rfl, rfl, rfl, rfl⟩, rfl, ⟨rfl, rfl⟩, rfl, rfl, rfl, rfl⟩,
    fun _ => rfl⟩

/-! ### The domains (R251) -/

theorem isPartial_iff {x : Word} : isPartial x = true ↔ x.toNat < 2 ^ 62 := by
  have h : maxPartial.toNat = 2 ^ 62 - 1 := by decide
  rw [isPartial, decide_eq_true_iff, BitVec.le_def, h]
  omega

theorem finDomain_iff {x : Word} : finDomain x = true ↔ x.toNat < 2 ^ 62 ∧ x.toNat ≠ 0x3FFFFFFFFFFFFFFE := by
  have h : finExcluded.toNat = 0x3FFFFFFFFFFFFFFE := by decide
  rw [finDomain, Bool.and_eq_true, isPartial_iff, bne_iff_ne, ne_eq, ← BitVec.toNat_inj, h]

theorem negDomain_iff {x : Word} : negDomain x = true ↔ x.toNat ≤ 2 ^ 61 - 1 := by
  have h : modulus.toNat = 2 ^ 61 - 1 := by decide
  rw [negDomain, decide_eq_true_iff, BitVec.le_def, h]

/-! ### The values -/

/-- PartialReduce stays within 2^61 + 6: seven is the largest value of the three bits it folds back (R100). -/
theorem foldWord_le (x : Word) : x.toNat % 2 ^ 61 + x.toNat / 2 ^ 61 ≤ 2 ^ 61 + 6 := by
  have := x.isLt
  omega

/-- Finalize as exact arithmetic: on a partially reduced value no addition wraps (R105). -/
theorem toNat_finalizeWord {x : Word} (h : x.toNat < 2 ^ 62) :
    (finalizeWord x).toNat = (x.toNat + (x.toNat + 1) / 2 ^ 61) % 2 ^ 61 := by
  have hsucc : (x + 1#64).toNat = x.toNat + 1 := BitVec.toNat_add_of_lt (by simp; omega)
  rw [finalizeWord, toNat_and_modulus, BitVec.toNat_add, BitVec.toNat_ushiftRight, Nat.shiftRight_eq_div_pow, hsucc]
  omega

/-- On FIN's domain the result is canonical; FBAD = 2^62 − 2 is the one partially reduced value where it would be p (R105). -/
theorem finalize_lt {x : Nat} (h : x < 2 ^ 62) (hbad : x ≠ 0x3FFFFFFFFFFFFFFE) :
    (x + (x + 1) / 2 ^ 61) % 2 ^ 61 < 2 ^ 61 - 1 := by
  obtain hq | hq | hq : (x + 1) / 2 ^ 61 = 0 ∨ (x + 1) / 2 ^ 61 = 1 ∨ (x + 1) / 2 ^ 61 = 2 := by omega
  all_goals rw [hq]; omega

/-- Four partially reduced operands sum to at most 2^64 − 4, so the sum is exact (R110, R111). -/
theorem toNat_sumFold {a b c d : Word} (ha : a.toNat < 2 ^ 62) (hb : b.toNat < 2 ^ 62) (hc : c.toNat < 2 ^ 62)
    (hd : d.toNat < 2 ^ 62) :
    (sumFold a b c d).toNat = (a.toNat + b.toNat + c.toNat + d.toNat) % 2 ^ 61 +
      (a.toNat + b.toNat + c.toNat + d.toNat) / 2 ^ 61 := by
  have hsum : (a + b + c + d).toNat = a.toNat + b.toNat + c.toNat + d.toNat := by
    simp only [BitVec.toNat_add]
    omega
  rw [sumFold, toNat_foldWord, hsum]

/-- Negate as exact arithmetic: up to p the subtraction does not borrow (R115). -/
theorem toNat_negateWord {x : Word} (h : x.toNat ≤ 2 ^ 61 - 1) : (negateWord x).toNat = 2 ^ 61 - 1 - x.toNat :=
  BitVec.toNat_sub_of_le (BitVec.le_def.2 h)

/-! ### Each command on its domain and outside it -/

section Commands

variable (s : State) (rd rs1 rs2 rs3 rs4 : Reg)

/-- PRED computes for every operand (R100). -/
theorem exec_pred : exec (.pred rd rs1) s = .next (s.finish rd (foldWord (s.getReg rs1))) := rfl

theorem exec_fin_of_domain (h : finDomain (s.getReg rs1) = true) :
    exec (.fin rd rs1) s = .next (s.finish rd (finalizeWord (s.getReg rs1))) := if_pos h

theorem exec_fin_of_not_domain (h : ¬ finDomain (s.getReg rs1) = true) :
    exec (.fin rd rs1) s = .next (s.raiseFor (.fin rd rs1) .domain 0#64) := if_neg h

/-- ADD4's domain: all four operands partially reduced (R110). -/
def Add4Domain : Prop :=
  isPartial (s.getReg rs1) && isPartial (s.getReg rs2) && isPartial (s.getReg rs3) && isPartial (s.getReg rs4)

theorem add4Domain_iff : Add4Domain s rs1 rs2 rs3 rs4 ↔
    (s.getReg rs1).toNat < 2 ^ 62 ∧ (s.getReg rs2).toNat < 2 ^ 62 ∧ (s.getReg rs3).toNat < 2 ^ 62 ∧
      (s.getReg rs4).toNat < 2 ^ 62 := by
  simp only [Add4Domain, Bool.and_eq_true, isPartial_iff, and_assoc]

theorem exec_add4_of_domain (h : Add4Domain s rs1 rs2 rs3 rs4) :
    exec (.add4 rd rs1 rs2 rs3 rs4) s =
      .next (s.finish rd (sumFold (s.getReg rs1) (s.getReg rs2) (s.getReg rs3) (s.getReg rs4))) := if_pos h

theorem exec_add4_of_not_domain (h : ¬ Add4Domain s rs1 rs2 rs3 rs4) :
    exec (.add4 rd rs1 rs2 rs3 rs4) s = .next (s.raiseFor (.add4 rd rs1 rs2 rs3 rs4) .domain 0#64) := if_neg h

theorem exec_neg_of_domain (h : negDomain (s.getReg rs1) = true) :
    exec (.neg rd rs1) s = .next (s.finish rd (negateWord (s.getReg rs1))) := if_pos h

theorem exec_neg_of_not_domain (h : ¬ negDomain (s.getReg rs1) = true) :
    exec (.neg rd rs1) s = .next (s.raiseFor (.neg rd rs1) .domain 0#64) := if_neg h

end Commands
end Sys2Proof.Machine
end

section
/-! PROOFS. The statements about PRED, FIN, ADD4 and NEG (spec `40_reduction_add.md`), from the laws above. -/

namespace Sys2Proof.Proofs

open Sys2Proof.Machine Sys2Proof.Safety

/-- Settles O16: PRED has no domain to leave, and PartialReduce is exact. -/
theorem predFoldsAtBitSixtyOne : Obligations.PredFoldsAtBitSixtyOne := by
  refine ⟨acceptsRow_of_encode 0x01#6 true true false false false fun _ => rfl, fun rd rs1 s => ?_⟩
  exact ⟨_, exec_pred s rd rs1, s.finish_onlyWritesReg rd (toNat_foldWord _), foldWord_le _⟩

/-- Settles O17, on FIN's domain and outside it. -/
theorem finFinalizesOrRaisesDomain : Obligations.FinFinalizesOrRaisesDomain := by
  refine ⟨acceptsRow_of_encode 0x02#6 true true false false false fun _ => rfl, ?_⟩
  rintro rd rs1 s x rfl
  refine ⟨fun ⟨hpartial, hbad⟩ => ?_, fun hout => ?_⟩
  · exact ⟨_, exec_fin_of_domain s rd rs1 (finDomain_iff.2 ⟨hpartial, hbad⟩),
      s.finish_onlyWritesReg rd (toNat_finalizeWord hpartial), finalize_lt hpartial hbad⟩
  · have hdomain : ¬ finDomain (s.getReg rs1) = true := by
      rw [finDomain_iff]
      omega
    exact ⟨_, exec_fin_of_not_domain s rd rs1 hdomain, s.raiseFor_raisedCleanly _ _⟩

/-- Settles O18, on ADD4's domain and outside it. -/
theorem add4FoldsTheExactSumOrRaisesDomain : Obligations.Add4FoldsTheExactSumOrRaisesDomain := by
  refine ⟨acceptsRow_of_encode 0x03#6 true true true true true fun _ => rfl, ?_⟩
  rintro rd rs1 rs2 rs3 rs4 s a b c d rfl rfl rfl rfl
  refine ⟨fun hin => ?_, fun hout => ?_⟩
  · obtain ⟨ha, hb, hc, hd⟩ := id hin
    exact ⟨_, exec_add4_of_domain s rd rs1 rs2 rs3 rs4 ((add4Domain_iff s rs1 rs2 rs3 rs4).2 hin),
      s.finish_onlyWritesReg rd (toNat_sumFold ha hb hc hd)⟩
  · have hdomain : ¬ Add4Domain s rs1 rs2 rs3 rs4 := by
      rw [add4Domain_iff]
      omega
    exact ⟨_, exec_add4_of_not_domain s rd rs1 rs2 rs3 rs4 hdomain, s.raiseFor_raisedCleanly _ _⟩

/-- Settles O19, on NEG's domain and outside it. -/
theorem negSubtractsFromThePrimeOrRaisesDomain : Obligations.NegSubtractsFromThePrimeOrRaisesDomain := by
  refine ⟨acceptsRow_of_encode 0x04#6 true true false false false fun _ => rfl, ?_⟩
  rintro rd rs1 s x rfl
  refine ⟨fun hin => ?_, fun hout => ?_⟩
  · exact ⟨_, exec_neg_of_domain s rd rs1 (negDomain_iff.2 hin), s.finish_onlyWritesReg rd (toNat_negateWord hin)⟩
  · have hdomain : ¬ negDomain (s.getReg rs1) = true := mt negDomain_iff.1 (Nat.not_le.2 hout)
    exact ⟨_, exec_neg_of_not_domain s rd rs1 hdomain, s.raiseFor_raisedCleanly _ _⟩

end Sys2Proof.Proofs
end

section
/-! PROOFS. The multiply and inverse commands: the exact product folded at bit 61, and the invariant of INV's extended Euclidean
loop with its termination, from which the inverse modulo p follows (spec `41_multiply_inverse.md` R140–R142, R148–R150). -/

namespace Sys2Proof.Machine

/-! ### MUL's domain and value -/

/-- The bit length of R10 is Mathlib's `Nat.size`. -/
theorem bitLength_eq_size (x : Word) : bitLength x = x.toNat.size := by
  by_cases hx : x = 0#64
  · rw [bitLength, if_pos hx, hx, BitVec.toNat_ofNat, Nat.zero_mod, Nat.size_zero]
  · have hne : x.toNat ≠ 0 := BitVec.toNat_ne_iff_ne.2 hx
    have hle : x.toNat.size ≤ x.toNat.log2 + 1 := Nat.size_le.2 Nat.lt_log2_self
    have hlt : x.toNat.log2 < x.toNat.size := Nat.lt_size.2 (Nat.log2_self_le hne)
    rw [bitLength, if_neg hx]
    omega

theorem mulDomain_iff {x y : Word} : mulDomain x y = true ↔ x.toNat.size + y.toNat.size ≤ 124 := by
  rw [mulDomain, decide_eq_true_iff, bitLength_eq_size, bitLength_eq_size]

/-- A product has at most as many bits as its factors together. -/
theorem mul_lt_two_pow_of_size_add_le {x y n : Nat} (h : x.size + y.size ≤ n) : x * y < 2 ^ n :=
  calc x * y < 2 ^ x.size * 2 ^ y.size := Nat.mul_lt_mul'' x.lt_size_self y.lt_size_self
    _ = 2 ^ (x.size + y.size) := (Nat.pow_add ..).symm
    _ ≤ 2 ^ n := Nat.pow_le_pow_right Nat.two_pos h

/-- The two shifted parts of a product below 2^124 make up P >> 61: no bit is lost and none overlaps (R141, R142). -/
theorem toNat_productHigh {product : BitVec 128} (h : product.toNat < 2 ^ 124) :
    ((product >>> 64).setWidth 64 <<< 3 ||| product.setWidth 64 >>> 61).toNat = product.toNat / 2 ^ 61 := by
  have hhi : ((product >>> 64).setWidth 64).toNat = product.toNat / 2 ^ 64 := by
    rw [BitVec.toNat_setWidth, BitVec.toNat_ushiftRight, Nat.shiftRight_eq_div_pow]
    omega
  have hlow : (product.setWidth 64 >>> 61).toNat = product.toNat % 2 ^ 64 / 2 ^ 61 := by
    rw [BitVec.toNat_ushiftRight, Nat.shiftRight_eq_div_pow, BitVec.toNat_setWidth]
  rw [BitVec.or_comm, toNat_or_shiftLeft (k := 3) (by omega), hlow, hhi]
  omega

/-- Multiply as exact arithmetic: below 2^124 the product and its fold at bit 61 do not wrap (R140, R142). -/
theorem toNat_productFold {x y : Word} {r : Nat} (h : x.toNat * y.toNat < 2 ^ 124)
    (hr : r = x.toNat * y.toNat % 2 ^ 61 + x.toNat * y.toNat / 2 ^ 61) :
    (productFold x y).toNat = r % 2 ^ 61 + r / 2 ^ 61 := by
  have hproduct : (x.setWidth 128 * y.setWidth 128).toNat = x.toNat * y.toNat := by
    have hx : (x.setWidth 128).toNat = x.toNat := BitVec.toNat_setWidth_of_le (by decide)
    have hy : (y.setWidth 128).toNat = y.toNat := BitVec.toNat_setWidth_of_le (by decide)
    rw [BitVec.toNat_mul, hx, hy, Nat.mod_eq_of_lt (h.trans (by decide))]
  rw [← hproduct] at h hr
  simp only [productFold]
  rw [toNat_foldWord, BitVec.toNat_add, toNat_and_modulus, BitVec.toNat_setWidth, toNat_productHigh h, hr]
  omega

/-! ### The extended Euclidean loop -/

/-- What every iteration of R150 keeps, for the modulus `p` and the operand `a`: the remainders fall and stay coprime, each
coefficient times `a` is its remainder modulo `p`, and the coefficients alternate in sign while the cross sum of their sizes
with the remainders stays `p`. -/
structure EuclidInvariant (p a r0 r1 : Nat) (s0 s1 : Int) : Prop where
  pos : 0 < r1
  lt : r1 < r0
  coprime : Nat.Coprime r0 r1
  bezout0 : s0 * a ≡ r0 [ZMOD p]
  bezout1 : s1 * a ≡ r1 [ZMOD p]
  opposite : s0 * s1 ≤ 0
  crossSum : |s0| * r1 + |s1| * r0 = p

/-- The start of the loop (R150). -/
theorem EuclidInvariant.start {p a : Nat} (hpos : 0 < a) (hlt : a < p) (hcoprime : Nat.Coprime p a) :
    EuclidInvariant p a p a 0 1 where
  pos := hpos
  lt := hlt
  coprime := hcoprime
  bezout0 := by simp [Int.ModEq]
  bezout1 := by rw [one_mul]
  opposite := by decide
  crossSum := by simp

/-- Subtracting a multiple of a number of the opposite sign adds the sizes. -/
theorem abs_sub_mul_of_opposite {s t : Int} (q : Nat) (h : s * t ≤ 0) : |s - q * t| = |s| + q * |t| := by
  have hopp : 0 ≤ s ∧ 0 ≤ -(q * t) ∨ s ≤ 0 ∧ -(q * t) ≤ 0 := by
    have hq := Nat.cast_nonneg (α := Int) q
    obtain ⟨hs, ht⟩ | ⟨hs, ht⟩ := mul_nonpos_iff.1 h
    · exact .inl ⟨hs, neg_nonneg.2 (mul_nonpos_of_nonneg_of_nonpos hq ht)⟩
    · exact .inr ⟨hs, neg_nonpos.2 (mul_nonneg hq ht)⟩
  rw [sub_eq_add_neg, (abs_add_eq_add_abs_iff _ _).2 hopp, abs_neg, abs_mul, Nat.abs_cast]

/-- One iteration that does not stop keeps the invariant. -/
theorem EuclidInvariant.next {p a r0 r1 : Nat} {s0 s1 : Int} (h : EuclidInvariant p a r0 r1 s0 s1) (hr1 : r1 ≠ 1) :
    EuclidInvariant p a r1 (r0 % r1) s1 (s0 - (r0 / r1 : Nat) * s1) := by
  have hdiv : (r0 : Int) - (r0 / r1 : Nat) * r1 = (r0 % r1 : Nat) := by
    rw [sub_eq_iff_eq_add]
    exact_mod_cast (Nat.mod_add_div' r0 r1).symm
  have hcoprime : Nat.Coprime r1 (r0 % r1) := by
    rw [Nat.Coprime, Nat.gcd_comm, ← Nat.gcd_rec, Nat.gcd_comm]
    exact h.coprime
  refine ⟨?_, Nat.mod_lt _ h.pos, hcoprime, h.bezout1, ?_, ?_, ?_⟩
  · refine Nat.pos_of_ne_zero fun hzero => hr1 ?_
    rwa [hzero, Nat.coprime_zero_right] at hcoprime
  · have hsub := h.bezout0.sub (h.bezout1.mul_left (r0 / r1 : Nat))
    rwa [hdiv, ← mul_assoc, ← sub_mul] at hsub
  · have := h.opposite
    have := mul_nonneg (Nat.cast_nonneg (α := Int) (r0 / r1)) (mul_self_nonneg s1)
    linarith
  · rw [abs_sub_mul_of_opposite _ h.opposite, ← h.crossSum]
    linear_combination -|s1| * hdiv

/-- The product of the remainders halves in an iteration: r0 ≥ r1 + r0 mod r1, which is more than 2 (r0 mod r1). -/
theorem mul_mod_lt_of_mul_lt_two_mul {r0 r1 b : Nat} (hpos : 0 < r1) (hlt : r1 < r0) (h : r0 * r1 < 2 * b) :
    r1 * (r0 % r1) < b := by
  have hmod : r0 % r1 < r1 := Nat.mod_lt r0 hpos
  have hsum : r0 % r1 ≤ r0 - r1 := Nat.mod_eq_sub_mod hlt.le ▸ Nat.mod_le (r0 - r1) r1
  have htwice : r1 * (2 * (r0 % r1)) ≤ r1 * r0 := Nat.mul_le_mul_left r1 (by omega)
  linarith

/-- With fuel for the halvings the loop meets the remainder 1, and answers a Bézout coefficient below `p` in size (R150). -/
theorem euclidLoop_spec {p a : Nat} (hp : 0 < p) (fuel : Nat) : ∀ {r0 r1 : Nat} {s0 s1 : Int},
    EuclidInvariant p a r0 r1 s0 s1 → r0 * r1 < 2 ^ fuel →
      euclidLoop fuel r0 r1 s0 s1 * a ≡ 1 [ZMOD p] ∧ |euclidLoop fuel r0 r1 s0 s1| < p := by
  induction fuel with
  | zero =>
    intro r0 r1 s0 s1 h hfuel
    have := Nat.mul_pos (h.pos.trans h.lt) h.pos
    omega
  | succ fuel ih =>
    intro r0 r1 s0 s1 h hfuel
    by_cases hr1 : r1 = 1
    · subst hr1
      rw [euclidLoop, if_pos rfl]
      refine ⟨h.bezout1, ?_⟩
      have hsum : |s0| * (1 : Nat) + |s1| * r0 = p := h.crossSum
      have hr0 : (2 : Int) ≤ r0 := by exact_mod_cast h.lt
      have htwice : |s1| * 2 ≤ |s1| * r0 := mul_le_mul_of_nonneg_left hr0 (abs_nonneg s1)
      have := abs_nonneg s0
      omega
    · rw [euclidLoop, if_neg hr1]
      exact ih (h.next hr1) (mul_mod_lt_of_mul_lt_two_mul h.pos h.lt (by rwa [pow_succ'] at hfuel))

/-! ### INV's value -/

/-- p is a Mersenne prime (R12), by the Lucas–Lehmer test. -/
theorem prime_modulus : Nat.Prime (2 ^ 61 - 1) :=
  lucas_lehmer_sufficiency 61 (by norm_num) (by norm_num)

theorem inverseWord_of_zero {x : Word} (h : x.toNat % (2 ^ 61 - 1) = 0) : inverseWord x = 0#64 := if_pos h

/-- A Bézout coefficient below `p` in size, made non-negative by adding `p`, is an inverse below `p` (R150). -/
theorem normalized_coefficient {p a : Nat} {s : Int} (hbezout : s * a ≡ 1 [ZMOD p]) (hsize : |s| < p) :
    ∃ n : Nat, (if s < 0 then s + p else s) = n ∧ n < p ∧ a * n ≡ 1 [MOD p] := by
  obtain ⟨hlo, hhi⟩ := abs_lt.1 hsize
  obtain ⟨n, hn⟩ : ∃ n : Nat, (if s < 0 then s + p else s) = n := Int.eq_ofNat_of_zero_le (by split <;> omega)
  have hlt : n < p := by split at hn <;> omega
  have hmod : (n : Int) ≡ s [ZMOD p] := by
    rw [← hn]
    split
    · exact Int.add_modEq_right
    · exact Int.ModEq.refl s
  refine ⟨n, hn, hlt, Int.natCast_modEq_iff.1 ?_⟩
  rw [Nat.cast_mul, mul_comm]
  exact (hmod.mul_right a).trans hbezout

/-- Off the multiples of p, INV's value is an inverse modulo p, reduced below p (R148, R149). -/
theorem inverseWord_spec {x : Word} (h : x.toNat % (2 ^ 61 - 1) ≠ 0) :
    (inverseWord x).toNat < 2 ^ 61 - 1 ∧ x.toNat % (2 ^ 61 - 1) * (inverseWord x).toNat ≡ 1 [MOD 2 ^ 61 - 1] := by
  have hlt : x.toNat % (2 ^ 61 - 1) < 2 ^ 61 - 1 := Nat.mod_lt _ (by decide)
  have hstart := EuclidInvariant.start (Nat.pos_of_ne_zero h) hlt (Nat.coprime_of_lt_prime h hlt prime_modulus)
  have hfuel : (2 ^ 61 - 1) * (x.toNat % (2 ^ 61 - 1)) < 2 ^ euclidFuel :=
    (Nat.mul_lt_mul_of_pos_left hlt (by decide)).trans (by decide)
  obtain ⟨hbezout, hsize⟩ := euclidLoop_spec (by decide) euclidFuel hstart hfuel
  obtain ⟨n, hn, hn_lt, hinv⟩ := normalized_coefficient hbezout hsize
  have hvalue : inverseWord x = BitVec.ofInt 64 n := (if_neg h).trans (congrArg (BitVec.ofInt 64) hn)
  have htoNat : (inverseWord x).toNat = n := by
    rw [hvalue, BitVec.ofInt_natCast, BitVec.toNat_ofNat, Nat.mod_eq_of_lt (by omega)]
  rw [htoNat]
  exact ⟨hn_lt, hinv⟩

/-- An inverse modulo `p` is the only one below `p`. -/
theorem inverse_unique {p a y z : Nat} (hy : y < p) (hz : z < p) (hay : a * y ≡ 1 [MOD p]) (haz : a * z ≡ 1 [MOD p]) :
    z = y := by
  have hcoprime : Nat.Coprime p a := (Nat.coprime_of_mul_modEq_one y hay).symm
  have hmod : z ≡ y [MOD p] := (haz.trans hay.symm).cancel_left_of_coprime hcoprime
  exact hmod.eq_of_lt_of_lt hz hy

/-! ### The two commands -/

section Commands

variable (s : State) (rd rs1 rs2 : Reg)

theorem exec_mul_of_domain (h : mulDomain (s.getReg rs1) (s.getReg rs2) = true) :
    exec (.mul rd rs1 rs2) s = .next (s.finish rd (productFold (s.getReg rs1) (s.getReg rs2))) := if_pos h

theorem exec_mul_of_not_domain (h : ¬ mulDomain (s.getReg rs1) (s.getReg rs2) = true) :
    exec (.mul rd rs1 rs2) s = .next (s.raiseFor (.mul rd rs1 rs2) .domain 0#64) := if_neg h

/-- INV computes for every operand (R148). -/
theorem exec_inv : exec (.inv rd rs1) s = .next (s.finish rd (inverseWord (s.getReg rs1))) := rfl

end Commands
end Sys2Proof.Machine
end

section
/-! PROOFS. The statements about MUL and INV (spec `41_multiply_inverse.md`), from the laws above. -/

namespace Sys2Proof.Proofs

open Sys2Proof.Machine Sys2Proof.Safety

/-- Settles O21, on MUL's domain and outside it. -/
theorem mulFoldsTheProductOrRaisesDomain : Obligations.MulFoldsTheProductOrRaisesDomain := by
  refine ⟨acceptsRow_of_encode 0x05#6 true true true false false fun _ => rfl, ?_⟩
  rintro rd rs1 rs2 s x y r rfl rfl hr
  refine ⟨fun hin => ?_, fun hout => ?_⟩
  · have hproduct := mul_lt_two_pow_of_size_add_le hin
    refine ⟨_, exec_mul_of_domain s rd rs1 rs2 (mulDomain_iff.2 hin),
      s.finish_onlyWritesReg rd (toNat_productFold hproduct hr), ?_⟩
    omega
  · have hdomain : ¬ mulDomain (s.getReg rs1) (s.getReg rs2) = true := mt mulDomain_iff.1 (Nat.not_le.2 hout)
    exact ⟨_, exec_mul_of_not_domain s rd rs1 rs2 hdomain, s.raiseFor_raisedCleanly _ _⟩

/-- Settles O22, by the invariant of the extended Euclidean loop and the primality of p. -/
theorem invWritesTheUniqueInverse : Obligations.InvWritesTheUniqueInverse := by
  refine ⟨acceptsRow_of_encode 0x06#6 true true false false false fun _ => rfl, ?_⟩
  rintro rd rs1 s a rfl
  refine ⟨fun hzero => ?_, fun hne => ?_⟩
  · exact ⟨_, exec_inv s rd rs1, s.finish_onlyWritesReg rd (congrArg BitVec.toNat (inverseWord_of_zero hzero))⟩
  · obtain ⟨hlt, hinv⟩ := inverseWord_spec hne
    have hpos : (inverseWord (s.getReg rs1)).toNat ≠ 0 := fun h0 => by simp [h0, Nat.ModEq] at hinv
    refine ⟨_, ⟨Nat.one_le_iff_ne_zero.2 hpos, Nat.le_pred_of_lt hlt, hinv⟩, fun z ⟨_, hz, hzinv⟩ => ?_,
      _, exec_inv s rd rs1, s.finish_onlyWritesReg rd rfl⟩
    exact inverse_unique hlt (by omega) hinv hzinv

end Sys2Proof.Proofs
end

section
/-! PROOFS. The byte codec commands: what an error and a completion leave, what a writer does when the port performs its
store or stops it at a byte, and each command case by case (spec `42_byte_codec.md`). -/

namespace Sys2Proof.Machine

open Sys2Proof.Safety

/-! ### What a completion and a MEMFAULT leave -/

/-- A command that finishes into a register, whatever it did to the cursors, EMPTY and memory, has completed (R27, R30). -/
theorem State.finish_completed (s : State) (br : Reader) (bw : Writer) (wr : Reader) (ww : Writer) (empty : Bool)
    (m : Memory) (rd : Reg) (v : Word) :
    Completed s (({ s with br := br, bw := bw, wr := wr, ww := ww, empty := empty, mem := m }).finish rd v) :=
  ⟨rfl, rfl, ⟨rfl, rfl, rfl, rfl⟩, ⟨rfl, rfl⟩, rfl, rfl, rfl, rfl⟩

/-- The same for a command without a destination. -/
theorem State.complete_completed (s : State) (br : Reader) (bw : Writer) (wr : Reader) (ww : Writer) (empty : Bool)
    (m : Memory) :
    Completed s ({ s with br := br, bw := bw, wr := wr, ww := ww, empty := empty, mem := m }).complete :=
  s.finish_completed br bw wr ww empty m 0#4 0#64

/-- A command that finishes into `rd` writes `rd` and no other register (R21, R22). -/
theorem State.finish_writesReg {s u : State} (h : u.regs = s.regs) (rd : Reg) {v : Word} {n : Nat} (hv : v.toNat = n) :
    WritesReg rd n s (u.finish rd v) := by
  intro r
  rw [State.getReg_finish, apply_ite BitVec.toNat, hv, State.getReg_congr s u h r]

/-- A MEMFAULT leaves its record with the refused address and, of the rest, may have changed memory only (R252, R254). -/
theorem State.raiseFor_memfault_raised (s : State) (m : Memory) (i : Instr) (a : Word) :
    Raised .memfault (cmdValue i) a s (({ s with mem := m }).raiseFor i .memfault a) :=
  ⟨rfl, rfl, rfl, rfl, rfl, rfl, fun _ => rfl, ⟨rfl, rfl, rfl, rfl⟩, rfl, ⟨rfl, rfl⟩, rfl, rfl, rfl, rfl⟩

/-! ### Where the port stops an access -/

/-- The first byte the port does not perform is one byte: two descriptions of it agree. -/
theorem firstStop_unique {f : Nat → Option PortStop} {i j : Nat} {p q : PortStop} (hi : ∀ k < i, f k = none)
    (hp : f i = some p) (hj : ∀ k < j, f k = none) (hq : f j = some q) : i = j ∧ p = q := by
  obtain h | rfl | h := Nat.lt_trichotomy i j
  · exact absurd ((hj i h).symm.trans hp) (by simp)
  · exact ⟨rfl, Option.some.inj (hp.symm.trans hq)⟩
  · exact absurd ((hi j h).symm.trans hq) (by simp)

/-- `m'` is `m` with the `n` low bytes of `v` stored from `a` on (R62): `StoredAt` of the memories alone. -/
def BytesStored (a : Word) (n v : Nat) (m m' : Memory) : Prop :=
  ∀ b : Word, m'.byteAt b.toNat =
    if (b - a).toNat < n then BitVec.ofNat 8 (v / 256 ^ (b - a).toNat) else m.byteAt b.toNat

theorem storedAt_iff {a : Word} {n v : Nat} {s t : State} : StoredAt a n v s t ↔ BytesStored a n v s.mem t.mem :=
  Iff.rfl

/-! ### Putting an element into a writer, by what the port does -/

section Put

variable {p : Platform} {m : Memory} {w : Writer} {v : Word} {wid : Nat}

/-- The pending bits of a writer with the bits of `v` above them. -/
def Writer.bitsWith (w : Writer) (v : Word) : Nat := w.ws.toNat + 2 ^ w.avail.toNat * v.toNat

/-- An element that leaves less than a full word pending stays in the workspace (R191, R239). -/
theorem Writer.put_short (hm : m.wf = true) (h : WriterOk w) (hwid : wid ≤ 61) (hv : v.toNat < 2 ^ wid)
    (hshort : w.avail.toNat + wid < 64) :
    ∃ w', w.put p m v wid = .stored m w' ∧ w'.bound = w.bound ∧ w'.start = w.start ∧ w'.addr = w.addr ∧
      w'.avail.toNat = w.avail.toNat + wid ∧ w'.ws.toNat = w.bitsWith v := by
  obtain ⟨-, w', hput, -, hrest⟩ | ⟨hfull, -⟩ | ⟨hfull, -⟩ := Writer.put_cases p hm h hwid hv
  · exact ⟨w', hput, hrest⟩
  · omega
  · omega

/-- An element that fills a word stores it when the port performs all eight bytes (R191, R239). -/
theorem Writer.put_full (hm : m.wf = true) (h : WriterOk w) (hwid : wid ≤ 61) (hv : v.toNat < 2 ^ wid)
    (hfull : 64 ≤ w.avail.toNat + wid) (hport : ∀ i < 8, p.check .write (w.addr + BitVec.ofNat 64 i) = none) :
    ∃ m' w', w.put p m v wid = .stored m' w' ∧ w'.bound = w.bound ∧ w'.start = w.start ∧ w'.addr = w.addr + 8#64 ∧
      w'.avail.toNat = w.avail.toNat + wid - 64 ∧ w'.ws.toNat = w.bitsWith v / 2 ^ 64 ∧
      BytesStored w.addr 8 (w.bitsWith v % 2 ^ 64) m m' := by
  obtain ⟨hshort, -⟩ | ⟨-, -, m', w', hput, -, hbound, hstart, haddr, havail, hws, -, hbytes⟩ |
    ⟨-, j, hj, stop, -, hstop, -⟩ := Writer.put_cases p hm h hwid hv
  · omega
  · exact ⟨m', w', hput, hbound, hstart, haddr, havail, hws, hbytes⟩
  · exact absurd ((hport j hj).symm.trans hstop) (by simp)

/-- An element that fills a word is stopped at the first byte the port does not perform, with the bytes before it stored
(R191, R239, R255). -/
theorem Writer.put_stopped {j : Nat} {stop : PortStop} (hm : m.wf = true) (h : WriterOk w) (hwid : wid ≤ 61)
    (hv : v.toNat < 2 ^ wid) (hfull : 64 ≤ w.avail.toNat + wid) (hj : j < 8)
    (hport : ∀ i < j, p.check .write (w.addr + BitVec.ofNat 64 i) = none)
    (hstop : p.check .write (w.addr + BitVec.ofNat 64 j) = some stop) :
    ∃ m', w.put p m v wid = .stopped m' stop ∧ BytesStored w.addr j (w.bitsWith v % 2 ^ 64) m m' := by
  obtain ⟨hshort, -⟩ | ⟨-, hall, -⟩ | ⟨-, j', -, stop', hport', hstop', m', hput, -, hbytes⟩ :=
    Writer.put_cases p hm h hwid hv
  · omega
  · exact absurd ((hall j hj).symm.trans hstop) (by simp)
  · obtain ⟨rfl, rfl⟩ := firstStop_unique hport hstop hport' hstop'
    exact ⟨m', hput, hbytes⟩

end Put

/-! ### Flushing a writer, by what the port does -/

section Flush

variable {p : Platform} {m : Memory} {w : Writer}

/-- A writer after its pending bytes are stored (R195, R242). -/
def Writer.flushed (w : Writer) : Writer :=
  ⟨false, w.addr + BitVec.ofNat 64 w.pendingBytes, w.start, 0#64, 0#6⟩

/-- A flush whose bytes the port performs stores them and unbinds the writer (R195, R242). -/
theorem Writer.flush_stored (hm : m.wf = true)
    (hport : ∀ i < w.pendingBytes, p.check .write (w.addr + BitVec.ofNat 64 i) = none) :
    ∃ m', w.flush p m = .stored m' w.flushed ∧ BytesStored w.addr w.pendingBytes w.ws.toNat m m' := by
  obtain ⟨-, m', hflush, -, hbytes⟩ | ⟨j, hj, stop, -, hstop, -⟩ := Writer.flush_cases p hm w
  · exact ⟨m', hflush, hbytes⟩
  · exact absurd ((hport j hj).symm.trans hstop) (by simp)

/-- A flush is stopped at the first byte the port does not perform, with the bytes before it stored (R195, R242, R255). -/
theorem Writer.flush_stopped {j : Nat} {stop : PortStop} (hm : m.wf = true) (hj : j < w.pendingBytes)
    (hport : ∀ i < j, p.check .write (w.addr + BitVec.ofNat 64 i) = none)
    (hstop : p.check .write (w.addr + BitVec.ofNat 64 j) = some stop) :
    ∃ m', w.flush p m = .stopped m' stop ∧ BytesStored w.addr j w.ws.toNat m m' := by
  obtain ⟨hall, -⟩ | ⟨j', -, stop', hport', hstop', m', hflush, -, hbytes⟩ := Writer.flush_cases p hm w
  · exact absurd ((hall j hj).symm.trans hstop) (by simp)
  · obtain ⟨rfl, rfl⟩ := firstStop_unique hport hstop hport' hstop'
    exact ⟨m', hflush, hbytes⟩

end Flush

/-! ### Domains and values -/

/-- The writers' domain is the canonical values (R191). -/
theorem isCanonical_iff {x : Word} : isCanonical x = true ↔ x.toNat < 2 ^ 61 - 1 := by
  have h : modulus.toNat = 2 ^ 61 - 1 := by decide
  rw [isCanonical, decide_eq_true_iff, BitVec.lt_def, h]

/-- Of the canonical values only M60 has its low 60 bits all ones, so the test of R191 finds exactly the placeholder. -/
theorem elementWidth_eq_byteWidth {v : Word} (hv : v.toNat < 2 ^ 61 - 1) : elementWidth v = byteWidth v.toNat := by
  have htest : v &&& placeholder = placeholder ↔ v.toNat = 2 ^ 60 - 1 := by
    rw [and_placeholder_eq_iff]
    omega
  simp only [elementWidth, byteWidth, htest]

theorem byteWidth_le (v : Nat) : byteWidth v ≤ 61 := by
  rw [byteWidth]
  split <;> decide

/-- A canonical value fits in the bits it takes. -/
theorem lt_two_pow_byteWidth {v : Nat} (hv : v < 2 ^ 61 - 1) : v < 2 ^ byteWidth v := by
  rw [byteWidth]
  split <;> omega

/-- BRMAXW's form with the divisor 61 is the ceiling of b / 60 (R181). -/
theorem div_sixtyOne_eq_ceil_div_sixty (b : Nat) : (b + b / 60 + 60) / 61 = (b + 59) / 60 := by omega

/-- BRMAXW's exact value fits in a register, so the register holds it (R181). -/
theorem toNat_maxWords (n : Word) : (maxWords n).toNat = (8 * n.toNat + 8 * n.toNat / 60 + 60) / 61 := by
  have := n.isLt
  rw [maxWords, BitVec.toNat_ofNat, Nat.mod_eq_of_lt]
  omega

/-! ### Each command, case by case -/

section Commands

variable {s : State} {rd rs1 rs2 : Reg}

theorem exec_brbegin_of_fits (h : bufferFits (s.getReg rs1) (s.getReg rs2) = true) :
    exec (.brbegin rs1 rs2) s = .next ({ s with br := Reader.bind (s.getReg rs1) (s.getReg rs2) }).complete := if_pos h

theorem exec_brbegin_of_not_fits (h : ¬ bufferFits (s.getReg rs1) (s.getReg rs2) = true) :
    exec (.brbegin rs1 rs2) s = .next (s.raiseFor (.brbegin rs1 rs2) .domain 0#64) := if_neg h

theorem exec_brread_of_unbound (h : s.br.bound = false) :
    exec (.brread rd) s = .next (s.raiseFor (.brread rd) .notbound 0#64) := by
  simp [exec, execBrread, h]

theorem exec_brread_exhausted (h : s.br.bound = true) (hpull : s.br.pull s.platform s.mem = .exhausted) :
    exec (.brread rd) s = .next ({ s with empty := true }).complete := by
  simp [exec, execBrread, h, hpull]

theorem exec_brread_refused {a : Word} (h : s.br.bound = true)
    (hpull : s.br.pull s.platform s.mem = .stopped (.memFault a)) :
    exec (.brread rd) s = .next (s.raiseFor (.brread rd) .memfault a) := by
  simp [exec, execBrread, h, hpull, State.portStop]

theorem exec_brread_element {e : Element} (h : s.br.bound = true)
    (hpull : s.br.pull s.platform s.mem = .element e) :
    exec (.brread rd) s =
      .next (({ s with br := s.br.after e.resolve, empty := false }).finish rd e.resolve.c) := by
  simp [exec, execBrread, h, hpull]

/-- BRMAXW computes for every operand (R181). -/
theorem exec_brmaxw : exec (.brmaxw rd rs1) s = .next (s.finish rd (maxWords (s.getReg rs1))) := rfl

/-- BWBEGIN binds whatever the writer held (R190). -/
theorem exec_bwbegin : exec (.bwbegin rs1) s = .next ({ s with bw := Writer.bind (s.getReg rs1) }).complete := rfl

theorem exec_bwwrite_of_unbound (h : s.bw.bound = false) :
    exec (.bwwrite rs1) s = .next (s.raiseFor (.bwwrite rs1) .notbound 0#64) := by
  simp [exec, execBwwrite, h]

theorem exec_bwwrite_of_not_canonical (h : s.bw.bound = true) (hv : ¬ isCanonical (s.getReg rs1) = true) :
    exec (.bwwrite rs1) s = .next (s.raiseFor (.bwwrite rs1) .domain 0#64) := by
  simp [exec, execBwwrite, h, hv]

theorem exec_bwwrite_stored {m : Memory} {w : Writer} (h : s.bw.bound = true) (hv : (s.getReg rs1).toNat < 2 ^ 61 - 1)
    (hput : s.bw.put s.platform s.mem (s.getReg rs1) (byteWidth (s.getReg rs1).toNat) = .stored m w) :
    exec (.bwwrite rs1) s = .next ({ s with mem := m, bw := w }).complete := by
  rw [← elementWidth_eq_byteWidth hv] at hput
  simp [exec, execBwwrite, h, isCanonical_iff.2 hv, hput]

theorem exec_bwwrite_refused {m : Memory} {a : Word} (h : s.bw.bound = true)
    (hv : (s.getReg rs1).toNat < 2 ^ 61 - 1)
    (hput : s.bw.put s.platform s.mem (s.getReg rs1) (byteWidth (s.getReg rs1).toNat) = .stopped m (.memFault a)) :
    exec (.bwwrite rs1) s = .next (({ s with mem := m }).raiseFor (.bwwrite rs1) .memfault a) := by
  rw [← elementWidth_eq_byteWidth hv] at hput
  simp [exec, execBwwrite, h, isCanonical_iff.2 hv, hput, State.portStop]

theorem exec_bwflush_of_unbound (h : s.bw.bound = false) :
    exec (.bwflush rd) s = .next (s.raiseFor (.bwflush rd) .notbound 0#64) := by
  simp [exec, execBwflush, h]

theorem exec_bwflush_stored {m : Memory} {w : Writer} (h : s.bw.bound = true)
    (hflush : s.bw.flush s.platform s.mem = .stored m w) :
    exec (.bwflush rd) s = .next (({ s with mem := m, bw := w }).finish rd w.total) := by
  simp [exec, execBwflush, h, hflush]

theorem exec_bwflush_refused {m : Memory} {a : Word} (h : s.bw.bound = true)
    (hflush : s.bw.flush s.platform s.mem = .stopped m (.memFault a)) :
    exec (.bwflush rd) s = .next (({ s with mem := m }).raiseFor (.bwflush rd) .memfault a) := by
  simp [exec, execBwflush, h, hflush, State.portStop]

theorem exec_bwmaxb_of_fits (h : maxBytesExact (s.getReg rs1) < 2 ^ 64) :
    exec (.bwmaxb rd rs1) s = .next (s.finish rd (BitVec.ofNat 64 (maxBytesExact (s.getReg rs1)))) := if_pos h

theorem exec_bwmaxb_of_not_fits (h : ¬ maxBytesExact (s.getReg rs1) < 2 ^ 64) :
    exec (.bwmaxb rd rs1) s = .next (s.raiseFor (.bwmaxb rd rs1) .domain 0#64) := if_neg h

end Commands
end Sys2Proof.Machine
end

section
/-! PROOFS. The statements about the byte codec commands (spec `42_byte_codec.md`), from the laws above. -/

namespace Sys2Proof.Proofs

open Sys2Proof.Machine Sys2Proof.Safety

/-- Settles O25, by whether the buffer fits below 2^64. -/
theorem brbeginBindsOrRaisesDomain : Obligations.BrbeginBindsOrRaisesDomain := by
  refine ⟨acceptsRow_of_encode 0x10#6 false true true false false fun _ => rfl,
    fun rs1 rs2 s => ⟨fun hfits => ?_, fun hout => ?_⟩⟩
  · exact ⟨_, exec_brbegin_of_fits (decide_eq_true hfits), rfl, rfl, rfl, rfl, rfl, s.complete_completed ..,
      fun _ => rfl, fun _ => rfl⟩
  · have hdomain : ¬ bufferFits (s.getReg rs1) (s.getReg rs2) = true := by
      rw [bufferFits, decide_eq_true_iff]
      omega
    exact ⟨_, exec_brbegin_of_not_fits hdomain, s.raiseFor_raisedCleanly _ _⟩

/-- Settles O26, by what the reader answers: exhausted, an element, or a stop at the first refused byte. -/
theorem brreadReturnsTheNextElement : Obligations.BrreadReturnsTheNextElement := by
  refine ⟨acceptsRow_of_encode 0x11#6 true false false false false fun _ => rfl, fun rd s => ⟨fun hunbound => ?_,
    fun hbound hok => ⟨fun hex => ?_, fun hne hport => ?_, fun j ⟨hj, hport, hfault⟩ => ?_⟩⟩⟩
  · exact ⟨_, exec_brread_of_unbound hunbound, s.raiseFor_raisedCleanly _ _⟩
  · exact ⟨_, exec_brread_exhausted hbound (Reader.pull_exhausted hex), rfl, s.complete_completed .., fun _ => rfl,
      ⟨rfl, rfl, rfl, rfl⟩, fun _ => rfl⟩
  · obtain ⟨e, hpull, hc, hws, hnav, haddr, hrem⟩ := Reader.pull_element (m := s.mem) hok hne hport
    obtain ⟨hamb, hplain⟩ := Reader.after_resolve_takes hok hne hc hws hnav haddr hrem
    refine ⟨_, exec_brread_element hbound hpull, rfl, s.finish_completed .., fun _ => rfl, rfl, rfl, rfl, fun h => ?_,
      fun h => ?_⟩
    · obtain ⟨hvalue, htakes⟩ := hamb h
      exact ⟨State.finish_writesReg rfl rd hvalue, htakes⟩
    · obtain ⟨hvalue, htakes⟩ := hplain h
      exact ⟨State.finish_writesReg rfl rd hvalue, htakes⟩
  · have hne : ¬ Exhausted s.br := by
      rintro ⟨hrem, -⟩
      obtain ⟨-, hle⟩ := bytesToRead_le s.br
      rw [hrem] at hle
      exact absurd (hj.trans_le hle) (Nat.not_lt_zero j)
    have hpull := Reader.pull_stopped (m := s.mem) hne hj hport (Platform.check_of_memFault hfault)
    exact ⟨_, exec_brread_refused hbound hpull, s.raiseFor_memfault_raised s.mem _ _, fun _ => rfl⟩

/-- Settles O27, in exact arithmetic. -/
theorem brmaxwBoundsTheElementCount : Obligations.BrmaxwBoundsTheElementCount := by
  refine ⟨acceptsRow_of_encode 0x12#6 true true false false false fun _ => rfl, ?_⟩
  rintro rd rs1 s b rfl
  have hlt := (s.getReg rs1).isLt
  refine ⟨_, exec_brmaxw, s.finish_onlyWritesReg rd (toNat_maxWords _), div_sixtyOne_eq_ceil_div_sixty _, ?_⟩
  rw [div_sixtyOne_eq_ceil_div_sixty]
  omega

/-- Settles O28, from the cursor BWBEGIN leaves. -/
theorem bwbeginBindsTheWriter : Obligations.BwbeginBindsTheWriter := by
  refine ⟨acceptsRow_of_encode 0x14#6 false true false false false fun _ => rfl, fun rs1 s => ?_⟩
  exact ⟨_, exec_bwbegin, rfl, rfl, rfl, rfl, rfl, s.complete_completed .., fun _ => rfl, fun _ => rfl⟩

/-- Settles O29, by the checks in their order and then by the width and what the port does with the full word. -/
theorem bwwriteTakesOneElement : Obligations.BwwriteTakesOneElement := by
  refine ⟨acceptsRow_of_encode 0x15#6 false true false false false fun _ => rfl, ?_⟩
  rintro rs1 s v x width rfl rfl rfl
  refine ⟨fun hunbound => ?_, fun hbound hout => ?_, fun hbound hv hok hmem => ?_⟩
  · exact ⟨_, exec_bwwrite_of_unbound hunbound, s.raiseFor_raisedCleanly _ _⟩
  · have hdomain : ¬ isCanonical (s.getReg rs1) = true := mt isCanonical_iff.1 (Nat.not_lt.2 hout)
    exact ⟨_, exec_bwwrite_of_not_canonical hbound hdomain, s.raiseFor_raisedCleanly _ _⟩
  · have hwid := byteWidth_le (s.getReg rs1).toNat
    have hfits := lt_two_pow_byteWidth hv
    refine ⟨fun hshort => ?_, fun hfull hport => ?_, fun j hfull ⟨hj, hport, hfault⟩ => ?_⟩
    · obtain ⟨w, hput, hb, hstart, haddr, havail, hws⟩ := Writer.put_short (p := s.platform) hmem hok hwid hfits hshort
      exact ⟨_, exec_bwwrite_stored hbound hv hput, hb.trans hbound, haddr, hstart, hws, havail, rfl, rfl, rfl, rfl,
        s.complete_completed .., fun _ => rfl, fun _ => rfl⟩
    · obtain ⟨m, w, hput, hb, hstart, haddr, havail, hws, hbytes⟩ := Writer.put_full hmem hok hwid hfits hfull hport
      exact ⟨_, exec_bwwrite_stored hbound hv hput, hb.trans hbound, haddr, hstart, hws, havail, rfl, rfl, rfl, rfl,
        s.complete_completed .., fun _ => rfl, storedAt_iff.2 hbytes⟩
    · obtain ⟨m, hput, hbytes⟩ :=
        Writer.put_stopped hmem hok hwid hfits hfull hj hport (Platform.check_of_memFault hfault)
      exact ⟨_, exec_bwwrite_refused hbound hv hput, s.raiseFor_memfault_raised m _ _, storedAt_iff.2 hbytes⟩

/-- Settles O30, by what the port does with the pending bytes. -/
theorem bwflushStoresThePendingBytes : Obligations.BwflushStoresThePendingBytes := by
  refine ⟨acceptsRow_of_encode 0x16#6 true false false false false fun _ => rfl, ?_⟩
  rintro rd s n rfl
  refine ⟨fun hunbound => ?_, fun hbound hmem => ⟨fun hport => ?_, fun j ⟨hj, hport, hfault⟩ => ?_⟩⟩
  · exact ⟨_, exec_bwflush_of_unbound hunbound, s.raiseFor_raisedCleanly _ _⟩
  · obtain ⟨m, hflush, hbytes⟩ := Writer.flush_stored hmem hport
    exact ⟨_, exec_bwflush_stored hbound hflush, rfl, State.finish_writesReg rfl rd rfl, storedAt_iff.2 hbytes,
      rfl, rfl, rfl, rfl, s.finish_completed ..⟩
  · obtain ⟨m, hflush, hbytes⟩ := Writer.flush_stopped hmem hj hport (Platform.check_of_memFault hfault)
    exact ⟨_, exec_bwflush_refused hbound hflush, s.raiseFor_memfault_raised m _ _, storedAt_iff.2 hbytes⟩

/-- Settles O31, by whether the exact count fits in 64 bits. -/
theorem bwmaxbBoundsTheByteCount : Obligations.BwmaxbBoundsTheByteCount := by
  refine ⟨acceptsRow_of_encode 0x17#6 true true false false false fun _ => rfl, ?_⟩
  rintro rd rs1 s w rfl
  refine ⟨by omega, fun hfits => ?_, fun hout => ?_⟩
  · have hvalue := (BitVec.toNat_ofNat (maxBytesExact (s.getReg rs1)) 64).trans (Nat.mod_eq_of_lt hfits)
    exact ⟨_, exec_bwmaxb_of_fits hfits, s.finish_onlyWritesReg rd hvalue⟩
  · exact ⟨_, exec_bwmaxb_of_not_fits (Nat.not_lt.2 hout), s.raiseFor_raisedCleanly _ _⟩

end Sys2Proof.Proofs
end

section
/-! PROOFS. The word codec commands case by case, on the laws the byte codec's proofs state for both codecs (spec
`43_word_codec.md`). -/

namespace Sys2Proof.Machine

open Sys2Proof.Safety

/-! ### Domains and values -/

/-- The readers' domain is the buffers that end at or below 2^64 (R171, R221). -/
theorem bufferFits_iff {base length : Word} : bufferFits base length = true ↔ base.toNat + length.toNat ≤ 2 ^ 64 :=
  decide_eq_true_iff

/-- WCOUNT's largest result, that of 2^64 − 1 bytes (R230). -/
theorem wordCount_exact_le (b : Word) : 8 * b.toNat / 61 ≤ 0x2192E29F79B47581 := by
  have := b.isLt
  omega

/-- WCOUNT's exact value fits in a register, so the register holds it (R230). -/
theorem toNat_wordCount (b : Word) : (wordCount b).toNat = 8 * b.toNat / 61 := by
  have := wordCount_exact_le b
  rw [wordCount, BitVec.toNat_ofNat, Nat.mod_eq_of_lt]
  omega

/-- A reader that takes a byte from memory is not exhausted (R175, R225). -/
theorem not_exhausted_of_lt_bytesToRead {r : Reader} {j : Nat} (h : j < bytesToRead r) : ¬ Exhausted r := by
  rintro ⟨hrem, -⟩
  have hlt : j < r.rem.toNat := h.trans_le (bytesToRead_le r).2
  simp [hrem] at hlt

/-! ### Each command, case by case -/

section Commands

variable {s : State} {rd rs1 rs2 : Reg}

theorem exec_wrbegin_of_fits (h : bufferFits (s.getReg rs1) (s.getReg rs2) = true) :
    exec (.wrbegin rs1 rs2) s = .next ({ s with wr := Reader.bind (s.getReg rs1) (s.getReg rs2) }).complete := if_pos h

theorem exec_wrbegin_of_not_fits (h : ¬ bufferFits (s.getReg rs1) (s.getReg rs2) = true) :
    exec (.wrbegin rs1 rs2) s = .next (s.raiseFor (.wrbegin rs1 rs2) .domain 0#64) := if_neg h

theorem exec_wrread_of_unbound (h : s.wr.bound = false) :
    exec (.wrread rd) s = .next (s.raiseFor (.wrread rd) .notbound 0#64) := by
  simp [exec, execWrread, h]

/-- WRREAD has no Empty outcome: an exhausted stream reads as 0 (R222, R225). -/
theorem exec_wrread_exhausted (h : s.wr.bound = true) (hpull : s.wr.pull s.platform s.mem = .exhausted) :
    exec (.wrread rd) s = .next (s.finish rd 0#64) := by
  simp [exec, execWrread, h, hpull]

theorem exec_wrread_refused {a : Word} (h : s.wr.bound = true)
    (hpull : s.wr.pull s.platform s.mem = .stopped (.memFault a)) :
    exec (.wrread rd) s = .next (s.raiseFor (.wrread rd) .memfault a) := by
  simp [exec, execWrread, h, hpull, State.portStop]

/-- WRREAD takes the candidate as it is, with no ambiguity step (R222, R224). -/
theorem exec_wrread_element {e : Element} (h : s.wr.bound = true) (hpull : s.wr.pull s.platform s.mem = .element e) :
    exec (.wrread rd) s = .next (({ s with wr := s.wr.after e }).finish rd e.c) := by
  simp [exec, execWrread, h, hpull]

/-- WCOUNT computes for every operand (R230). -/
theorem exec_wcount : exec (.wcount rd rs1) s = .next (s.finish rd (wordCount (s.getReg rs1))) := rfl

/-- WWBEGIN binds whatever the writer held (R238). -/
theorem exec_wwbegin : exec (.wwbegin rs1) s = .next ({ s with ww := Writer.bind (s.getReg rs1) }).complete := rfl

theorem exec_wwwrite_of_unbound (h : s.ww.bound = false) :
    exec (.wwwrite rs1) s = .next (s.raiseFor (.wwwrite rs1) .notbound 0#64) := by
  simp [exec, execWwwrite, h]

theorem exec_wwwrite_of_not_canonical (h : s.ww.bound = true) (hv : ¬ isCanonical (s.getReg rs1) = true) :
    exec (.wwwrite rs1) s = .next (s.raiseFor (.wwwrite rs1) .domain 0#64) := by
  simp [exec, execWwwrite, h, hv]

theorem exec_wwwrite_stored {m : Memory} {w : Writer} (h : s.ww.bound = true) (hv : isCanonical (s.getReg rs1) = true)
    (hput : s.ww.put s.platform s.mem (s.getReg rs1) 61 = .stored m w) :
    exec (.wwwrite rs1) s = .next ({ s with mem := m, ww := w }).complete := by
  simp [exec, execWwwrite, h, hv, hput]

theorem exec_wwwrite_refused {m : Memory} {a : Word} (h : s.ww.bound = true)
    (hv : isCanonical (s.getReg rs1) = true)
    (hput : s.ww.put s.platform s.mem (s.getReg rs1) 61 = .stopped m (.memFault a)) :
    exec (.wwwrite rs1) s = .next (({ s with mem := m }).raiseFor (.wwwrite rs1) .memfault a) := by
  simp [exec, execWwwrite, h, hv, hput, State.portStop]

theorem exec_wwflush_of_unbound (h : s.ww.bound = false) :
    exec (.wwflush rd) s = .next (s.raiseFor (.wwflush rd) .notbound 0#64) := by
  simp [exec, execWwflush, h]

theorem exec_wwflush_stored {m : Memory} {w : Writer} (h : s.ww.bound = true)
    (hflush : s.ww.flush s.platform s.mem = .stored m w) :
    exec (.wwflush rd) s = .next (({ s with mem := m, ww := w }).finish rd w.total) := by
  simp [exec, execWwflush, h, hflush]

theorem exec_wwflush_refused {m : Memory} {a : Word} (h : s.ww.bound = true)
    (hflush : s.ww.flush s.platform s.mem = .stopped m (.memFault a)) :
    exec (.wwflush rd) s = .next (({ s with mem := m }).raiseFor (.wwflush rd) .memfault a) := by
  simp [exec, execWwflush, h, hflush, State.portStop]

end Commands
end Sys2Proof.Machine
end

section
/-! PROOFS. The statements about the word codec commands (spec `43_word_codec.md`), from the laws above. -/

namespace Sys2Proof.Proofs

open Sys2Proof.Machine Sys2Proof.Safety

/-- Settles O36, by whether the buffer fits below 2^64. -/
theorem wrbeginBindsOrRaisesDomain : Obligations.WrbeginBindsOrRaisesDomain := by
  refine ⟨acceptsRow_of_encode 0x18#6 false true true false false fun _ => rfl,
    fun rs1 rs2 s => ⟨fun hfits => ?_, fun hout => ?_⟩⟩
  · exact ⟨_, exec_wrbegin_of_fits (bufferFits_iff.2 hfits), rfl, rfl, rfl, rfl, rfl, s.complete_completed ..,
      fun _ => rfl, fun _ => rfl⟩
  · have hdomain : ¬ bufferFits (s.getReg rs1) (s.getReg rs2) = true := mt bufferFits_iff.1 (Nat.not_le.2 hout)
    exact ⟨_, exec_wrbegin_of_not_fits hdomain, s.raiseFor_raisedCleanly _ _⟩

/-- Settles O37, by what the reader answers: exhausted, the next 61 bits, or a stop at the first refused byte. -/
theorem wrreadReturnsTheNextWord : Obligations.WrreadReturnsTheNextWord := by
  refine ⟨acceptsRow_of_encode 0x19#6 true false false false false fun _ => rfl, fun rd s => ⟨fun hunbound => ?_,
    fun hbound hok => ⟨fun hex => ?_, fun hne hport => ?_, fun j ⟨hj, hport, hfault⟩ => ?_⟩⟩⟩
  · exact ⟨_, exec_wrread_of_unbound hunbound, s.raiseFor_raisedCleanly _ _⟩
  · exact ⟨_, exec_wrread_exhausted hbound (Reader.pull_exhausted hex), s.finish_onlyWritesReg rd rfl⟩
  · obtain ⟨e, hpull, hc, hws, hnav, haddr, hrem⟩ := Reader.pull_element (m := s.mem) hok hne hport
    have htakes := Reader.after_takes (readerOk_mono hok (by decide)) hne hws hnav haddr hrem
    exact ⟨_, exec_wrread_element hbound hpull, State.finish_writesReg rfl rd hc, htakes, rfl, s.finish_completed ..,
      fun _ => rfl, rfl, rfl, rfl⟩
  · have hpull := Reader.pull_stopped (m := s.mem) (not_exhausted_of_lt_bytesToRead hj) hj hport
      (Platform.check_of_memFault hfault)
    exact ⟨_, exec_wrread_refused hbound hpull, s.raiseFor_memfault_raised s.mem _ _, fun _ => rfl⟩

/-- Settles O38, from WCOUNT's exact value. -/
theorem wcountGivesTheWordCount : Obligations.WcountGivesTheWordCount := by
  refine ⟨acceptsRow_of_encode 0x1A#6 true true false false false fun _ => rfl, fun rd rs1 s => ?_⟩
  exact ⟨_, exec_wcount, s.finish_onlyWritesReg rd (toNat_wordCount _), wordCount_exact_le _⟩

/-- Settles O39, from the cursor WWBEGIN leaves. -/
theorem wwbeginBindsTheWriter : Obligations.WwbeginBindsTheWriter := by
  refine ⟨acceptsRow_of_encode 0x1C#6 false true false false false fun _ => rfl, fun rs1 s => ?_⟩
  exact ⟨_, exec_wwbegin, rfl, rfl, rfl, rfl, rfl, s.complete_completed .., fun _ => rfl, fun _ => rfl⟩

/-- Settles O40, by the checks in their order and then by the width and what the port does with the full word. -/
theorem wwwriteTakesOneWord : Obligations.WwwriteTakesOneWord := by
  refine ⟨acceptsRow_of_encode 0x1D#6 false true false false false fun _ => rfl, ?_⟩
  rintro rs1 s v x width rfl rfl rfl
  refine ⟨fun hunbound => ?_, fun hbound hout => ?_, fun hbound hv hok hmem => ?_⟩
  · exact ⟨_, exec_wwwrite_of_unbound hunbound, s.raiseFor_raisedCleanly _ _⟩
  · have hdomain : ¬ isCanonical (s.getReg rs1) = true := mt isCanonical_iff.1 (Nat.not_lt.2 hout)
    exact ⟨_, exec_wwwrite_of_not_canonical hbound hdomain, s.raiseFor_raisedCleanly _ _⟩
  · have hcanonical := isCanonical_iff.2 hv
    have hfits : (s.getReg rs1).toNat < 2 ^ 61 := Nat.lt_of_lt_pred hv
    refine ⟨fun hshort => ?_, fun hfull hport => ?_, fun j hfull ⟨hj, hport, hfault⟩ => ?_⟩
    · obtain ⟨w, hput, hb, hstart, haddr, havail, hws⟩ :=
        Writer.put_short (p := s.platform) hmem hok (Nat.le_refl 61) hfits hshort
      exact ⟨_, exec_wwwrite_stored hbound hcanonical hput, hb.trans hbound, haddr, hstart, hws, havail, rfl, rfl, rfl,
        rfl, s.complete_completed .., fun _ => rfl, fun _ => rfl⟩
    · obtain ⟨m, w, hput, hb, hstart, haddr, havail, hws, hbytes⟩ :=
        Writer.put_full hmem hok (Nat.le_refl 61) hfits hfull hport
      exact ⟨_, exec_wwwrite_stored hbound hcanonical hput, hb.trans hbound, haddr, hstart, hws, havail, rfl, rfl, rfl,
        rfl, s.complete_completed .., fun _ => rfl, storedAt_iff.2 hbytes⟩
    · obtain ⟨m, hput, hbytes⟩ :=
        Writer.put_stopped hmem hok (Nat.le_refl 61) hfits hfull hj hport (Platform.check_of_memFault hfault)
      exact ⟨_, exec_wwwrite_refused hbound hcanonical hput, s.raiseFor_memfault_raised m _ _, storedAt_iff.2 hbytes⟩

/-- Settles O41, by what the port does with the pending bytes. -/
theorem wwflushStoresThePendingBytes : Obligations.WwflushStoresThePendingBytes := by
  refine ⟨acceptsRow_of_encode 0x1E#6 true false false false false fun _ => rfl, ?_⟩
  rintro rd s n rfl
  refine ⟨fun hunbound => ?_, fun hbound hmem => ⟨fun hport => ?_, fun j ⟨hj, hport, hfault⟩ => ?_⟩⟩
  · exact ⟨_, exec_wwflush_of_unbound hunbound, s.raiseFor_raisedCleanly _ _⟩
  · obtain ⟨m, hflush, hbytes⟩ := Writer.flush_stored hmem hport
    exact ⟨_, exec_wwflush_stored hbound hflush, rfl, State.finish_writesReg rfl rd rfl, storedAt_iff.2 hbytes,
      rfl, rfl, rfl, rfl, s.finish_completed ..⟩
  · obtain ⟨m, hflush, hbytes⟩ := Writer.flush_stopped hmem hj hport (Platform.check_of_memFault hfault)
    exact ⟨_, exec_wwflush_refused hbound hflush, s.raiseFor_memfault_raised m _ _, storedAt_iff.2 hbytes⟩

end Sys2Proof.Proofs
end

section
/-! PROOFS. What a failed command, an undecodable CMD value and a narrow host access leave: where the address of a MEMFAULT
comes from, and that nothing from the refused byte on was written (spec `60_exceptions.md` R250–R256, R270). -/

namespace Sys2Proof.Machine

open Sys2Proof.Safety

/-! ### A refused byte of a port access -/

/-- The port answers MEMFAULT at the byte asked for, and only where `mem_fault` holds (R63). -/
theorem Platform.check_eq_memFault {p : Platform} {k : AccessKind} {a b : Word} :
    p.check k a = some (.memFault b) ↔ a = b ∧ p.memFault a k = true := by
  rw [Platform.check]
  split_ifs with hfault hwindow
  · simp [hfault]
  · simp [hfault]
  · simp [hfault]

/-- A MemRead ends in MEMFAULT only at a byte refused for reads (R61). -/
theorem memFault_of_memRead {p : Platform} {m : Memory} {a b : Word} {n : Nat}
    (h : memRead p m a n = .stopped (.memFault b)) : p.memFault b .read = true := by
  induction n generalizing a with
  | zero => cases h
  | succ n ih =>
    simp only [memRead] at h
    split at h
    next stop hstop =>
      cases h
      obtain ⟨rfl, hfault⟩ := Platform.check_eq_memFault.1 hstop
      exact hfault
    next =>
      split at h
      next hrest =>
        cases h
        exact ih hrest
      next => cases h

/-- A reader is refused its refill only at a byte refused for reads (R172, R222). -/
theorem Reader.memFault_of_pull {p : Platform} {m : Memory} {r : Reader} {a : Word}
    (h : r.pull p m = .stopped (.memFault a)) : p.memFault a .read = true := by
  simp only [Reader.pull] at h
  split_ifs at h
  split at h
  next hread =>
    cases h
    exact memFault_of_memRead hread
  next => cases h

/-- A store from `base` on that turned `m` into `m'` was cut short at `a`: the port refuses `a` for writes, `a` is one of the
eight bytes from `base` on, and no byte from `a` on changed (R62, R255). -/
structure StoreCutShort (p : Platform) (base a : Word) (m m' : Memory) : Prop where
  refused : p.memFault a .write = true
  within : (a - base).toNat < 8
  kept : ∀ b : Word, (a - base).toNat ≤ (b - base).toNat → m'.byteAt b.toNat = m.byteAt b.toNat

/-- A MemWrite of at most eight bytes that ends in MEMFAULT was cut short at the refused byte (R62, R255). -/
theorem storeCutShort_of_memWrite {p : Platform} {m m' : Memory} {base a v : Word} {n : Nat} (hm : m.wf = true)
    (hn : n ≤ 8) (h : memWrite p m base n v = (m', some (.memFault a))) : StoreCutShort p base a m m' := by
  obtain ⟨j, -, -, hbytes, -, hend⟩ := memWrite_cases (p := p) hm base hn v
  rw [h] at hbytes hend
  obtain ⟨-, hnone⟩ | ⟨hj, stop, hstop, hsome⟩ := hend
  · cases hnone
  · cases hsome
    obtain ⟨rfl, hfault⟩ := Platform.check_eq_memFault.1 hstop
    have hoffset : (base + BitVec.ofNat 64 j - base).toNat = j := by
      rw [add_sub_cancel_left, BitVec.toNat_ofNat, Nat.mod_eq_of_lt (by omega)]
    refine ⟨hfault, by omega, fun b hb => ?_⟩
    rw [hbytes b, if_neg (by omega)]

/-- A writer whose full word meets a refused byte was cut short there (R191, R239). -/
theorem Writer.storeCutShort_of_put {p : Platform} {m m' : Memory} {w : Writer} {v a : Word} {wid : Nat}
    (hm : m.wf = true) (h : w.put p m v wid = .stopped m' (.memFault a)) : StoreCutShort p w.addr a m m' := by
  simp only [Writer.put] at h
  split_ifs at h
  split at h
  next hwrite =>
    cases h
    exact storeCutShort_of_memWrite hm (le_refl 8) hwrite
  next => cases h

theorem Writer.pendingBytes_le (w : Writer) : w.pendingBytes ≤ 8 := by
  have := w.avail.isLt
  rw [Writer.pendingBytes]
  omega

/-- A flush that meets a refused byte was cut short there (R195, R242). -/
theorem Writer.storeCutShort_of_flush {p : Platform} {m m' : Memory} {w : Writer} {a : Word} (hm : m.wf = true)
    (h : w.flush p m = .stopped m' (.memFault a)) : StoreCutShort p w.addr a m m' := by
  simp only [Writer.flush] at h
  split at h
  next hwrite =>
    cases h
    exact storeCutShort_of_memWrite hm w.pendingBytes_le hwrite
  next => cases h

/-! ### A command that failed -/

section Failed

variable {i : Instr} {s t : State}

/-- From a unit in service, ERR after a command says that it ended in an error. -/
theorem exec_endsInError (h : exec i s = .next t) (hs : s.err = false) (ht : t.err = true) : EndsInError i s t := by
  obtain herror | ⟨br, bw, wr, ww, empty, m, rd, v, rfl, -⟩ := exec_cases h
  · exact herror
  · exact absurd (hs.symm.trans ht) (by decide)

/-- What every error leaves (R252): its record, with an address for MEMFAULT only, and of the rest memory at most, which only
a writer's MEMFAULT can have changed. -/
theorem EndsInError.raised (h : EndsInError i s t) :
    Raised t.ecode (cmdValue i) t.faultAddr s t ∧ (t.ecode ≠ .memfault → t.faultAddr = 0#64) ∧
      (portKind i = .read ∨ t.ecode ≠ .memfault → SameMemory s t) := by
  obtain ⟨m, e, info, rfl, -, -, hmem⟩ := h
  refine ⟨⟨rfl, rfl, rfl, rfl, rfl, rfl, fun _ => rfl, ⟨rfl, rfl, rfl, rfl⟩, rfl, ⟨rfl, rfl⟩, rfl, rfl, rfl, rfl⟩,
    fun he => if_neg he, fun hkept => ?_⟩
  obtain rfl : m = s.mem := hmem (hkept.imp_left portKind_eq_read.1)
  exact fun _ => rfl

/-- A stop at the port that answers a next state is a refused byte (R70, R254). -/
theorem State.portStop_eq_next {stop : PortStop} (h : s.portStop i stop = .next t) :
    ∃ a, stop = .memFault a ∧ t = s.raiseFor i .memfault a := by
  cases stop with
  | memFault a =>
    injection h with h
    exact ⟨a, rfl, h.symm⟩
  | ownWindow a => cases h

/-- Where a MEMFAULT comes from (R254, R255): a reader's byte refused for reads, or a writer's store from its address on that
was cut short. -/
theorem exec_memfault (h : exec i s = .next t) (hm : s.mem.wf = true) (hs : s.err = false) (ht : t.err = true)
    (he : t.ecode = .memfault) :
    (portKind i = .read ∧ s.platform.memFault t.faultAddr .read = true) ∨
    (portKind i = .write ∧ StoreCutShort s.platform (writeBase i s) t.faultAddr s.mem t.mem) := by
  have hok : s.err ≠ true := by simp [hs]
  have hmay : mayRaise i .memfault = true := by
    obtain ⟨m, e, info, rfl, hmay, -⟩ := exec_endsInError h hs ht
    exact he ▸ hmay
  cases i with
  | brread rd | wrread rd =>
    simp only [exec, execBrread, execWrread] at h
    split_ifs at h
    · split at h
      next => cases h; exact absurd ht hok
      next hpull =>
        obtain ⟨a, rfl, rfl⟩ := State.portStop_eq_next h
        exact .inl ⟨rfl, Reader.memFault_of_pull hpull⟩
      next => cases h; exact absurd ht hok
    · cases h; cases he
  | bwwrite rs1 | wwwrite rs1 =>
    simp only [exec, execBwwrite, execWwwrite] at h
    split_ifs at h
    · split at h
      next hput =>
        obtain ⟨a, rfl, rfl⟩ := State.portStop_eq_next h
        exact .inr ⟨rfl, Writer.storeCutShort_of_put hm hput⟩
      next => cases h; exact absurd ht hok
    · cases h; cases he
    · cases h; cases he
  | bwflush rd | wwflush rd =>
    simp only [exec, execBwflush, execWwflush] at h
    split_ifs at h
    · split at h
      next hflush =>
        obtain ⟨a, rfl, rfl⟩ := State.portStop_eq_next h
        exact .inr ⟨rfl, Writer.storeCutShort_of_flush hm hflush⟩
      next => cases h; exact absurd ht hok
    · cases h; cases he
  | _ => cases hmay

end Failed

/-! ### A CMD value that does not decode, and a narrow host access -/

/-- A value no row of the opcode table accepts does not decode (R81, R84). -/
theorem decode_eq_illegal {v : Word} (hv : cmdWellFormed v = false) : ∃ why, decode v = .illegal why := by
  cases hd : decode v with
  | instr i => exact absurd (hv.symm.trans (cmdWellFormed_of_decode hd)) (by decide)
  | illegal why => exact ⟨why, rfl⟩

/-- In service, a CMD value that does not decode raises ILLEGAL with the full value (R34, R250). -/
theorem State.writeCmd_illegal {s : State} {v : Word} (hs : s.err = false) (hv : cmdWellFormed v = false) :
    s.writeCmd v = .next (s.accept.raise .illegal v 0#64) := by
  obtain ⟨why, hd⟩ := decode_eq_illegal hv
  simp [State.writeCmd, hs, hd]

/-- ILLEGAL leaves its record and nothing else (R250, R252). -/
theorem State.raise_illegal_raisedCleanly (s : State) (v : Word) :
    RaisedCleanly .illegal v 0#64 s (s.accept.raise .illegal v 0#64) :=
  ⟨⟨rfl, rfl, rfl, rfl, rfl, rfl, fun _ => rfl, ⟨rfl, rfl, rfl, rfl⟩, rfl, ⟨rfl, rfl⟩, rfl, rfl, rfl, rfl⟩, fun _ => rfl⟩

/-- The window admits no access that is narrower than 64 bits or misaligned (R23, R270). -/
theorem windowAdmits_narrow {off : BitVec 12} {n : Nat} (h : n < 8 ∨ off.toNat % 8 ≠ 0) :
    ¬ windowAdmits off n = true := by
  simp only [windowAdmits, Bool.and_eq_true, decide_eq_true_eq]
  omega

end Sys2Proof.Machine
end

section
/-! PROOFS. The statements about errors (spec `60_exceptions.md`), from the laws above. -/

namespace Sys2Proof.Proofs

open Sys2Proof.Machine Sys2Proof.Safety

/-- Settles O5: the write to CMD runs to ILLEGAL because no value outside the opcode table decodes. -/
theorem undecodableValueRaisesIllegal : Obligations.UndecodableValueRaisesIllegal := by
  intro s v rest hbus hs hv
  set u : State := { s with bus := rest }
  have hstep : step s = .next (u.accept.raise .illegal v 0#64) := by
    rw [step_write (by decide) hbus, State.windowWrite_cmd]
    exact State.writeCmd_illegal hs hv
  exact ⟨_, hstep, u.raise_illegal_raisedCleanly v, rfl⟩

/-- Settles O48, from what every error leaves and where a MEMFAULT comes from. -/
theorem failedCommandWritesNoRegister : Obligations.FailedCommandWritesNoRegister := by
  refine ⟨fun i s t hs hm h ht => ?_, fun s t v hs hv h => ?_, rfl, rfl, rfl, rfl⟩
  · obtain ⟨hraised, haddr, hmem⟩ := (exec_endsInError h hs ht).raised
    refine ⟨hraised, haddr, fun he => ?_, fun he hkind => ?_, hmem⟩
    · obtain ⟨hkind, hfault⟩ | ⟨hkind, hcut⟩ := exec_memfault h hm hs ht he
      · exact hkind ▸ hfault
      · exact hkind ▸ hcut.refused
    · obtain ⟨hread, -⟩ | ⟨-, hcut⟩ := exec_memfault h hm hs ht he
      · exact absurd (hkind.symm.trans hread) (by decide)
      · exact ⟨hcut.within, hcut.kept⟩
  · rw [State.writeCmd_illegal hs hv] at h
    injection h with h
    exact h ▸ s.raise_illegal_raisedCleanly v

/-- Settles O15: the window admits neither access, so each event is refused before it reaches a register. -/
theorem narrowHostAccessIsRefused : Obligations.NarrowHostAccessIsRefused := by
  intro s off n v rest hnarrow
  have hadmit := windowAdmits_narrow hnarrow
  refine ⟨fun hbus => ?_, fun hbus => ?_⟩
  · rw [step_cons hbus, State.perform, if_neg hadmit]
  · rw [step_cons hbus, State.perform, if_neg hadmit]

end Sys2Proof.Proofs
end

section
/-! PROOFS. Encoding: a CMD value is its two halves, and every row of the opcode map accepts the encodings of one command (spec
`30_encoding.md` R80–R85). -/

namespace Sys2Proof.Proofs

open Sys2Proof.Machine Sys2Proof.Safety

/-- A CMD value whose upper half is zero is its lower half, zero-extended (R36, R81). -/
theorem setWidth_setWidth_of_upperHalf {v : Word} (h : v.extractLsb' 32 32 = 0#32) : (v.setWidth 32).setWidth 64 = v := by
  have hupper := congrArg BitVec.toNat h
  rw [BitVec.extractLsb'_toNat, Nat.shiftRight_eq_div_pow, BitVec.toNat_ofNat] at hupper
  apply BitVec.eq_of_toNat_eq
  rw [BitVec.toNat_setWidth, BitVec.toNat_setWidth]
  have := v.isLt
  omega

/-- Each row of the opcode map accepts the words of one command, whatever its operands (R83): the rows are those the commands'
own statements name. -/
theorem exists_acceptsRow_of_mem {row : OpcodeRow} (h : row ∈ opcodeTable) :
    ∃ command, AcceptsRow row.mask row.pattern command := by
  simp only [opcodeTable, List.mem_cons, List.not_mem_nil, or_false] at h
  obtain rfl | rfl | rfl | rfl | rfl | rfl | rfl | rfl | rfl | rfl | rfl | rfl | rfl | rfl | rfl | rfl | rfl | rfl | rfl := h
  · exact ⟨_, predFoldsAtBitSixtyOne.1⟩
  · exact ⟨_, finFinalizesOrRaisesDomain.1⟩
  · exact ⟨_, add4FoldsTheExactSumOrRaisesDomain.1⟩
  · exact ⟨_, negSubtractsFromThePrimeOrRaisesDomain.1⟩
  · exact ⟨_, mulFoldsTheProductOrRaisesDomain.1⟩
  · exact ⟨_, invWritesTheUniqueInverse.1⟩
  · exact ⟨_, brbeginBindsOrRaisesDomain.1⟩
  · exact ⟨_, brreadReturnsTheNextElement.1⟩
  · exact ⟨_, brmaxwBoundsTheElementCount.1⟩
  · exact ⟨_, bwbeginBindsTheWriter.1⟩
  · exact ⟨_, bwwriteTakesOneElement.1⟩
  · exact ⟨_, bwflushStoresThePendingBytes.1⟩
  · exact ⟨_, bwmaxbBoundsTheByteCount.1⟩
  · exact ⟨_, wrbeginBindsOrRaisesDomain.1⟩
  · exact ⟨_, wrreadReturnsTheNextWord.1⟩
  · exact ⟨_, wcountGivesTheWordCount.1⟩
  · exact ⟨_, wwbeginBindsTheWriter.1⟩
  · exact ⟨_, wwwriteTakesOneWord.1⟩
  · exact ⟨_, wwflushStoresThePendingBytes.1⟩

/-- A value the opcode table accepts decodes: the row that accepts it names its command. -/
theorem exists_decode_of_cmdWellFormed {v : Word} (h : cmdWellFormed v = true) : ∃ i, decode v = .instr i := by
  simp only [cmdWellFormed, Bool.and_eq_true, beq_iff_eq, CmdWord.wellFormed, List.any_eq_true] at h
  obtain ⟨hupper, row, hrow, hmatch⟩ := h
  obtain ⟨command, haccepts⟩ := exists_acceptsRow_of_mem hrow
  have hdecode := (haccepts (v.setWidth 32)).1 hmatch
  rw [setWidth_setWidth_of_upperHalf hupper] at hdecode
  exact ⟨_, hdecode⟩

/-- Settles O1, from the layout of the encoding. -/
theorem decodeEncodeRoundTrip : Obligations.DecodeEncodeRoundTrip := fun i =>
  (decode_setWidth (encode i)).trans (decodeWord_encode i)

/-- Settles O2: both halves of a value that decodes are fixed by the command. -/
theorem commandHasOneEncoding : Obligations.CommandHasOneEncoding := by
  intro v i h
  obtain ⟨hupper, hword⟩ := decode_eq_instr.1 h
  rw [cmdValue, ← eq_encode_of_decodeWord hword, setWidth_setWidth_of_upperHalf hupper]

/-- Settles O3, each way through the encoding of a command. -/
theorem decoderAcceptsExactlyTheOpcodeTable : Obligations.DecoderAcceptsExactlyTheOpcodeTable := fun _ =>
  ⟨fun ⟨_, h⟩ => cmdWellFormed_of_decode h, exists_decode_of_cmdWellFormed⟩

/-- Settles O4, by running the decoder on each word. -/
theorem sampleWordsDecode : Obligations.SampleWordsDecode :=
  ⟨by decide, by decide, by decide, by decide, by decide, by decide⟩

end Sys2Proof.Proofs
end

section
/-! PROOFS. The laws of the arithmetic commands: residues modulo p through PRED, FIN, ADD4, MUL and INV (spec
`40_reduction_add.md` R101–R111, `41_multiply_inverse.md` R142, R143, R152). -/

namespace Sys2Proof.Machine

open Sys2Proof.Safety

/-! ### Residues -/

/-- Folding at bit 61 keeps the residue: 2^61 is 1 modulo p (R101). -/
theorem fold_mod (x : Nat) : (x % 2 ^ 61 + x / 2 ^ 61) % (2 ^ 61 - 1) = x % (2 ^ 61 - 1) := by omega

/-- On FIN's domain the result is the residue (R106). -/
theorem finalize_eq_mod {x : Nat} (h : x < 2 ^ 62) (hbad : x ≠ 0x3FFFFFFFFFFFFFFE) :
    (x + (x + 1) / 2 ^ 61) % 2 ^ 61 = x % (2 ^ 61 - 1) := by
  obtain hq | hq | hq : (x + 1) / 2 ^ 61 = 0 ∨ (x + 1) / 2 ^ 61 = 1 ∨ (x + 1) / 2 ^ 61 = 2 := by omega
  all_goals rw [hq]; omega

/-- Two folds of a product below 2^124 leave at most 2^61 + 3 (R142). -/
theorem fold_fold_le {x r : Nat} (h : x < 2 ^ 124) (hr : r = x % 2 ^ 61 + x / 2 ^ 61) :
    r % 2 ^ 61 + r / 2 ^ 61 ≤ 2 ^ 61 + 3 := by omega

/-! ### Commands that raised no error -/

section Commands

variable {s t : State} {rd rs1 rs2 rs3 rs4 : Reg}

theorem exec_fin_of_ok (h : exec (.fin rd rs1) s = .next t) (ht : t.err = false) :
    finDomain (s.getReg rs1) = true ∧ t = s.finish rd (finalizeWord (s.getReg rs1)) := by
  by_cases hdomain : finDomain (s.getReg rs1) = true
  · rw [exec_fin_of_domain s rd rs1 hdomain] at h
    cases h
    exact ⟨hdomain, rfl⟩
  · rw [exec_fin_of_not_domain s rd rs1 hdomain] at h
    cases h
    cases ht

theorem exec_add4_of_ok (h : exec (.add4 rd rs1 rs2 rs3 rs4) s = .next t) (ht : t.err = false) :
    Add4Domain s rs1 rs2 rs3 rs4 ∧
      t = s.finish rd (sumFold (s.getReg rs1) (s.getReg rs2) (s.getReg rs3) (s.getReg rs4)) := by
  by_cases hdomain : Add4Domain s rs1 rs2 rs3 rs4
  · rw [exec_add4_of_domain s rd rs1 rs2 rs3 rs4 hdomain] at h
    cases h
    exact ⟨hdomain, rfl⟩
  · rw [exec_add4_of_not_domain s rd rs1 rs2 rs3 rs4 hdomain] at h
    cases h
    cases ht

/-- A command's result read back from its destination. -/
theorem State.getReg_finish_same (s : State) (hrd : rd ≠ 0#4) (v : Word) : (s.finish rd v).getReg rd = v := by
  rw [State.getReg_finish, if_pos ⟨rfl, hrd⟩]

/-- A command's result leaves every other register. -/
theorem State.getReg_finish_other (s : State) {r : Reg} (hr : r ≠ rd) (v : Word) :
    (s.finish rd v).getReg r = s.getReg r := by
  rw [State.getReg_finish, if_neg fun h => hr h.1]

/-- MUL then FIN gives the product modulo p on MUL's whole domain: MUL's result is partially reduced and not FBAD (R142, R143). -/
theorem exec_mul_fin (s : State) {rd rd' : Reg} (hrd : rd ≠ 0#4) (hrd' : rd' ≠ 0#4)
    (hin : (s.getReg rs1).toNat.size + (s.getReg rs2).toNat.size ≤ 124) :
    ∃ t u, exec (.mul rd rs1 rs2) s = .next t ∧ exec (.fin rd' rd) t = .next u ∧ u.err = s.err ∧
      (t.getReg rd).toNat ≤ 2 ^ 61 + 3 ∧
      (u.getReg rd').toNat = (s.getReg rs1).toNat * (s.getReg rs2).toNat % (2 ^ 61 - 1) := by
  have hproduct := mul_lt_two_pow_of_size_add_le hin
  have hvalue := toNat_productFold hproduct rfl
  have hle := fold_fold_le hproduct rfl
  set t := s.finish rd (productFold (s.getReg rs1) (s.getReg rs2)) with ht
  have htrd : t.getReg rd = productFold (s.getReg rs1) (s.getReg rs2) := s.getReg_finish_same hrd _
  rw [← htrd] at hvalue
  rw [← hvalue] at hle
  have hpartial : (t.getReg rd).toNat < 2 ^ 62 := by omega
  have hbad : (t.getReg rd).toNat ≠ 0x3FFFFFFFFFFFFFFE := by omega
  refine ⟨t, _, exec_mul_of_domain s rd rs1 rs2 (mulDomain_iff.2 hin),
    exec_fin_of_domain t rd' rd (finDomain_iff.2 ⟨hpartial, hbad⟩), rfl, hle, ?_⟩
  rw [State.getReg_finish_same t hrd', toNat_finalizeWord hpartial, finalize_eq_mod hpartial hbad, hvalue, fold_mod, fold_mod]

end Commands
end Sys2Proof.Machine
end

section
/-! PROOFS. The statements about residues and inverses, from the laws above. -/

namespace Sys2Proof.Proofs

open Sys2Proof.Machine Sys2Proof.Safety

/-- Settles O20, command by command: outside its domain a command sets ERR. -/
theorem reductionsKeepTheResidue : Obligations.ReductionsKeepTheResidue := by
  intro rd s t hrd ht
  refine ⟨fun rs1 h => ?_, fun rs1 h => ?_, fun rs1 rs2 rs3 rs4 h => ?_⟩
  · rw [exec_pred] at h
    cases h
    have hle := foldWord_le (s.getReg rs1)
    rw [s.getReg_finish_same hrd, toNat_foldWord, fold_mod]
    exact ⟨rfl, hle, by omega⟩
  · obtain ⟨hdomain, rfl⟩ := exec_fin_of_ok h ht
    obtain ⟨hpartial, hbad⟩ := finDomain_iff.1 hdomain
    rw [s.getReg_finish_same hrd, toNat_finalizeWord hpartial, finalize_eq_mod hpartial hbad]
  · obtain ⟨hdomain, rfl⟩ := exec_add4_of_ok h ht
    obtain ⟨ha, hb, hc, hd⟩ := (add4Domain_iff s rs1 rs2 rs3 rs4).1 hdomain
    rw [s.getReg_finish_same hrd, toNat_sumFold ha hb hc hd, fold_mod]
    exact ⟨rfl, by omega⟩

/-- Settles O23, from the law of MUL and FIN. -/
theorem finAfterMulIsTheProductModuloP : Obligations.FinAfterMulIsTheProductModuloP :=
  fun _ _ _ _ s hrd hrd' hin => exec_mul_fin s hrd hrd' hin

/-- Settles O24: the inverse has at most 61 bits, so the product is in MUL's domain, and it is 1 modulo p. -/
theorem valueTimesItsInverseIsOne : Obligations.ValueTimesItsInverseIsOne := by
  intro r1 r2 r3 r4 s h2 h3 h4 h21 hlt hne
  obtain ⟨hinv_lt, hinv⟩ := inverseWord_spec hne
  set t := s.finish r2 (inverseWord (s.getReg r1)) with ht
  have hr1 : t.getReg r1 = s.getReg r1 := s.getReg_finish_other h21.symm _
  have hr2 : t.getReg r2 = inverseWord (s.getReg r1) := s.getReg_finish_same h2 _
  have hin : (t.getReg r1).toNat.size + (t.getReg r2).toNat.size ≤ 124 := by
    have hx : (t.getReg r1).toNat.size ≤ 63 := Nat.size_le.2 (hr1 ▸ hlt)
    have hy : (t.getReg r2).toNat.size ≤ 61 := Nat.size_le.2 (by rw [hr2]; omega)
    omega
  obtain ⟨u, w, hmul, hfin, herr, -, hvalue⟩ := exec_mul_fin t h3 h4 hin
  refine ⟨t, u, w, exec_inv s r2 r1, hmul, hfin, herr, ?_⟩
  rw [hvalue, hr1, hr2, ← Nat.mod_mul_mod]
  exact hinv

end Sys2Proof.Proofs
end

section
/-! PROOFS. What the host reads of each register and where its writes are ignored (spec `10_state.md` R23–R26, R42), and one step
as the command port sees it (R36, R275). -/

namespace Sys2Proof.Machine

open Sys2Proof.Safety

/-! ### The register map, read -/

section Reads

variable (s : State)

/-- Data register `r` is read at 0x100 + 8r (R23). -/
theorem State.windowRead_dataReg (r : Reg) : s.windowRead (BitVec.ofNat 12 (0x100 + 8 * r.toNat)) = s.getReg r := by
  rw [State.windowRead, dataRegAt_ofNat]

/-- A reader's AVAIL is read sign-extended (R42). -/
theorem toInt_signExtend_avail (avail : BitVec 8) : (avail.signExtend 64).toInt = avail.toInt :=
  BitVec.toInt_signExtend_of_le (by decide)

/-- A writer's AVAIL is read zero-extended (R42). -/
theorem toNat_setWidth_avail (avail : BitVec 6) : (avail.setWidth 64).toNat = avail.toNat :=
  BitVec.toNat_setWidth_of_le (by decide)

/-- The waiting events are no register. -/
theorem State.windowRead_bus (rest : List HostEvent) (off : BitVec 12) :
    State.windowRead { s with bus := rest } off = s.windowRead off := rfl

end Reads

/-! ### Read-only registers -/

/-- No read-only offset is a data register, CTRL, STATUS or CMD, and each is aligned (R23). -/
theorem readOnlyOffsets_spec : ∀ n ∈ readOnlyOffsets,
    n % 8 = 0 ∧ (n < 0x100 ∨ 0x17F < n) ∧ n ≠ 0x008 ∧ n ≠ 0x010 ∧ n ≠ 0x018 := by decide

/-- A write to a read-only register is ignored (R269). -/
theorem State.windowWrite_readOnly (s : State) (v : Word) {off : BitVec 12} (h : off.toNat ∈ readOnlyOffsets) :
    s.windowWrite off v = .next s := by
  obtain ⟨-, hdata, hctrl, hstatus, hcmd⟩ := readOnlyOffsets_spec _ h
  obtain ⟨r, hr, -⟩ | ⟨rfl, -⟩ | ⟨rfl, -⟩ | ⟨rfl, -⟩ | hw := s.windowWrite_cases v off
  · exact absurd hr (by simp [dataRegAt_eq_none hdata])
  · exact absurd rfl hctrl
  · exact absurd rfl hstatus
  · exact absurd rfl hcmd
  · exact hw

/-! ### A command written to CMD -/

/-- In service, a CMD value that decodes runs its command with BUSY set (R27, R36). -/
theorem State.writeCmd_instr {s : State} {v : Word} {i : Instr} (hs : s.err = false) (hd : decode v = .instr i) :
    s.writeCmd v = exec i s.accept := by
  simp [State.writeCmd, hs, hd]

end Sys2Proof.Machine
end

section
/-! PROOFS. The statements about the register map, the step of a command and the state after reset, from the laws above. -/

namespace Sys2Proof.Proofs

open Sys2Proof.Machine Sys2Proof.Safety

/-- Settles O12: each register from the register map, STATUS and CTRL bit by bit, and the two kinds of access. -/
theorem hostReadsEveryRegister : Obligations.HostReadsEveryRegister := by
  refine ⟨fun s => ?_, fun s off rest haligned hbus => ?_, fun s off v rest hoff hbus => ?_⟩
  · exact ⟨rfl, rfl, rfl, rfl, fun k _ => s.getLsbD_ctrlWord k, fun k hk => s.getLsbD_statusWord hk, s.windowRead_dataReg,
      rfl, rfl, rfl, toInt_signExtend_avail _, rfl, rfl, rfl, toNat_setWidth_avail _, rfl, rfl, rfl,
      toInt_signExtend_avail _, rfl, rfl, rfl, toNat_setWidth_avail _⟩
  · rw [step_read haligned hbus, State.windowRead_bus]
    rfl
  · obtain ⟨haligned, -⟩ := readOnlyOffsets_spec _ hoff
    rw [step_write haligned hbus, State.windowWrite_readOnly _ _ hoff]

/-- Settles O6: the event reaches CMD, and without an event nothing is performed. -/
theorem stepRunsTheDecodedCommand : Obligations.StepRunsTheDecodedCommand := by
  refine ⟨fun s v i rest hbus hs hd => ?_, fun s hbus => ?_⟩
  · rw [step_write (by decide) hbus, State.windowWrite_cmd]
    exact State.writeCmd_instr hs hd
  · rw [step, hbus]

/-- Settles O55, by evaluating the invariants on the state after reset. -/
theorem invariantsHoldAtReset : Obligations.InvariantsHoldAtReset :=
  ⟨by decide, Memory.wf_reset, by decide, by decide, rfl⟩

end Sys2Proof.Proofs
end

section
/-! PROOFS. Noninterference: a change of the state that a command does not use passes through the command (spec `10_state.md` R42,
`20_memory.md` R60). The command is gone through once, for any such change. -/

namespace Sys2Proof.Machine

open Sys2Proof.Safety

/-- `f` changes nothing that command `i` uses: the data registers and the parts `i` uses are read as before, and `f` passes
through each update that `i` makes. -/
structure Unused (i : Instr) (f : State → State) : Prop where
  getReg : ∀ s r, (f s).getReg r = s.getReg r
  finish : ∀ s rd v, (f s).finish rd v = f (s.finish rd v)
  raiseFor : ∀ s e info, (f s).raiseFor i e info = f (s.raiseFor i e info)
  empty : ∀ s e, { f s with empty := e } = f { s with empty := e }
  br : usesBr i = true → ∀ s, (f s).br = s.br
  bw : usesBw i = true → ∀ s, (f s).bw = s.bw
  wr : usesWr i = true → ∀ s, (f s).wr = s.wr
  ww : usesWw i = true → ∀ s, (f s).ww = s.ww
  port : usesMemory i = true → ∀ s, (f s).platform = s.platform ∧ (f s).mem = s.mem
  setBr : usesBr i = true → ∀ s c, { f s with br := c } = f { s with br := c }
  setBw : usesBw i = true → ∀ s c, { f s with bw := c } = f { s with bw := c }
  setWr : usesWr i = true → ∀ s c, { f s with wr := c } = f { s with wr := c }
  setWw : usesWw i = true → ∀ s c, { f s with ww := c } = f { s with ww := c }
  setMem : usesMemory i = true → ∀ s m, { f s with mem := m } = f { s with mem := m }

section Exec

variable {i : Instr} {f : State → State}

theorem Unused.complete (h : Unused i f) (s : State) : (f s).complete = f s.complete := h.finish s 0#4 0#64

theorem Unused.portStop (h : Unused i f) (s : State) (stop : PortStop) :
    (f s).portStop i stop = mapNext f (s.portStop i stop) := by
  cases stop with
  | memFault a => exact congrArg _ (h.raiseFor s .memfault a)
  | ownWindow a => rfl

/-- A BRREAD that answers an element commits the reader and EMPTY together. -/
theorem Unused.setBr_empty (h : Unused i f) (hi : usesBr i = true) (s : State) (c : Reader) (e : Bool) :
    { f s with br := c, empty := e } = f { s with br := c, empty := e } := by
  rw [← h.empty { s with br := c } e, ← h.setBr hi s c]

theorem Unused.setBw_mem (h : Unused i f) (hi : usesBw i = true) (hm : usesMemory i = true) (s : State) (m : Memory)
    (c : Writer) : { f s with mem := m, bw := c } = f { s with mem := m, bw := c } := by
  rw [← h.setBw hi { s with mem := m } c, ← h.setMem hm s m]

theorem Unused.setWw_mem (h : Unused i f) (hi : usesWw i = true) (hm : usesMemory i = true) (s : State) (m : Memory)
    (c : Writer) : { f s with mem := m, ww := c } = f { s with mem := m, ww := c } := by
  rw [← h.setWw hi { s with mem := m } c, ← h.setMem hm s m]

/-- A command on a state changed where it does not look does the same and leaves the change. -/
theorem Unused.exec (h : Unused i f) (s : State) : exec i (f s) = mapNext f (exec i s) := by
  cases i with
  | pred rd rs1 => simp only [Machine.exec, execPred, mapNext, h.getReg, h.finish]
  | fin rd rs1 =>
    simp only [Machine.exec, execFin, h.getReg, h.finish, h.raiseFor]
    split <;> rfl
  | add4 rd rs1 rs2 rs3 rs4 =>
    simp only [Machine.exec, execAdd4, h.getReg, h.finish, h.raiseFor]
    split <;> rfl
  | neg rd rs1 =>
    simp only [Machine.exec, execNeg, h.getReg, h.finish, h.raiseFor]
    split <;> rfl
  | mul rd rs1 rs2 =>
    simp only [Machine.exec, execMul, h.getReg, h.finish, h.raiseFor]
    split <;> rfl
  | inv rd rs1 => simp only [Machine.exec, execInv, mapNext, h.getReg, h.finish]
  | brbegin rs1 rs2 =>
    simp only [Machine.exec, execBrbegin, h.getReg, h.raiseFor, h.setBr rfl, h.complete]
    split <;> rfl
  | brread rd =>
    obtain ⟨hplatform, hmem⟩ := h.port rfl s
    simp only [Machine.exec, execBrread, h.raiseFor, h.portStop, h.empty, h.setBr_empty rfl, h.complete, h.finish]
    rw [h.br rfl, hplatform, hmem]
    split
    · split <;> rfl
    · rfl
  | brmaxw rd rs1 => simp only [Machine.exec, execBrmaxw, mapNext, h.getReg, h.finish]
  | bwbegin rs1 => simp only [Machine.exec, execBwbegin, mapNext, h.getReg, h.setBw rfl, h.complete]
  | bwwrite rs1 =>
    obtain ⟨hplatform, hmem⟩ := h.port rfl s
    simp only [Machine.exec, execBwwrite, h.getReg, h.raiseFor, h.setMem rfl, h.portStop, h.setBw_mem rfl rfl, h.complete]
    rw [h.bw rfl, hplatform, hmem]
    split
    · split
      · split <;> rfl
      · rfl
    · rfl
  | bwflush rd =>
    obtain ⟨hplatform, hmem⟩ := h.port rfl s
    simp only [Machine.exec, execBwflush, h.raiseFor, h.setMem rfl, h.portStop, h.setBw_mem rfl rfl, h.finish]
    rw [h.bw rfl, hplatform, hmem]
    split
    · split <;> rfl
    · rfl
  | bwmaxb rd rs1 =>
    simp only [Machine.exec, execBwmaxb, h.getReg, h.finish, h.raiseFor]
    split <;> rfl
  | wrbegin rs1 rs2 =>
    simp only [Machine.exec, execWrbegin, h.getReg, h.raiseFor, h.setWr rfl, h.complete]
    split <;> rfl
  | wrread rd =>
    obtain ⟨hplatform, hmem⟩ := h.port rfl s
    simp only [Machine.exec, execWrread, h.raiseFor, h.portStop, h.setWr rfl, h.finish]
    rw [h.wr rfl, hplatform, hmem]
    split
    · split <;> rfl
    · rfl
  | wcount rd rs1 => simp only [Machine.exec, execWcount, mapNext, h.getReg, h.finish]
  | wwbegin rs1 => simp only [Machine.exec, execWwbegin, mapNext, h.getReg, h.setWw rfl, h.complete]
  | wwwrite rs1 =>
    obtain ⟨hplatform, hmem⟩ := h.port rfl s
    simp only [Machine.exec, execWwwrite, h.getReg, h.raiseFor, h.setMem rfl, h.portStop, h.setWw_mem rfl rfl, h.complete]
    rw [h.ww rfl, hplatform, hmem]
    split
    · split
      · split <;> rfl
      · rfl
    · rfl
  | wwflush rd =>
    obtain ⟨hplatform, hmem⟩ := h.port rfl s
    simp only [Machine.exec, execWwflush, h.raiseFor, h.setMem rfl, h.portStop, h.setWw_mem rfl rfl, h.finish]
    rw [h.ww rfl, hplatform, hmem]
    split
    · split <;> rfl
    · rfl

end Exec

/-! ### The five parts of the state a command may leave unused -/

section Parts

variable {i : Instr}

theorem unused_br (h : usesBr i = false) (c : Reader) : Unused i fun s => { s with br := c } :=
  have hno {p : Prop} (hi : usesBr i = true) : p := absurd (hi.symm.trans h) (by decide)
  ⟨fun _ _ => rfl, fun _ _ _ => rfl, fun _ _ _ => rfl, fun _ _ => rfl, hno, fun _ _ => rfl, fun _ _ => rfl, fun _ _ => rfl,
    fun _ _ => ⟨rfl, rfl⟩, hno, fun _ _ _ => rfl, fun _ _ _ => rfl, fun _ _ _ => rfl, fun _ _ _ => rfl⟩

theorem unused_bw (h : usesBw i = false) (c : Writer) : Unused i fun s => { s with bw := c } :=
  have hno {p : Prop} (hi : usesBw i = true) : p := absurd (hi.symm.trans h) (by decide)
  ⟨fun _ _ => rfl, fun _ _ _ => rfl, fun _ _ _ => rfl, fun _ _ => rfl, fun _ _ => rfl, hno, fun _ _ => rfl, fun _ _ => rfl,
    fun _ _ => ⟨rfl, rfl⟩, fun _ _ _ => rfl, hno, fun _ _ _ => rfl, fun _ _ _ => rfl, fun _ _ _ => rfl⟩

theorem unused_wr (h : usesWr i = false) (c : Reader) : Unused i fun s => { s with wr := c } :=
  have hno {p : Prop} (hi : usesWr i = true) : p := absurd (hi.symm.trans h) (by decide)
  ⟨fun _ _ => rfl, fun _ _ _ => rfl, fun _ _ _ => rfl, fun _ _ => rfl, fun _ _ => rfl, fun _ _ => rfl, hno, fun _ _ => rfl,
    fun _ _ => ⟨rfl, rfl⟩, fun _ _ _ => rfl, fun _ _ _ => rfl, hno, fun _ _ _ => rfl, fun _ _ _ => rfl⟩

theorem unused_ww (h : usesWw i = false) (c : Writer) : Unused i fun s => { s with ww := c } :=
  have hno {p : Prop} (hi : usesWw i = true) : p := absurd (hi.symm.trans h) (by decide)
  ⟨fun _ _ => rfl, fun _ _ _ => rfl, fun _ _ _ => rfl, fun _ _ => rfl, fun _ _ => rfl, fun _ _ => rfl, fun _ _ => rfl, hno,
    fun _ _ => ⟨rfl, rfl⟩, fun _ _ _ => rfl, fun _ _ _ => rfl, fun _ _ _ => rfl, hno, fun _ _ _ => rfl⟩

theorem unused_memory (h : usesMemory i = false) (m : Memory) (p : Platform) :
    Unused i fun s => { s with mem := m, platform := p } :=
  have hno {q : Prop} (hi : usesMemory i = true) : q := absurd (hi.symm.trans h) (by decide)
  ⟨fun _ _ => rfl, fun _ _ _ => rfl, fun _ _ _ => rfl, fun _ _ => rfl, fun _ _ => rfl, fun _ _ => rfl, fun _ _ => rfl,
    fun _ _ => rfl, hno, fun _ _ _ => rfl, fun _ _ _ => rfl, fun _ _ _ => rfl, fun _ _ _ => rfl, hno⟩

end Parts
end Sys2Proof.Machine
end

section
/-! PROOFS. Where an access reaches the unit's own window, and which error comes first (spec `20_memory.md` R70,
`60_exceptions.md` R256, R257). -/

namespace Sys2Proof.Machine

open Sys2Proof.Safety

/-! ### A port access that is stopped -/

/-- An element that fills a word is stopped with the write of that word, whatever the writer and memory hold (R191, R239). -/
theorem Writer.put_stopped_of_check {p : Platform} {m : Memory} {w : Writer} {v : Word} {wid j : Nat} {stop : PortStop}
    (hfull : 64 ≤ w.avail.toNat + wid) (hj : j < 8) (hport : ∀ i < j, p.check .write (w.addr + BitVec.ofNat 64 i) = none)
    (hstop : p.check .write (w.addr + BitVec.ofNat 64 j) = some stop) : ∃ m', w.put p m v wid = .stopped m' stop := by
  have hwrite := memWrite_stopped (m := m) (v := w.ws ||| (v <<< w.avail.toNat)) hj hport hstop
  refine ⟨(memWrite p m w.addr 8 (w.ws ||| (v <<< w.avail.toNat))).1, ?_⟩
  simp only [Writer.put, if_pos hfull]
  rw [← Prod.mk.eta (p := memWrite p m w.addr 8 (w.ws ||| (v <<< w.avail.toNat))), hwrite]

/-- A flush is stopped with the write of the pending bytes (R195, R242). -/
theorem Writer.flush_stopped_of_check {p : Platform} {m : Memory} {w : Writer} {j : Nat} {stop : PortStop}
    (hj : j < w.pendingBytes) (hport : ∀ i < j, p.check .write (w.addr + BitVec.ofNat 64 i) = none)
    (hstop : p.check .write (w.addr + BitVec.ofNat 64 j) = some stop) : ∃ m', w.flush p m = .stopped m' stop := by
  have hwrite := memWrite_stopped (m := m) (v := w.ws) hj hport hstop
  refine ⟨(memWrite p m w.addr w.pendingBytes w.ws).1, ?_⟩
  simp only [Writer.flush]
  rw [← Prod.mk.eta (p := memWrite p m w.addr w.pendingBytes w.ws), hwrite]

/-! ### The commands, stopped at the own window -/

section Commands

variable {s : State} {r : Reg} {a : Word} {m : Memory}

theorem exec_brread_ownWindow (h : s.br.bound = true) (hpull : s.br.pull s.platform s.mem = .stopped (.ownWindow a)) :
    exec (.brread r) s = .refused (.ownWindow a) := by
  simp [exec, execBrread, h, hpull, State.portStop]

theorem exec_wrread_ownWindow (h : s.wr.bound = true) (hpull : s.wr.pull s.platform s.mem = .stopped (.ownWindow a)) :
    exec (.wrread r) s = .refused (.ownWindow a) := by
  simp [exec, execWrread, h, hpull, State.portStop]

theorem exec_bwwrite_ownWindow (h : s.bw.bound = true) (hv : (s.getReg r).toNat < 2 ^ 61 - 1)
    (hput : s.bw.put s.platform s.mem (s.getReg r) (byteWidth (s.getReg r).toNat) = .stopped m (.ownWindow a)) :
    exec (.bwwrite r) s = .refused (.ownWindow a) := by
  rw [← elementWidth_eq_byteWidth hv] at hput
  simp [exec, execBwwrite, h, isCanonical_iff.2 hv, hput, State.portStop]

theorem exec_wwwrite_ownWindow (h : s.ww.bound = true) (hv : (s.getReg r).toNat < 2 ^ 61 - 1)
    (hput : s.ww.put s.platform s.mem (s.getReg r) 61 = .stopped m (.ownWindow a)) :
    exec (.wwwrite r) s = .refused (.ownWindow a) := by
  simp [exec, execWwwrite, h, isCanonical_iff.2 hv, hput, State.portStop]

theorem exec_bwflush_ownWindow (h : s.bw.bound = true) (hflush : s.bw.flush s.platform s.mem = .stopped m (.ownWindow a)) :
    exec (.bwflush r) s = .refused (.ownWindow a) := by
  simp [exec, execBwflush, h, hflush, State.portStop]

theorem exec_wwflush_ownWindow (h : s.ww.bound = true) (hflush : s.ww.flush s.platform s.mem = .stopped m (.ownWindow a)) :
    exec (.wwflush r) s = .refused (.ownWindow a) := by
  simp [exec, execWwflush, h, hflush, State.portStop]

end Commands

/-- A command whose answer raises `e` for it leaves the code `e`. -/
theorem ecode_of_exec_eq_raiseFor {i : Instr} {s t : State} {e : ECode} {info : Word}
    (hexec : exec i s = .next (s.raiseFor i e info)) (h : exec i s = .next t) : t.ecode = e := by
  rw [hexec] at h
  cases h
  rfl

end Sys2Proof.Machine
end

section
/-! PROOFS. The statements about isolation, the errors of each command and the own window, from the laws above. -/

namespace Sys2Proof.Proofs

open Sys2Proof.Machine Sys2Proof.Safety

/-- Settles O51, for each part of the state that a command may leave unused. -/
theorem commandsUseOnlyTheirOwnState : Obligations.CommandsUseOnlyTheirOwnState := fun _ s =>
  ⟨fun h c => (unused_br h c).exec s, fun h c => (unused_bw h c).exec s, fun h c => (unused_wr h c).exec s,
    fun h c => (unused_ww h c).exec s, fun h m p => (unused_memory h m p).exec s⟩

/-- Settles O49: the table from the ways a command can end, and each unbound cursor from the command's first check. -/
theorem eachCommandRaisesOnlyItsErrors : Obligations.EachCommandRaisesOnlyItsErrors := by
  intro i s t hs h ht
  refine ⟨?_, ?_⟩
  · obtain ⟨m, e, info, rfl, hmay, -⟩ := exec_endsInError h hs ht
    exact hmay
  · rintro (⟨⟨rd, rfl⟩, hb⟩ | ⟨⟨r, rfl | rfl⟩, hb⟩ | ⟨⟨rd, rfl⟩, hb⟩ | ⟨⟨r, rfl | rfl⟩, hb⟩)
    · exact ecode_of_exec_eq_raiseFor (exec_brread_of_unbound hb) h
    · exact ecode_of_exec_eq_raiseFor (exec_bwwrite_of_unbound hb) h
    · exact ecode_of_exec_eq_raiseFor (exec_bwflush_of_unbound hb) h
    · exact ecode_of_exec_eq_raiseFor (exec_wrread_of_unbound hb) h
    · exact ecode_of_exec_eq_raiseFor (exec_wwwrite_of_unbound hb) h
    · exact ecode_of_exec_eq_raiseFor (exec_wwflush_of_unbound hb) h

/-- Settles O50: the port stops each access at the byte in the window, and the command answers that stop with the refusal. -/
theorem ownWindowAccessIsRefused : Obligations.OwnWindowAccessIsRefused := by
  refine fun r s j => ⟨fun hb ⟨hj, hport, hok, hwin⟩ => ?_, fun hb ⟨hj, hport, hok, hwin⟩ => ?_,
    fun hb hv hfull ⟨hj, hport, hok, hwin⟩ => ?_, fun hb hv hfull ⟨hj, hport, hok, hwin⟩ => ?_,
    fun hb ⟨hj, hport, hok, hwin⟩ => ?_, fun hb ⟨hj, hport, hok, hwin⟩ => ?_⟩
  all_goals have hstop := Platform.check_of_inWindow hok hwin
  · exact exec_brread_ownWindow hb (Reader.pull_stopped (not_exhausted_of_lt_bytesToRead hj) hj hport hstop)
  · exact exec_wrread_ownWindow hb (Reader.pull_stopped (not_exhausted_of_lt_bytesToRead hj) hj hport hstop)
  · obtain ⟨m, hput⟩ := Writer.put_stopped_of_check (m := s.mem) (v := s.getReg r) hfull hj hport hstop
    exact exec_bwwrite_ownWindow hb hv hput
  · obtain ⟨m, hput⟩ := Writer.put_stopped_of_check (m := s.mem) (v := s.getReg r) hfull hj hport hstop
    exact exec_wwwrite_ownWindow hb hv hput
  · obtain ⟨m, hflush⟩ := Writer.flush_stopped_of_check (m := s.mem) hj hport hstop
    exact exec_bwflush_ownWindow hb hflush
  · obtain ⟨m, hflush⟩ := Writer.flush_stopped_of_check (m := s.mem) hj hport hstop
    exact exec_wwflush_ownWindow hb hflush

end Sys2Proof.Proofs
end

section
/-! PROOFS. Events that happen around a command: free bytes, a store of the host, a cut-off write and a polled register (spec
`20_memory.md` R73, `30_encoding.md` R91, `70_reset_and_hazards.md` R280, R286). -/

namespace Sys2Proof.Machine

open Sys2Proof.Safety

/-! ### Memory -/

/-- Copying `k` bytes from another memory: those from `a` on are the other memory's, the rest is kept (R280). -/
theorem Memory.byteAt_prefixOf {old new : Memory} {a : Word} {k : Nat} (hm : old.wf = true) (b : Word) :
    (old.prefixOf new a k).byteAt b.toNat =
      if (b - a).toNat < k then new.byteAt b.toNat else old.byteAt b.toNat := by
  induction k generalizing old a with
  | zero => rfl
  | succ k ih =>
    rw [Memory.prefixOf, ih (Memory.wf_setByte hm a.isLt), Memory.byteAt_setByte hm]
    by_cases hb : b = a
    · rw [if_pos (congrArg BitVec.toNat hb), if_pos (stored_step.2 (.inl hb)), hb, ite_self]
    · have hne : b.toNat ≠ a.toNat := fun h => hb (BitVec.eq_of_toNat_eq h)
      simp only [stored_step, hb, false_or, if_neg hne]

/-- Free bytes change memory at the raced addresses only, keep its canonical form, and count the free values (R73(c)). -/
theorem State.havoc_spec {s : State} (hm : s.mem.wf = true) (racing : List Word) :
    ∃ m n, s.havoc racing = { s with mem := m, freeCount := n } ∧
      ∀ b : Word, b ∉ racing → m.byteAt b.toNat = s.mem.byteAt b.toNat := by
  induction racing generalizing s with
  | nil => exact ⟨s.mem, s.freeCount, rfl, fun _ _ => rfl⟩
  | cons a rest ih =>
    obtain ⟨m, n, h, hbytes⟩ :=
      ih (s := { s with mem := s.mem.setByte a.toNat (Config.freeByte s.freeCount), freeCount := s.freeCount + 1 })
        (Memory.wf_setByte hm a.isLt)
    refine ⟨m, n, h, fun b hb => ?_⟩
    obtain ⟨hba, hrest⟩ := not_or.1 (mt List.mem_cons.2 hb)
    rw [hbytes b hrest, Memory.byteAt_setByte hm, if_neg fun h => hba (BitVec.eq_of_toNat_eq h)]

/-- An abandoned command leaves the reset registers and a number of free length of the bytes it stored (R280, I16). -/
theorem State.abandoned_of_next {s u : State} {v : Word} {i : Instr} (hd : decode v = .instr i)
    (h : s.writeCmd v = .next u) :
    s.abandoned v = .next { s.applyReset with
      mem := s.mem.prefixOf u.mem (writeBase i s) (Config.freePrefix s.freeCount % 9), freeCount := s.freeCount + 1 } := by
  simp only [State.abandoned, h, hd]

/-- Where a command writes does not depend on the waiting events. -/
theorem writeBase_bus (i : Instr) (s : State) (rest : List HostEvent) :
    writeBase i { s with bus := rest } = writeBase i s := by
  cases i <;> rfl

/-! ### A register read during a command -/

/-- ID, CTRL, STATUS, FAULT_CMD and FAULT_ADDR are not held (R286). -/
theorem readIsHeld_eq_false {off : BitVec 12} (h : off.toNat < 0x100) : readIsHeld off = false := by
  have hdata : dataRegAt off = none := dataRegAt_eq_none (.inl h)
  have hcursor : ¬ 0x200 ≤ off.toNat := by omega
  simp [readIsHeld, hdata, hcursor]

/-- The data registers and the cursor registers are held (R286). -/
theorem readIsHeld_eq_true {off : BitVec 12}
    (h : (0x100 ≤ off.toNat ∧ off.toNat ≤ 0x178) ∨ (0x200 ≤ off.toNat ∧ off.toNat ≤ 0x278)) : readIsHeld off = true := by
  obtain ⟨hlo, hhi⟩ | ⟨hlo, hhi⟩ := h
  · have hfield : off.extractLsb' 7 5 = 2#5 := by
      apply BitVec.eq_of_toNat_eq
      simp only [BitVec.extractLsb'_toNat, Nat.shiftRight_eq_div_pow, BitVec.toNat_ofNat]
      omega
    simp [readIsHeld, dataRegAt, hfield]
  · simp [readIsHeld, hlo, hhi]

/-- Which registers BUSY reaches: of ID, CTRL, FAULT_CMD and FAULT_ADDR none. -/
theorem State.windowRead_accept (s : State) {off : BitVec 12} (h : off.toNat ∈ [0x000, 0x008, 0x020, 0x028]) :
    s.accept.windowRead off = s.windowRead off := by
  have hoff : off = 0x000#12 ∨ off = 0x008#12 ∨ off = 0x020#12 ∨ off = 0x028#12 := by
    simpa [← BitVec.toNat_inj] using h
  obtain rfl | rfl | rfl | rfl := hoff
  all_goals rfl

/-- STATUS of an executing command is STATUS before it with BUSY = 1 (R27). -/
theorem State.statusWord_accept (s : State) : s.accept.statusWord = s.statusWord ||| 1#64 := by
  apply BitVec.eq_of_getLsbD_eq
  intro k hk
  rw [BitVec.getLsbD_or, State.getLsbD_statusWord _ hk, State.getLsbD_statusWord _ hk]
  obtain rfl | h0 := Nat.eq_zero_or_pos k
  · simp
  · have hne : (k == 0) = false := by simp; omega
    have hone : (1#64).getLsbD k = false := by simp; omega
    simp [hne, hone]

/-- A polled command in service runs as it does without the read and answers one value (R286). -/
theorem State.polled_of_next {s u : State} {v : Word} (off : BitVec 12) (hs : s.err = false) (h : s.writeCmd v = .next u) :
    s.polled v off = .next (u.reply (if readIsHeld off then u.windowRead off else s.accept.windowRead off)) := by
  simp only [State.polled, h, hs]
  split <;> rfl

end Sys2Proof.Machine
end

section
/-! PROOFS. A property of the state that every command and every elementary effect of an event keeps is kept by every step: the
events are gone through once, for any such property. -/

namespace Sys2Proof.Machine

open Sys2Proof.Safety

/-- `P` is kept by every command and by every elementary effect of an event. -/
structure KeptByEffects (P : State → Prop) : Prop where
  bus : ∀ s rest, P s → P { s with bus := rest }
  setReg : ∀ s r v, P s → P (s.setReg r v)
  control : ∀ s e d, P s → P { s with eie := e, die := d }
  clearError : ∀ s, P s → P s.clearError
  clearDone : ∀ s, P s → P s.clearDone
  applyReset : ∀ s, P s → P s.applyReset
  reply : ∀ s v, P s → P (s.reply v)
  setByte : ∀ s (a : Word) v, P s → P { s with mem := s.mem.setByte a.toNat v }
  freeCount : ∀ s n, P s → P { s with freeCount := n }
  illegal : ∀ s v, P s → P (s.accept.raise .illegal v 0#64)
  exec : ∀ i s t, P s → exec i s.accept = .next t → P t

section Keeps

variable {P : State → Prop}

theorem KeptByEffects.writeStatus (h : KeptByEffects P) {s : State} (v : Word) (hs : P s) : P (s.writeStatus v) := by
  have herr : P (if v.getLsbD 2 then s.clearError else s) := by
    split
    · exact h.clearError s hs
    · exact hs
  simp only [State.writeStatus]
  generalize (if v.getLsbD 2 then s.clearError else s) = u at herr ⊢
  split
  · exact h.clearDone u herr
  · exact herr

theorem KeptByEffects.writeCtrl (h : KeptByEffects P) {s : State} (v : Word) (hs : P s) : P (s.writeCtrl v) := by
  rw [State.writeCtrl]
  split
  · exact h.applyReset s hs
  · exact h.control s _ _ hs

theorem KeptByEffects.writeCmd (h : KeptByEffects P) {s t : State} {v : Word} (hs : P s) (hcmd : s.writeCmd v = .next t) :
    P t := by
  obtain ⟨-, rfl⟩ | ⟨-, i, -, hexec⟩ | ⟨-, -, rfl⟩ := State.writeCmd_cases hcmd
  · exact hs
  · exact h.exec i s t hs hexec
  · exact h.illegal s v hs

theorem KeptByEffects.storeBytes (h : KeptByEffects P) {s : State} (a : Word) (bytes : List Byte) (hs : P s) :
    P { s with mem := s.mem.storeBytes a bytes } := by
  induction bytes generalizing s a with
  | nil => exact hs
  | cons b bytes ih => exact ih (s := { s with mem := s.mem.setByte a.toNat b }) _ (h.setByte s a b hs)

theorem KeptByEffects.prefixOf (h : KeptByEffects P) {s : State} (new : Memory) (a : Word) (k : Nat) (hs : P s) :
    P { s with mem := s.mem.prefixOf new a k } := by
  induction k generalizing s a with
  | zero => exact hs
  | succ k ih =>
    exact ih (s := { s with mem := s.mem.setByte a.toNat (new.byteAt a.toNat) }) _ (h.setByte s a _ hs)

theorem KeptByEffects.havoc (h : KeptByEffects P) {s : State} (racing : List Word) (hs : P s) : P (s.havoc racing) := by
  induction racing generalizing s with
  | nil => exact hs
  | cons a rest ih =>
    exact ih (h.freeCount { s with mem := s.mem.setByte a.toNat (Config.freeByte s.freeCount) } _ (h.setByte s a _ hs))

theorem KeptByEffects.abandoned (h : KeptByEffects P) {s t : State} {v : Word} (hs : P s) (ht : s.abandoned v = .next t) :
    P t := by
  have hreset := h.applyReset s hs
  rw [State.abandoned] at ht
  split at ht
  next u hcmd =>
    cases ht
    cases decode v with
    | instr i => exact h.freeCount _ _ (h.prefixOf u.mem _ _ hreset)
    | illegal why => exact h.freeCount _ _ hreset
  next => cases ht
  next => cases ht

theorem KeptByEffects.windowWrite (h : KeptByEffects P) {s t : State} {off : BitVec 12} {v : Word} (hs : P s)
    (ht : s.windowWrite off v = .next t) : P t := by
  obtain ⟨r, -, hw⟩ | ⟨-, hw⟩ | ⟨-, hw⟩ | ⟨-, hw⟩ | hw := s.windowWrite_cases v off
  · cases hw.symm.trans ht
    exact h.setReg s r v hs
  · cases hw.symm.trans ht
    exact h.writeCtrl v hs
  · cases hw.symm.trans ht
    exact h.writeStatus v hs
  · exact h.writeCmd hs (hw.symm.trans ht)
  · cases hw.symm.trans ht
    exact hs

/-- What every effect keeps, every event keeps. -/
theorem KeptByEffects.perform (h : KeptByEffects P) {s t : State} {e : HostEvent} (hs : P s) (ht : s.perform e = .next t) :
    P t := by
  cases e with
  | write off nbytes v =>
    simp only [State.perform] at ht
    split at ht
    · exact h.windowWrite hs ht
    · cases ht
  | read off nbytes =>
    simp only [State.perform] at ht
    split at ht <;> cases ht
    exact h.reply s _ hs
  | store a bytes =>
    cases ht
    exact h.storeBytes a bytes hs
  | hwReset =>
    cases ht
    exact h.applyReset s hs
  | polledCmd v off =>
    simp only [State.perform] at ht
    split at ht
    · obtain ⟨u, w, hcmd, rfl⟩ := State.polled_next ht
      exact h.reply u w (h.writeCmd hs hcmd)
    · cases ht
  | racedCmd v racing =>
    obtain ⟨u, hcmd, rfl⟩ := State.raced_next ht
    exact h.havoc racing (h.writeCmd (h.havoc racing hs) hcmd)
  | abandonedCmd v => exact h.abandoned hs ht

/-- What every effect keeps, every step keeps. -/
theorem KeptByEffects.step (h : KeptByEffects P) {s t : State} (hs : P s) (ht : step s = .next t) : P t := by
  rw [Machine.step] at ht
  split at ht
  · cases ht
    exact hs
  · exact h.perform (h.bus s _ hs) ht

end Keeps
end Sys2Proof.Machine
end

section
/-! PROOFS. What each command keeps: the canonical form of memory, the invariant and the buffer of each cursor, the error record,
BUSY and the platform (spec `10_state.md` R27, R31–R35, R43; `20_memory.md` R60, R66). -/

namespace Sys2Proof.Machine

open Sys2Proof.Safety

/-! ### Memory -/

/-- The memory a put or a flush leaves. -/
def Put.mem : Put → Memory
  | .stopped m _ => m
  | .stored m _ => m

/-- A MemWrite keeps the canonical form, however far it gets. -/
theorem memWrite_wf {p : Platform} {m : Memory} (hm : m.wf = true) (a : Word) (n : Nat) (v : Word) :
    (memWrite p m a n v).1.wf = true := by
  induction n generalizing m a v with
  | zero => exact hm
  | succ n ih =>
    rw [memWrite]
    split
    · exact hm
    · exact ih (Memory.wf_setByte hm a.isLt) _ _

theorem Writer.put_mem_wf {p : Platform} {m : Memory} {w : Writer} {v : Word} {wid : Nat} {r : Put} (hm : m.wf = true)
    (h : w.put p m v wid = r) : r.mem.wf = true := by
  have hwrite := memWrite_wf (p := p) hm w.addr 8 (w.ws ||| (v <<< w.avail.toNat))
  subst h
  simp only [Writer.put]
  split
  · split
    next heq => rwa [heq] at hwrite
    next heq => rwa [heq] at hwrite
  · exact hm

theorem Writer.flush_mem_wf {p : Platform} {m : Memory} {w : Writer} {r : Put} (hm : m.wf = true) (h : w.flush p m = r) :
    r.mem.wf = true := by
  have hwrite := memWrite_wf (p := p) hm w.addr w.pendingBytes w.ws
  subst h
  simp only [Writer.flush]
  split
  next heq => rwa [heq] at hwrite
  next heq => rwa [heq] at hwrite

theorem State.portStop_mem {s t : State} {i : Instr} {stop : PortStop} (h : s.portStop i stop = .next t) : t.mem = s.mem := by
  obtain ⟨a, -, rfl⟩ := State.portStop_eq_next h
  rfl

/-- Only a command that stores can change memory (R60). -/
theorem exec_mem_of_not_storesBytes {i : Instr} {s t : State} (h : exec i s = .next t) (hi : storesBytes i = false) :
    t.mem = s.mem := by
  obtain ⟨m, e, info, rfl, -, -, hmem⟩ | ⟨br, bw, wr, ww, empty, m, rd, v, rfl, -, -, -, -, -, hmem⟩ := exec_cases h
  · exact hmem (.inl hi)
  · exact hmem hi

/-- Every command keeps the canonical form of memory: a writer stores through its put or its flush, and the others store
nothing. -/
theorem exec_keeps_wf {i : Instr} {s t : State} (hm : s.mem.wf = true) (h : exec i s = .next t) : t.mem.wf = true := by
  cases i with
  | bwwrite rs1 | wwwrite rs1 =>
    simp only [exec, execBwwrite, execWwwrite] at h
    split_ifs at h
    · split at h
      next hput => exact (congrArg Memory.wf (State.portStop_mem h)).trans (Writer.put_mem_wf hm hput)
      next hput => cases h; exact Writer.put_mem_wf hm hput
    · cases h; exact hm
    · cases h; exact hm
  | bwflush rd | wwflush rd =>
    simp only [exec, execBwflush, execWwflush] at h
    split_ifs at h
    · split at h
      next hflush => exact (congrArg Memory.wf (State.portStop_mem h)).trans (Writer.flush_mem_wf hm hflush)
      next hflush => cases h; exact Writer.flush_mem_wf hm hflush
    · cases h; exact hm
  | bwbegin rs1 | wwbegin rs1 => cases h; exact hm
  | _ => exact (exec_mem_of_not_storesBytes h rfl).symm ▸ hm

theorem keptByEffects_wf : KeptByEffects fun s => s.mem.wf = true where
  bus _ _ h := h
  setReg _ _ _ h := h
  control _ _ _ h := h
  clearError _ h := h
  clearDone _ h := h
  applyReset _ h := h
  reply _ _ h := h
  setByte _ a _ h := Memory.wf_setByte h a.isLt
  freeCount _ _ h := h
  illegal _ _ h := h
  exec _ _ _ h hexec := exec_keeps_wf (s := State.accept _) h hexec

/-! ### The readers -/

/-- What BRREAD does to its reader: nothing, or it takes its bits (R172). -/
theorem execBrread_takes {rd : Reg} {s t : State} (h : execBrread rd s = .next t) (hok : ReaderOk 64 s.br) :
    t.br = s.br ∨ (¬ Exhausted s.br ∧ ∃ back ≤ 1, TakesBits s.mem back s.br t.br) := by
  simp only [execBrread] at h
  split_ifs at h
  · obtain ⟨-, hpull⟩ | ⟨-, j, -, stop, -, -, hpull⟩ | ⟨hne, e, hpull, hc, hws, hnav, haddr, hrem⟩ :=
      Reader.pull_cases s.platform s.mem hok
    all_goals rw [hpull] at h
    · cases h
      exact .inl rfl
    · obtain ⟨a, -, rfl⟩ := State.portStop_eq_next h
      exact .inl rfl
    · cases h
      obtain ⟨hamb, hplain⟩ := Reader.after_resolve_takes hok hne hc hws hnav haddr hrem
      by_cases hcand : Ambiguous (candidate s.mem s.br)
      · exact .inr ⟨hne, 1, le_refl 1, (hamb hcand).2⟩
      · exact .inr ⟨hne, 0, Nat.zero_le 1, (hplain hcand).2⟩
  · cases h
    exact .inl rfl

/-- What WRREAD does to its reader: nothing, or it takes 61 bits (R222). -/
theorem execWrread_takes {rd : Reg} {s t : State} (h : execWrread rd s = .next t) (hok : ReaderOk 63 s.wr) :
    t.wr = s.wr ∨ (¬ Exhausted s.wr ∧ TakesBits s.mem 0 s.wr t.wr) := by
  simp only [execWrread] at h
  split_ifs at h
  · obtain ⟨-, hpull⟩ | ⟨-, j, -, stop, -, -, hpull⟩ | ⟨hne, e, hpull, -, hws, hnav, haddr, hrem⟩ :=
      Reader.pull_cases s.platform s.mem hok
    all_goals rw [hpull] at h
    · cases h
      exact .inl rfl
    · obtain ⟨a, -, rfl⟩ := State.portStop_eq_next h
      exact .inl rfl
    · cases h
      exact .inr ⟨hne, Reader.after_takes (readerOk_mono hok (by decide)) hne hws hnav haddr hrem⟩
  · cases h
    exact .inl rfl

/-- A reader whose unread bytes end at or below 2^64 (R66, R171, R221). -/
abbrev BufferOk (r : Reader) : Prop := r.addr.toNat + r.rem.toNat ≤ 2 ^ 64

/-- Taking bits moves ADDR and REM together (R172, R222). -/
theorem bufferOk_takes {m : Memory} {back : Nat} {r r' : Reader} (h : BufferOk r) (ht : TakesBits m back r r') :
    BufferOk r' := by
  obtain ⟨-, -, -, haddr, hrem⟩ := ht
  obtain ⟨-, hle⟩ := bytesToRead_le r
  have haddr' : r'.addr.toNat = (r.addr.toNat + bytesToRead r % 2 ^ 64) % 2 ^ 64 := by
    rw [haddr, BitVec.toNat_add, BitVec.toNat_ofNat]
  rw [BufferOk] at h ⊢
  omega

/-- BRBEGIN leaves its reader alone or binds it to a buffer that fits (R171). -/
theorem execBrbegin_binds {rs1 rs2 : Reg} {s t : State} (h : execBrbegin rs1 rs2 s = .next t) :
    t.br = s.br ∨ ∃ base length, bufferFits base length = true ∧ t.br = Reader.bind base length := by
  simp only [execBrbegin] at h
  split_ifs at h with hfits <;> cases h
  · exact .inr ⟨_, _, hfits, rfl⟩
  · exact .inl rfl

/-- WRBEGIN leaves its reader alone or binds it to a buffer that fits (R221). -/
theorem execWrbegin_binds {rs1 rs2 : Reg} {s t : State} (h : execWrbegin rs1 rs2 s = .next t) :
    t.wr = s.wr ∨ ∃ base length, bufferFits base length = true ∧ t.wr = Reader.bind base length := by
  simp only [execWrbegin] at h
  split_ifs at h with hfits <;> cases h
  · exact .inr ⟨_, _, hfits, rfl⟩
  · exact .inl rfl

/-- Everything a command can do to the byte reader: nothing, a bind to a buffer that fits, or taking bits (R171, R172). -/
theorem exec_br_cases {i : Instr} {s t : State} (h : exec i s = .next t) (hok : ReaderOk 64 s.br) :
    t.br = s.br ∨ (∃ base length, bufferFits base length = true ∧ t.br = Reader.bind base length) ∨
      (¬ Exhausted s.br ∧ ∃ back ≤ 1, TakesBits s.mem back s.br t.br) := by
  obtain ⟨hunused, -⟩ := exec_unusedCursors h
  cases i with
  | brbegin rs1 rs2 => exact (execBrbegin_binds h).imp_right .inl
  | brread rd => exact (execBrread_takes h hok).imp_right .inr
  | _ => exact .inl (hunused rfl)

/-- Everything a command can do to the word reader: nothing, a bind to a buffer that fits, or taking 61 bits (R221, R222). -/
theorem exec_wr_cases {i : Instr} {s t : State} (h : exec i s = .next t) (hok : ReaderOk 63 s.wr) :
    t.wr = s.wr ∨ (∃ base length, bufferFits base length = true ∧ t.wr = Reader.bind base length) ∨
      (¬ Exhausted s.wr ∧ TakesBits s.mem 0 s.wr t.wr) := by
  obtain ⟨-, -, hunused, -⟩ := exec_unusedCursors h
  cases i with
  | wrbegin rs1 rs2 => exact (execWrbegin_binds h).imp_right .inl
  | wrread rd => exact (execWrread_takes h hok).imp_right .inr
  | _ => exact .inl (hunused rfl)

theorem exec_keeps_brOk {i : Instr} {s t : State} (hok : ReaderOk 64 s.br) (h : exec i s = .next t) : ReaderOk 64 t.br := by
  obtain hsame | ⟨base, length, -, hbind⟩ | ⟨hne, back, hback, htakes⟩ := exec_br_cases h hok
  · exact hsame ▸ hok
  · exact hbind ▸ readerOk_bind (by decide) base length
  · exact readerOk_takes hok hne hback htakes (by omega)

theorem exec_keeps_wrOk {i : Instr} {s t : State} (hok : ReaderOk 63 s.wr) (h : exec i s = .next t) : ReaderOk 63 t.wr := by
  obtain hsame | ⟨base, length, -, hbind⟩ | ⟨hne, htakes⟩ := exec_wr_cases h hok
  · exact hsame ▸ hok
  · exact hbind ▸ readerOk_bind (by decide) base length
  · exact readerOk_takes (readerOk_mono hok (by decide)) hne (Nat.zero_le 1) htakes (by decide)

theorem exec_keeps_buffersOk {i : Instr} {s t : State} (hbuf : BuffersOk s) (hok : CursorsOk s) (h : exec i s = .next t) :
    BuffersOk t := by
  obtain ⟨hbr, -, hwr, -⟩ := hok
  obtain ⟨hbrbuf, hwrbuf⟩ := hbuf
  have hbind : ∀ {base length}, bufferFits base length = true → BufferOk (Reader.bind base length) := bufferFits_iff.1
  constructor
  · obtain hsame | ⟨base, length, hfits, heq⟩ | ⟨-, back, -, htakes⟩ := exec_br_cases h hbr
    · exact hsame ▸ hbrbuf
    · exact heq ▸ hbind hfits
    · exact bufferOk_takes hbrbuf htakes
  · obtain hsame | ⟨base, length, hfits, heq⟩ | ⟨-, htakes⟩ := exec_wr_cases h hwr
    · exact hsame ▸ hwrbuf
    · exact heq ▸ hbind hfits
    · exact bufferOk_takes hwrbuf htakes

/-! ### The writers -/

/-- Putting bits keeps the writer's invariant, whatever memory holds (R196, R243). -/
theorem Writer.put_writerOk {p : Platform} {m m' : Memory} {w w' : Writer} {v : Word} {wid : Nat} (hok : WriterOk w)
    (hwid : wid ≤ 61) (hv : v.toNat < 2 ^ wid) (h : w.put p m v wid = .stored m' w') : WriterOk w' := by
  have hlt := w.avail.isLt
  simp only [Writer.put] at h
  split_ifs at h with hfull
  · split at h <;> cases h
    have havail : (BitVec.ofNat 6 (w.avail.toNat + wid - 64)).toNat = w.avail.toNat + wid - 64 := by
      rw [BitVec.toNat_ofNat, Nat.mod_eq_of_lt (by omega)]
    rw [WriterOk, havail, BitVec.toNat_ushiftRight, Nat.shiftRight_eq_div_pow, Nat.div_lt_iff_lt_mul (Nat.two_pow_pos _),
      ← Nat.pow_add]
    exact hv.trans_le (Nat.pow_le_pow_right Nat.two_pos (by omega))
  · cases h
    have havail : (BitVec.ofNat 6 (w.avail.toNat + wid)).toNat = w.avail.toNat + wid := by
      rw [BitVec.toNat_ofNat, Nat.mod_eq_of_lt (by omega)]
    rw [WriterOk, havail, Writer.toNat_workspace hok]
    calc (w.ws.toNat + 2 ^ w.avail.toNat * v.toNat) % 2 ^ 64 ≤ w.ws.toNat + 2 ^ w.avail.toNat * v.toNat := Nat.mod_le _ _
      _ < 2 ^ w.avail.toNat * (v.toNat + 1) := by rw [Nat.mul_succ]; omega
      _ ≤ 2 ^ w.avail.toNat * 2 ^ wid := Nat.mul_le_mul_left _ hv
      _ = 2 ^ (w.avail.toNat + wid) := (Nat.pow_add ..).symm

theorem Writer.flush_writerOk {p : Platform} {m m' : Memory} {w w' : Writer} (h : w.flush p m = .stored m' w') :
    WriterOk w' := by
  simp only [Writer.flush] at h
  split at h <;> cases h
  exact Nat.two_pow_pos 0

theorem exec_keeps_bwOk {i : Instr} {s t : State} (hok : WriterOk s.bw) (h : exec i s = .next t) : WriterOk t.bw := by
  obtain ⟨-, hunused, -⟩ := exec_unusedCursors h
  cases i with
  | bwbegin rs1 => cases h; exact writerOk_bind _
  | bwwrite rs1 =>
    simp only [exec, execBwwrite] at h
    split_ifs at h with hbound hcanonical
    · have hv := isCanonical_iff.1 hcanonical
      rw [elementWidth_eq_byteWidth hv] at h
      split at h
      next => obtain ⟨a, -, rfl⟩ := State.portStop_eq_next h; exact hok
      next hput => cases h; exact Writer.put_writerOk hok (byteWidth_le _) (lt_two_pow_byteWidth hv) hput
    · cases h; exact hok
    · cases h; exact hok
  | bwflush rd =>
    simp only [exec, execBwflush] at h
    split_ifs at h
    · split at h
      next => obtain ⟨a, -, rfl⟩ := State.portStop_eq_next h; exact hok
      next hflush => cases h; exact Writer.flush_writerOk hflush
    · cases h; exact hok
  | _ => exact (hunused rfl).symm ▸ hok

theorem exec_keeps_wwOk {i : Instr} {s t : State} (hok : WriterOk s.ww) (h : exec i s = .next t) : WriterOk t.ww := by
  obtain ⟨-, -, -, hunused⟩ := exec_unusedCursors h
  cases i with
  | wwbegin rs1 => cases h; exact writerOk_bind _
  | wwwrite rs1 =>
    simp only [exec, execWwwrite] at h
    split_ifs at h with hbound hcanonical
    · have hv : (s.getReg rs1).toNat < 2 ^ 61 := Nat.lt_of_lt_pred (isCanonical_iff.1 hcanonical)
      split at h
      next => obtain ⟨a, -, rfl⟩ := State.portStop_eq_next h; exact hok
      next hput => cases h; exact Writer.put_writerOk hok (le_refl 61) hv hput
    · cases h; exact hok
    · cases h; exact hok
  | wwflush rd =>
    simp only [exec, execWwflush] at h
    split_ifs at h
    · split at h
      next => obtain ⟨a, -, rfl⟩ := State.portStop_eq_next h; exact hok
      next hflush => cases h; exact Writer.flush_writerOk hflush
    · cases h; exact hok
  | _ => exact (hunused rfl).symm ▸ hok

theorem exec_keeps_cursorsOk {i : Instr} {s t : State} (hok : CursorsOk s) (h : exec i s = .next t) : CursorsOk t := by
  obtain ⟨hbr, hbw, hwr, hww⟩ := hok
  exact ⟨exec_keeps_brOk hbr h, exec_keeps_bwOk hbw h, exec_keeps_wrOk hwr h, exec_keeps_wwOk hww h⟩

theorem cursorsOk_reset : CursorsOk State.reset := by decide

theorem buffersOk_reset : BuffersOk State.reset := by decide

theorem errorRecordOk_reset : ErrorRecordOk State.reset := by decide

theorem keptByEffects_cursorsOk : KeptByEffects CursorsOk where
  bus _ _ h := h
  setReg _ _ _ h := h
  control _ _ _ h := h
  clearError _ h := h
  clearDone _ h := h
  applyReset _ _ := cursorsOk_reset
  reply _ _ h := h
  setByte _ _ _ h := h
  freeCount _ _ h := h
  illegal _ _ h := h
  exec _ _ _ h hexec := exec_keeps_cursorsOk (s := State.accept _) h hexec

theorem keptByEffects_buffersOk : KeptByEffects fun s => BuffersOk s ∧ CursorsOk s where
  bus _ _ h := h
  setReg _ _ _ h := h
  control _ _ _ h := h
  clearError _ h := h
  clearDone _ h := h
  applyReset _ _ := ⟨buffersOk_reset, cursorsOk_reset⟩
  reply _ _ h := h
  setByte _ _ _ h := h
  freeCount _ _ h := h
  illegal _ _ h := h
  exec _ _ _ h hexec := ⟨exec_keeps_buffersOk (s := State.accept _) h.1 h.2 hexec,
    exec_keeps_cursorsOk (s := State.accept _) h.2 hexec⟩

/-! ### The error record, BUSY and the platform -/

/-- No command raises "no error" (R31, R256). -/
theorem mayRaise_none (i : Instr) : mayRaise i .none = false := by cases i <;> rfl

/-- Raising an error other than "no error" leaves a record that says so (R34, R35, R252). -/
theorem errorRecordOk_raise (s : State) {e : ECode} (he : e ≠ .none) (cmd info : Word) :
    ErrorRecordOk (s.raise e cmd info) :=
  ⟨iff_of_true rfl he, fun h => absurd h (by simp), fun h => if_neg h⟩

theorem exec_keeps_errorRecordOk {i : Instr} {s t : State} (hok : ErrorRecordOk s) (h : exec i s = .next t) :
    ErrorRecordOk t := by
  obtain ⟨m, e, info, rfl, hmay, -⟩ | ⟨br, bw, wr, ww, empty, m, rd, v, rfl, -⟩ := exec_cases h
  · refine errorRecordOk_raise _ (fun he => ?_) _ _
    rw [he, mayRaise_none] at hmay
    cases hmay
  · exact hok

/-- Every command ends BUSY (R27). -/
theorem exec_busy {i : Instr} {s t : State} (h : exec i s = .next t) : t.busy = false := by
  obtain ⟨m, e, info, rfl, -⟩ | ⟨br, bw, wr, ww, empty, m, rd, v, rfl, -⟩ := exec_cases h <;> rfl

/-- No command changes the platform (R63). -/
theorem exec_platform {i : Instr} {s t : State} (h : exec i s = .next t) : t.platform = s.platform := by
  obtain ⟨m, e, info, rfl, -⟩ | ⟨br, bw, wr, ww, empty, m, rd, v, rfl, -⟩ := exec_cases h <;> rfl

theorem keptByEffects_errorRecordOk : KeptByEffects ErrorRecordOk where
  bus _ _ h := h
  setReg _ _ _ h := h
  control _ _ _ h := h
  clearError _ _ := ⟨by simp, fun _ => rfl, fun _ => rfl⟩
  clearDone _ h := h
  applyReset _ _ := errorRecordOk_reset
  reply _ _ h := h
  setByte _ _ _ h := h
  freeCount _ _ h := h
  illegal s v _ := errorRecordOk_raise s.accept (by decide) v 0#64
  exec _ _ _ h hexec := exec_keeps_errorRecordOk (s := State.accept _) h hexec

theorem keptByEffects_notBusy : KeptByEffects fun s => s.busy = false where
  bus _ _ h := h
  setReg _ _ _ h := h
  control _ _ _ h := h
  clearError _ h := h
  clearDone _ h := h
  applyReset _ _ := rfl
  reply _ _ h := h
  setByte _ _ _ h := h
  freeCount _ _ h := h
  illegal _ _ _ := rfl
  exec _ _ _ _ hexec := exec_busy hexec

theorem keptByEffects_platform (p : Platform) : KeptByEffects fun s => s.platform = p where
  bus _ _ h := h
  setReg _ _ _ h := h
  control _ _ _ h := h
  clearError _ h := h
  clearDone _ h := h
  applyReset _ h := h
  reply _ _ h := h
  setByte _ _ _ h := h
  freeCount _ _ h := h
  illegal _ _ h := h
  exec _ _ _ h hexec := (exec_platform hexec).trans h

end Sys2Proof.Machine
end

section
/-! PROOFS. The statements about what every step keeps and about the events during a command, from the laws above. -/

namespace Sys2Proof.Proofs

open Sys2Proof.Machine Sys2Proof.Safety

/-- Settles O52: each command keeps the invariant of the cursor it uses, and an event that is no command keeps or resets them. -/
theorem everyStepKeepsTheCursorInvariant : Obligations.EveryStepKeepsTheCursorInvariant := fun _ _ hs h =>
  keptByEffects_cursorsOk.step hs h

/-- Settles O53: memory is only ever written byte by byte. -/
theorem everyStepKeepsMemoryCanonical : Obligations.EveryStepKeepsMemoryCanonical := fun _ _ hs h =>
  keptByEffects_wf.step hs h

/-- Settles O54, each part an invariant of its own. -/
theorem everyStepKeepsTheErrorRecordAndBuffers : Obligations.EveryStepKeepsTheErrorRecordAndBuffers := fun s _ h =>
  ⟨fun hs => keptByEffects_errorRecordOk.step hs h, fun hs => keptByEffects_notBusy.step hs h,
    fun hs => (keptByEffects_buffersOk.step hs h).1, (keptByEffects_platform s.platform).step rfl h⟩

/-- Settles O56: the free bytes before and after the command are at raced addresses, and memory stays canonical in between. -/
theorem raceTouchesOnlyTheRacedBytes : Obligations.RaceTouchesOnlyTheRacedBytes := by
  intro s t v racing rest hm hbus hstep
  rw [step_cons hbus] at hstep
  obtain ⟨u, hcmd, rfl⟩ := State.raced_next hstep
  have hm' : (State.havoc { s with bus := rest } racing).mem.wf = true :=
    keptByEffects_wf.havoc (s := { s with bus := rest }) racing hm
  have hu : u.mem.wf = true := keptByEffects_wf.writeCmd hm' hcmd
  obtain ⟨m, c, hbefore, hbytes⟩ := State.havoc_spec (s := { s with bus := rest }) hm racing
  obtain ⟨m', c', hafter, hbytes'⟩ := State.havoc_spec hu racing
  rw [hbefore] at hcmd
  rw [hafter]
  exact ⟨m, c, u, hbytes, hcmd, hbytes', fun _ => rfl, ⟨rfl, rfl, rfl, rfl⟩, ⟨rfl, rfl, rfl, rfl⟩, ⟨rfl, rfl⟩, rfl, rfl, rfl⟩

/-- Settles O57: the reset keeps of the command's memory at most eight bytes from its write's address on. -/
theorem abandonedCommandLeavesAPrefixOfItsWrite : Obligations.AbandonedCommandLeavesAPrefixOfItsWrite := by
  intro s u v i rest hm hbus hd hcmd
  have hstep := (step_cons hbus).trans (State.abandoned_of_next (s := { s with bus := rest }) hd hcmd)
  rw [writeBase_bus] at hstep
  exact ⟨_, Config.freePrefix s.freeCount % 9, hstep, by omega, fun _ => rfl, ⟨rfl, rfl, rfl, rfl⟩, ⟨rfl, rfl, rfl, rfl⟩,
    ⟨rfl, rfl⟩, rfl, rfl, rfl, fun b => Memory.byteAt_prefixOf hm b⟩

/-- Settles O58, by whether the register read is held until the command ends. -/
theorem readDuringACommandSeesNoHalfState : Obligations.ReadDuringACommandSeesNoHalfState := by
  intro s u v off rest haligned hs hbus hcmd
  have hstep : step s = .next (u.reply (if readIsHeld off then u.windowRead off else s.accept.windowRead off)) := by
    rw [step_cons hbus, State.perform, if_pos (windowAdmits_eight haligned)]
    exact State.polled_of_next (s := { s with bus := rest }) off hs hcmd
  refine ⟨_, hstep, fun hoff => ?_, fun hoff => ?_, fun hoff => if_pos (readIsHeld_eq_true hoff)⟩
  · have hlt : off.toNat < 0x100 := by
      simp only [List.mem_cons, List.not_mem_nil, or_false] at hoff
      omega
    rw [readIsHeld_eq_false hlt]
    exact s.windowRead_accept hoff
  · obtain rfl : off = 0x010#12 := BitVec.eq_of_toNat_eq hoff
    rw [readIsHeld_eq_false (by decide)]
    exact s.statusWord_accept

/-- Settles O59, from what a store of consecutive bytes leaves at each address. -/
theorem hostStoreWritesItsBytes : Obligations.HostStoreWritesItsBytes := by
  intro s a bytes rest hm hbus hlen
  exact ⟨_, step_cons hbus, Memory.byteAt_storeBytes hm a hlen, fun _ => rfl, ⟨rfl, rfl, rfl, rfl⟩, ⟨rfl, rfl, rfl, rfl⟩,
    ⟨rfl, rfl⟩, rfl, rfl, rfl, rfl, rfl, rfl, rfl⟩

end Sys2Proof.Proofs
end

section
/-! PROOFS. A reader as a position in the bit stream of its buffer: the bits it has left are one number, and taking bits divides
it (spec `20_memory.md` R65, `42_byte_codec.md` R170–R178, `43_word_codec.md` R220–R227). -/

namespace Sys2Proof.Machine

open Sys2Proof.Safety

/-! ### The number of a buffer -/

/-- The number of a buffer in two parts: the first bytes are its low bits. -/
theorem streamNat_add (m : Memory) (a : Word) (n k : Nat) :
    streamNat m a (n + k) = streamNat m a n + 256 ^ n * streamNat m (a + BitVec.ofNat 64 n) k := by
  induction n generalizing a with
  | zero => simp [streamNat]
  | succ n ih =>
    rw [Nat.succ_add, streamNat, streamNat, ih, ← add_ofNat_succ, pow_succ']
    ring

/-- The number of a buffer depends on its bytes alone. -/
theorem streamNat_congr {m m' : Memory} {a : Word} {n : Nat}
    (h : ∀ j < n, m.byteAt (a + BitVec.ofNat 64 j).toNat = m'.byteAt (a + BitVec.ofNat 64 j).toNat) :
    streamNat m a n = streamNat m' a n := by
  induction n generalizing a with
  | zero => rfl
  | succ n ih =>
    have hfirst := h 0 n.succ_pos
    rw [BitVec.add_zero] at hfirst
    rw [streamNat, streamNat, hfirst, ih fun j hj => by rw [← add_ofNat_succ]; exact h (j + 1) (Nat.succ_lt_succ hj)]

/-! ### The bits a reader has left -/

/-- The stream bits a reader has left, as one number: the workspace and above it every byte not yet read (R43). -/
def bitsLeft (m : Memory) (r : Reader) : Nat :=
  r.ws.toNat + 2 ^ r.avail.toInt.toNat * streamNat m r.addr r.rem.toNat

theorem bitsLeft_congr {m m' : Memory} {r : Reader}
    (h : ∀ j < r.rem.toNat, m.byteAt (r.addr + BitVec.ofNat 64 j).toNat = m'.byteAt (r.addr + BitVec.ofNat 64 j).toNat) :
    bitsLeft m r = bitsLeft m' r := by
  rw [bitsLeft, bitsLeft, streamNat_congr h]

/-- A reader just bound has the whole buffer left. -/
theorem bitsLeft_bind (m : Memory) (a n : Word) : bitsLeft m (Reader.bind a n) = streamNat m a n.toNat := by
  simp [bitsLeft, Reader.bind]

/-- An exhausted reader has no bit left (R175, R225). -/
theorem bitsLeft_exhausted {hi : Int} {m : Memory} {r : Reader} (hok : ReaderOk hi r) (h : Exhausted r) :
    bitsLeft m r = 0 := by
  obtain ⟨hws, -⟩ := hok
  obtain ⟨hrem, havail⟩ := h
  rw [Int.toNat_of_nonpos havail] at hws
  rw [bitsLeft, hrem, Nat.lt_one_iff.1 hws]
  simp [streamNat]

/-- The bits left are the bits in hand and above them the bytes a read does not take. -/
theorem bitsLeft_eq (m : Memory) (r : Reader) :
    bitsLeft m r = bitsInHand m r + 2 ^ (r.avail.toInt.toNat + 8 * bytesToRead r) *
      streamNat m (r.addr + BitVec.ofNat 64 (bytesToRead r)) (r.rem.toNat - bytesToRead r) := by
  obtain ⟨-, hle⟩ := bytesToRead_le r
  have hsplit := streamNat_add m r.addr (bytesToRead r) (r.rem.toNat - bytesToRead r)
  rw [Nat.add_sub_cancel' hle] at hsplit
  rw [bitsLeft, hsplit, bitsInHand, pow_add, pow_mul]
  ring

/-- A read has 61 bits in hand, or takes the last byte (R173). -/
theorem enough_or_last (r : Reader) : r.rem.toNat - bytesToRead r = 0 ∨ 61 ≤ r.avail.toInt.toNat + 8 * bytesToRead r := by
  simp only [bytesToRead]
  split <;> omega

/-- The candidate of a read is the low 61 bits of what is left (R172, R222). -/
theorem candidate_eq (m : Memory) (r : Reader) : candidate m r = bitsLeft m r % 2 ^ 61 := by
  rw [candidate, bitsLeft_eq]
  obtain hlast | henough := enough_or_last r
  · simp [hlast, streamNat]
  · rw [← Nat.add_sub_cancel' henough, pow_add, mul_assoc, Nat.add_mul_mod_self_left]

/-- Taking bits leaves the others: the number of the bits left is divided (R172, R222). -/
theorem bitsLeft_takes {m : Memory} {back : Nat} {r r' : Reader} (hav : 0 ≤ r.avail.toInt) (hback : back ≤ 1)
    (ht : TakesBits m back r r') : bitsLeft m r' = bitsLeft m r / 2 ^ (61 - back) := by
  obtain ⟨-, hws, havail, haddr, hrem⟩ := ht
  rw [bitsLeft_eq m r, bitsLeft, hws, haddr, hrem]
  obtain hlast | henough := enough_or_last r
  · simp [hlast, streamNat]
  · have havail' : r'.avail.toInt.toNat = r.avail.toInt.toNat + 8 * bytesToRead r - (61 - back) := by omega
    rw [havail']
    conv_rhs => rw [← Nat.add_sub_cancel' (show 61 - back ≤ r.avail.toInt.toNat + 8 * bytesToRead r by omega), pow_add,
      mul_assoc, Nat.add_mul_div_left _ _ (Nat.two_pow_pos _)]

/-! ### A reader that can read -/

/-- Every byte the reader has not read is at an address in `Q`. -/
def Unread (Q : Word → Prop) (r : Reader) : Prop := ∀ j < r.rem.toNat, Q (r.addr + BitVec.ofNat 64 j)

theorem Unread.takes {Q : Word → Prop} {m : Memory} {back : Nat} {r r' : Reader} (h : Unread Q r)
    (ht : TakesBits m back r r') : Unread Q r' := by
  obtain ⟨-, -, -, haddr, hrem⟩ := ht
  intro j hj
  rw [haddr, BitVec.add_assoc, ← BitVec.ofNat_add]
  exact h _ (by omega)

/-- A bound reader in its invariant whose unread bytes are all in `Q`. -/
structure Ready (hi : Int) (Q : Word → Prop) (r : Reader) : Prop where
  bound : r.bound = true
  ok : ReaderOk hi r
  unread : Unread Q r

section Ready

variable {hi : Int} {Q : Word → Prop} {m : Memory} {r r' : Reader}

theorem Ready.bind {a n : Word} (hhi : 0 ≤ hi) (h : ∀ j < n.toNat, Q (a + BitVec.ofNat 64 j)) :
    Ready hi Q (Reader.bind a n) :=
  ⟨rfl, readerOk_bind hhi a n, h⟩

theorem Ready.takes {hi' : Int} {back : Nat} (h : Ready hi Q r) (hle : hi ≤ 64) (hne : ¬ Exhausted r) (hback : back ≤ 1)
    (ht : TakesBits m back r r') (hhi : 63 + (back : Int) ≤ hi') : Ready hi' Q r' :=
  ⟨ht.1.trans h.bound, readerOk_takes (readerOk_mono h.ok hle) hne hback ht hhi, h.unread.takes ht⟩

/-- The port performs the bytes the next read takes, because it performs every unread byte. -/
theorem Ready.port {p : Platform} (h : Ready hi Q r) (hQ : ∀ a, Q a → p.check .read a = none) :
    ∀ j < bytesToRead r, p.check .read (r.addr + BitVec.ofNat 64 j) = none := fun j hj =>
  hQ _ (h.unread j (hj.trans_le (bytesToRead_le r).2))

end Ready

/-! ### The word reader's reads -/

/-- A WRREAD on a ready reader gives the low 61 bits of what is left and keeps the others, exhausted or not (R222, R225). -/
theorem exec_wrread_ready {Q : Word → Prop} {s : State} (rd : Reg) (h : Ready 63 Q s.wr)
    (hQ : ∀ a, Q a → s.platform.check .read a = none) :
    ∃ r v, exec (.wrread rd) s = .next (({ s with wr := r }).finish rd v) ∧ v.toNat = bitsLeft s.mem s.wr % 2 ^ 61 ∧
      bitsLeft s.mem r = bitsLeft s.mem s.wr / 2 ^ 61 ∧ Ready 63 Q r := by
  by_cases hex : Exhausted s.wr
  · refine ⟨s.wr, 0#64, exec_wrread_exhausted h.bound (Reader.pull_exhausted hex), ?_, ?_, h⟩
    · rw [bitsLeft_exhausted h.ok hex]
      rfl
    · rw [bitsLeft_exhausted h.ok hex, Nat.zero_div]
  · obtain ⟨e, hpull, hc, hws, hnav, haddr, hrem⟩ := Reader.pull_element (m := s.mem) h.ok hex (h.port hQ)
    have htakes := Reader.after_takes (readerOk_mono h.ok (by decide)) hex hws hnav haddr hrem
    exact ⟨_, e.c, exec_wrread_element h.bound hpull, hc.trans (candidate_eq s.mem s.wr),
      bitsLeft_takes (readerOk_avail_nonneg h.ok hex) (Nat.zero_le 1) htakes,
      h.takes (by decide) hex (Nat.zero_le 1) htakes (by decide)⟩

theorem wordReads_succ {rd : Reg} {k : Nat} {s t : State} (h : exec (.wrread rd) s = .next t) (ht : t.err = false) :
    wordReads rd (k + 1) s = (t.getReg rd).toNat :: wordReads rd k t := by
  simp [wordReads, h, ht]

/-- Successive WRREADs give successive groups of 61 bits of what is left, before and after exhaustion (R227). -/
theorem wordReads_eq {rd : Reg} (hrd : rd ≠ 0#4) (k : Nat) {s : State} (hs : s.err = false)
    (h : Ready 63 (fun a => s.platform.check .read a = none) s.wr) :
    wordReads rd k s = (List.range k).map fun j => bitsLeft s.mem s.wr / 2 ^ (61 * j) % 2 ^ 61 := by
  induction k generalizing s with
  | zero => rfl
  | succ k ih =>
    obtain ⟨r, v, hexec, hv, hleft, hready⟩ := exec_wrread_ready rd h fun _ ha => ha
    have hrest := ih (s := ({ s with wr := r }).finish rd v) hs hready
    rw [wordReads_succ hexec hs, hrest, List.range_succ_eq_map, List.map_cons, List.map_map,
      State.getReg_finish_same _ hrd, hv, mul_zero, pow_zero, Nat.div_one]
    refine congrArg _ (List.map_congr_left fun j _ => ?_)
    rw [State.finish_mem, State.finish_wr, hleft, Nat.div_div_eq_div_mul, ← pow_add, Function.comp_apply,
      Nat.succ_eq_add_one, Nat.mul_add, mul_one, Nat.add_comm 61]

end Sys2Proof.Machine
end

section
/-! PROOFS. The elements of a byte stream: what each candidate is emitted as, how many elements there are, and the byte reader at
a position of the stream (spec `42_byte_codec.md` R170, R172, R174, R178–R182). -/

namespace Sys2Proof.Machine

open Sys2Proof.Safety

/-! ### One element -/

/-- What a 61-bit candidate is emitted as: an ambiguous one as the placeholder (R170, R174). -/
def emitted (c : Nat) : Nat := if Ambiguous c then 2 ^ 60 - 1 else c

theorem emitted_of_ambiguous {c : Nat} (h : Ambiguous c) : emitted c = 2 ^ 60 - 1 := if_pos h

theorem emitted_of_not_ambiguous {c : Nat} (h : ¬ Ambiguous c) : emitted c = c := if_neg h

/-- An element takes 60 bits exactly when its candidate is ambiguous: no other candidate is the placeholder (R170, R191). -/
theorem byteWidth_emitted (c : Nat) : byteWidth (emitted c) = if Ambiguous c then 60 else 61 := by
  by_cases h : Ambiguous c
  · rw [emitted_of_ambiguous h, if_pos h]
    rfl
  · rw [emitted_of_not_ambiguous h, if_neg h, byteWidth, if_neg]
    rintro rfl
    exact h rfl

/-- Every element is a canonical value (R180). -/
theorem emitted_lt {c : Nat} (hc : c < 2 ^ 61) : emitted c < 2 ^ 61 - 1 := by
  by_cases h : Ambiguous c
  · rw [emitted_of_ambiguous h]
    decide
  · rw [emitted_of_not_ambiguous h]
    rw [Ambiguous] at h
    omega

/-- An element is the low bits of the stream that it takes. -/
theorem emitted_eq_mod (y : Nat) : emitted (y % 2 ^ 61) = y % 2 ^ byteWidth (emitted (y % 2 ^ 61)) := by
  rw [byteWidth_emitted]
  by_cases h : Ambiguous (y % 2 ^ 61)
  · rw [emitted_of_ambiguous h, if_pos h]
    rw [Ambiguous] at h
    omega
  · rw [emitted_of_not_ambiguous h, if_neg h]

/-! ### The list of elements -/

section Elements

variable {x len pos : Nat}

theorem byteElements_of_le (fuel : Nat) (h : len ≤ pos) : byteElements x len fuel pos = [] := by
  cases fuel with
  | zero => rfl
  | succ fuel => exact if_pos h

theorem byteElements_of_lt (fuel : Nat) (h : pos < len) :
    byteElements x len (fuel + 1) pos = emitted (x / 2 ^ pos % 2 ^ 61) ::
      byteElements x len fuel (pos + byteWidth (emitted (x / 2 ^ pos % 2 ^ 61))) := by
  rw [byteElements, if_neg (Nat.not_le.2 h), byteWidth_emitted]
  by_cases hamb : Ambiguous (x / 2 ^ pos % 2 ^ 61)
  · simp only [emitted_of_ambiguous hamb, if_pos hamb]
  · simp only [emitted_of_not_ambiguous hamb, if_neg hamb]

theorem sixty_le_byteWidth (v : Nat) : 60 ≤ byteWidth v := by
  rw [byteWidth]
  split <;> decide

/-- The element count (R179): `e` elements are the placeholder and take one bit less. -/
theorem length_byteElements (fuel : Nat) (h : len - pos < fuel) :
    (byteElements x len fuel pos).length = (len - pos + (byteElements x len fuel pos).count (2 ^ 60 - 1) + 60) / 61 := by
  induction fuel generalizing pos with
  | zero => omega
  | succ fuel ih =>
    by_cases hpos : len ≤ pos
    · rw [byteElements_of_le _ hpos, List.length_nil, List.count_nil]
      omega
    · have hlt := Nat.not_le.1 hpos
      set v := emitted (x / 2 ^ pos % 2 ^ 61) with hv
      have hwid := sixty_le_byteWidth v
      have hrest := ih (pos := pos + byteWidth v) (by omega)
      have hend : len ≤ pos + byteWidth v → (byteElements x len fuel (pos + byteWidth v)).count (2 ^ 60 - 1) = 0 := fun hle => by
        rw [byteElements_of_le _ hle, List.count_nil]
      rw [byteElements_of_lt fuel hlt, ← hv, List.length_cons, List.count_cons, hrest]
      by_cases hplaceholder : v = 2 ^ 60 - 1
      · have hw : byteWidth v = 60 := if_pos hplaceholder
        rw [if_pos (beq_iff_eq.2 hplaceholder)]
        omega
      · have hw : byteWidth v = 61 := if_neg hplaceholder
        rw [if_neg (mt beq_iff_eq.1 hplaceholder)]
        omega

/-- Each element takes 60 bits at least, so their number is bounded whatever the buffer holds (R182). -/
theorem length_byteElements_le (fuel : Nat) : (byteElements x len fuel pos).length ≤ (len - pos + 59) / 60 := by
  induction fuel generalizing pos with
  | zero => exact Nat.zero_le _
  | succ fuel ih =>
    by_cases hpos : len ≤ pos
    · rw [byteElements_of_le _ hpos]
      exact Nat.zero_le _
    · have hrest := ih (pos := pos + byteWidth (emitted (x / 2 ^ pos % 2 ^ 61)))
      have hwid := sixty_le_byteWidth (emitted (x / 2 ^ pos % 2 ^ 61))
      rw [byteElements_of_lt fuel (Nat.not_le.1 hpos), List.length_cons]
      omega

/-- Every element is below p (R180). -/
theorem lt_of_mem_byteElements (fuel : Nat) {c : Nat} (h : c ∈ byteElements x len fuel pos) : c < 2 ^ 61 - 1 := by
  induction fuel generalizing pos with
  | zero => cases h
  | succ fuel ih =>
    by_cases hpos : len ≤ pos
    · rw [byteElements_of_le _ hpos] at h
      cases h
    · rw [byteElements_of_lt fuel (Nat.not_le.1 hpos), List.mem_cons] at h
      obtain rfl | h := h
      · exact emitted_lt (Nat.mod_lt _ (by decide))
      · exact ih h

end Elements

/-! ### The byte reader at a position -/

/-- The reader stands at bit `pos` of the stream `x` of `len` bits: what it has left is what the stream has from there on. -/
structure AtBit (x len pos : Nat) (m : Memory) (r : Reader) : Prop where
  bits : bitsLeft m r = x / 2 ^ pos
  count : (len : Int) - pos = r.avail.toInt + 8 * r.rem.toNat

section AtBit

variable {hi : Int} {x len pos : Nat} {m : Memory} {r r' : Reader}

theorem atBit_bind (m : Memory) (a n : Word) : AtBit (streamNat m a n.toNat) (8 * n.toNat) 0 m (Reader.bind a n) :=
  ⟨by rw [bitsLeft_bind, pow_zero, Nat.div_one], by simp [Reader.bind]⟩

/-- The end of the stream is where the reader is exhausted (R175). -/
theorem AtBit.exhausted_iff (h : AtBit x len pos m r) (hok : ReaderOk hi r) : Exhausted r ↔ len ≤ pos := by
  obtain ⟨-, hcount⟩ := h
  obtain ⟨-, hneg, -⟩ := hok
  have hrem : r.rem = 0#64 ↔ r.rem.toNat = 0 := by rw [← BitVec.toNat_inj]; rfl
  rw [Exhausted, hrem]
  rw [hrem] at hneg
  omega

/-- Taking bits moves the position by their number. -/
theorem AtBit.takes {back : Nat} (h : AtBit x len pos m r) (hok : ReaderOk hi r) (hne : ¬ Exhausted r) (hback : back ≤ 1)
    (ht : TakesBits m back r r') : AtBit x len (pos + (61 - back)) m r' := by
  obtain ⟨hbits, hcount⟩ := h
  refine ⟨?_, ?_⟩
  · rw [bitsLeft_takes (readerOk_avail_nonneg hok hne) hback ht, hbits, Nat.div_div_eq_div_mul, ← pow_add]
  · obtain ⟨-, -, havail, -, hrem⟩ := ht
    obtain ⟨-, hle⟩ := bytesToRead_le r
    omega

end AtBit

/-- Before the end of the stream a BRREAD emits the element at the reader's position (R172, R174). -/
theorem exec_brread_emits {Q : Word → Prop} {x len pos : Nat} {s : State} (rd : Reg) (h : Ready 64 Q s.br)
    (hQ : ∀ a, Q a → s.platform.check .read a = none) (hat : AtBit x len pos s.mem s.br) (hlt : pos < len) :
    ∃ r v, exec (.brread rd) s = .next (({ s with br := r, empty := false }).finish rd v) ∧
      v.toNat = emitted (x / 2 ^ pos % 2 ^ 61) ∧ Ready 64 Q r ∧ AtBit x len (pos + byteWidth v.toNat) s.mem r := by
  have hne : ¬ Exhausted s.br := mt (hat.exhausted_iff h.ok).1 (Nat.not_le.2 hlt)
  obtain ⟨e, hpull, hc, hws, hnav, haddr, hrem⟩ := Reader.pull_element (m := s.mem) h.ok hne (h.port hQ)
  obtain ⟨hamb, hplain⟩ := Reader.after_resolve_takes h.ok hne hc hws hnav haddr hrem
  rw [candidate_eq, hat.bits] at hamb hplain
  refine ⟨_, _, exec_brread_element h.bound hpull, ?_⟩
  have hwidth := byteWidth_emitted (x / 2 ^ pos % 2 ^ 61)
  by_cases hcase : Ambiguous (x / 2 ^ pos % 2 ^ 61)
  · obtain ⟨hvalue, htakes⟩ := hamb hcase
    rw [← emitted_of_ambiguous hcase] at hvalue
    rw [hvalue, hwidth, if_pos hcase]
    exact ⟨rfl, h.takes (le_refl _) hne (le_refl 1) htakes (by decide), hat.takes h.ok hne (le_refl 1) htakes⟩
  · obtain ⟨hvalue, htakes⟩ := hplain hcase
    rw [← emitted_of_not_ambiguous hcase] at hvalue
    rw [hvalue, hwidth, if_neg hcase]
    exact ⟨rfl, h.takes (le_refl _) hne (Nat.zero_le 1) htakes (by decide), hat.takes h.ok hne (Nat.zero_le 1) htakes⟩

/-- At the end of the stream a BRREAD answers Empty and changes nothing else (R172, R175). -/
theorem exec_brread_ends {Q : Word → Prop} {x len pos : Nat} {s : State} (rd : Reg) (h : Ready 64 Q s.br)
    (hat : AtBit x len pos s.mem s.br) (hle : len ≤ pos) :
    exec (.brread rd) s = .next ({ s with empty := true }).complete :=
  exec_brread_exhausted h.bound (Reader.pull_exhausted ((hat.exhausted_iff h.ok).2 hle))

theorem byteReads_succ {rd : Reg} {k : Nat} {s t : State} (h : exec (.brread rd) s = .next t) (ht : t.err = false) :
    byteReads rd (k + 1) s = (if t.empty then none else some (t.getReg rd).toNat) :: byteReads rd k t := by
  simp [byteReads, h, ht]

/-- Successive BRREADs give the elements from the reader's position on, then Empty for ever (R178). -/
theorem byteReads_eq {rd : Reg} (hrd : rd ≠ 0#4) {x len : Nat} (k : Nat) {fuel pos : Nat} {s : State} (hs : s.err = false)
    (h : Ready 64 (fun a => s.platform.check .read a = none) s.br) (hat : AtBit x len pos s.mem s.br)
    (hfuel : len - pos < fuel) :
    byteReads rd k s = (List.range k).map fun j => (byteElements x len fuel pos)[j]? := by
  induction k generalizing fuel pos s with
  | zero => rfl
  | succ k ih =>
    obtain ⟨fuel, rfl⟩ : ∃ f, fuel = f + 1 := Nat.exists_eq_succ_of_ne_zero (by omega)
    by_cases hpos : len ≤ pos
    · have hrest := ih (s := ({ s with empty := true }).complete) hs h hat hfuel
      rw [byteReads_succ (exec_brread_ends rd h hat hpos) hs, hrest, byteElements_of_le _ hpos, List.range_succ_eq_map,
        List.map_cons, List.map_map]
      rfl
    · have hlt := Nat.not_le.1 hpos
      obtain ⟨r, v, hexec, hv, hready, hat'⟩ := exec_brread_emits rd h (fun _ ha => ha) hat hlt
      have hwid := sixty_le_byteWidth v.toNat
      have hrest := ih (s := ({ s with br := r, empty := false }).finish rd v) (fuel := fuel) hs hready hat' (by omega)
      rw [byteReads_succ hexec hs, hrest, byteElements_of_lt fuel hlt, ← hv, State.getReg_finish_same _ hrd,
        List.range_succ_eq_map, List.map_cons, List.map_map]
      rfl

end Sys2Proof.Machine
end

section
/-! PROOFS. The statements about the readers' streams, from the laws above. -/

namespace Sys2Proof.Proofs

open Sys2Proof.Machine Sys2Proof.Safety

/-- Settles O42: a word reader just bound has the whole buffer left. -/
theorem wordReaderEmitsTheWordStream : Obligations.WordReaderEmitsTheWordStream := by
  intro s t rd rs1 rs2 k hrd hs hfits hport hexec
  obtain rfl : ({ s with wr := Reader.bind (s.getReg rs1) (s.getReg rs2) }).complete = t :=
    Host.Outcome.next.inj ((exec_wrbegin_of_fits (bufferFits_iff.2 hfits)).symm.trans hexec)
  set t := ({ s with wr := Reader.bind (s.getReg rs1) (s.getReg rs2) }).complete
  have hready : Ready 63 (fun a => t.platform.check .read a = none) t.wr := Ready.bind (by decide) hport
  have hleft : bitsLeft t.mem t.wr = streamNat s.mem (s.getReg rs1) (s.getReg rs2).toNat := bitsLeft_bind s.mem _ _
  rw [wordReads_eq (s := t) hrd k hs hready, hleft]
  rfl

/-- Settles O32: a byte reader just bound stands at the start of the stream. -/
theorem byteReaderEmitsTheElementStream : Obligations.ByteReaderEmitsTheElementStream := by
  intro s t rd rs1 rs2 k hrd hs hfits hport hexec
  rw [exec_brbegin_of_fits (bufferFits_iff.2 hfits)] at hexec
  cases hexec
  exact byteReads_eq hrd k hs (Ready.bind (by decide) hport) (atBit_bind s.mem _ _) (by omega)

/-- Settles O33, from the widths of the elements. -/
theorem elementCountOfABuffer : Obligations.ElementCountOfABuffer := by
  rintro m a n e rfl
  refine ⟨length_byteElements _ (by omega), ?_, fun c hc => lt_of_mem_byteElements _ hc⟩
  rw [toNat_maxWords, div_sixtyOne_eq_ceil_div_sixty]
  exact length_byteElements_le _

end Sys2Proof.Proofs
end

section
/-! PROOFS. A writer as a stream that grows: what has been written since its bind, full words in memory and the rest pending, and
the three commands of a writer, the byte codec's and the word codec's alike (spec `42_byte_codec.md` R190–R197,
`43_word_codec.md` R238–R243). -/

namespace Sys2Proof.Machine

open Sys2Proof.Safety

/-! ### Stored bytes -/

/-- The distance from a later base address. -/
theorem toNat_sub_add_ofNat (a b : Word) {n : Nat} (hn : n ≤ 2 ^ 64) :
    (b - (a + BitVec.ofNat 64 n)).toNat = ((b - a).toNat + (2 ^ 64 - n)) % 2 ^ 64 := by
  rw [sub_add_eq_sub_sub, BitVec.toNat_sub (b - a), BitVec.toNat_ofNat]
  omega

/-- The distance from the base address to its own byte `j`. -/
theorem toNat_add_ofNat_sub (a : Word) {j : Nat} (hj : j < 2 ^ 64) : (a + BitVec.ofNat 64 j - a).toNat = j := by
  rw [add_sub_cancel_left, BitVec.toNat_ofNat, Nat.mod_eq_of_lt hj]

/-- Byte `i` of a number is a byte of its low `n` bytes when `i < n`. -/
theorem byte_congr {v v' n i : Nat} (h : v % 256 ^ n = v' % 256 ^ n) (hi : i < n) :
    BitVec.ofNat 8 (v / 256 ^ i) = BitVec.ofNat 8 (v' / 256 ^ i) := by
  have hlow : ∀ y : Nat, y / 256 ^ i % 256 = y % 256 ^ n / 256 ^ i % 256 := fun y => by
    obtain ⟨k, rfl⟩ := Nat.exists_eq_add_of_lt hi
    rw [show i + k + 1 = i + (k + 1) by omega, pow_add, Nat.mod_mul_right_div_self,
      Nat.mod_mod_of_dvd _ (Dvd.intro_left _ (pow_succ 256 k).symm)]
  apply BitVec.eq_of_toNat_eq
  rw [BitVec.toNat_ofNat, BitVec.toNat_ofNat]
  exact (hlow v).trans ((congrArg (· / 256 ^ i % 256) h).trans (hlow v').symm)

theorem BytesStored.zero (a : Word) (v : Nat) (m : Memory) : BytesStored a 0 v m m := fun _ => rfl

/-- Only the low bytes of the number are stored. -/
theorem BytesStored.congr {a : Word} {n v v' : Nat} {m m' : Memory} (h : BytesStored a n v m m')
    (hv : v % 256 ^ n = v' % 256 ^ n) : BytesStored a n v' m m' := by
  intro b
  rw [h b]
  split
  next hlt => exact byte_congr hv hlt
  next => rfl

/-- Two stores one after the other, the second from where the first ended, are one store. -/
theorem BytesStored.append {a : Word} {n k u v : Nat} {m m' m'' : Memory} (h : BytesStored a n v m m')
    (h' : BytesStored (a + BitVec.ofNat 64 n) k u m' m'') (hsize : n + k ≤ 2 ^ 64)
    (hu : u % 256 ^ k = v / 256 ^ n % 256 ^ k) : BytesStored a (n + k) v m m'' := by
  intro b
  have hlt := (b - a).isLt
  rw [h' b, h b, toNat_sub_add_ofNat a b (by omega)]
  obtain hfirst | hlater := Nat.lt_or_ge (b - a).toNat n
  · rw [if_neg (by omega), if_pos hfirst, if_pos (by omega)]
  · have hdist : ((b - a).toNat + (2 ^ 64 - n)) % 2 ^ 64 = (b - a).toNat - n := by omega
    rw [hdist]
    obtain hsecond | hpast := Nat.lt_or_ge (b - a).toNat (n + k)
    · have hk : (b - a).toNat - n < k := by omega
      rw [if_pos hk, if_pos hsecond, byte_congr hu hk, Nat.div_div_eq_div_mul, ← pow_add, Nat.add_sub_cancel' hlater]
    · rw [if_neg (by omega), if_neg (by omega), if_neg (by omega)]

/-- Stored bytes read back at their addresses. -/
theorem BytesStored.byteAt {a : Word} {n v j : Nat} {m m' : Memory} (h : BytesStored a n v m m') (hn : n ≤ 2 ^ 64)
    (hj : j < n) : m'.byteAt (a + BitVec.ofNat 64 j).toNat = BitVec.ofNat 8 (v / 256 ^ j) := by
  rw [h, toNat_add_ofNat_sub a (by omega), if_pos hj]

/-- Every other byte is kept. -/
theorem BytesStored.byteAt_of_le {a b : Word} {n v : Nat} {m m' : Memory} (h : BytesStored a n v m m')
    (hb : n ≤ (b - a).toNat) : m'.byteAt b.toNat = m.byteAt b.toNat := by
  rw [h, if_neg (Nat.not_lt.2 hb)]

/-- The number of a buffer whose bytes are those of `v`. -/
theorem streamNat_of_bytes {m : Memory} {a : Word} {n v : Nat}
    (h : ∀ j < n, m.byteAt (a + BitVec.ofNat 64 j).toNat = BitVec.ofNat 8 (v / 256 ^ j)) :
    streamNat m a n = v % 256 ^ n := by
  induction n generalizing a v with
  | zero => rw [pow_zero, Nat.mod_one, streamNat]
  | succ n ih =>
    have hfirst := h 0 n.succ_pos
    rw [BitVec.add_zero, pow_zero, Nat.div_one] at hfirst
    have hrest : streamNat m (a + 1#64) n = v / 256 % 256 ^ n := ih fun j hj => by
      rw [← add_ofNat_succ, h (j + 1) (Nat.succ_lt_succ hj), Nat.div_div_eq_div_mul, pow_succ']
    rw [streamNat, hfirst, hrest, BitVec.toNat_ofNat, pow_succ' 256 n]
    exact (Nat.mod_mul ..).symm

/-- The bytes of the number of a buffer are the buffer's (R65). -/
theorem byte_streamNat {m : Memory} {a : Word} {n j : Nat} (hj : j < n) :
    BitVec.ofNat 8 (streamNat m a n / 256 ^ j) = m.byteAt (a + BitVec.ofNat 64 j).toNat := by
  obtain ⟨k, rfl⟩ := Nat.exists_eq_add_of_lt hj
  have hlt := streamNat_lt m a j
  apply BitVec.eq_of_toNat_eq
  rw [Nat.add_assoc, streamNat_add, Nat.add_mul_div_left _ _ (Nat.pow_pos (by decide)), Nat.div_eq_of_lt hlt, zero_add,
    streamNat, BitVec.toNat_ofNat, Nat.add_mul_mod_self_left, Nat.mod_eq_of_lt (BitVec.isLt _)]

/-! ### What has been written since a bind -/

/-- Since its bind at `d` over memory `m₀` the writer has taken the stream `x` of `len` bits: the full words of it stand in
memory from `d` on, and the rest is pending (R196, R243). -/
structure Written (d : Word) (m₀ : Memory) (x len : Nat) (m : Memory) (w : Writer) : Prop where
  bound : w.bound = true
  start : w.start = d
  addr : w.addr = d + BitVec.ofNat 64 (8 * (len / 64))
  avail : w.avail.toNat = len % 64
  ws : w.ws.toNat = x / 2 ^ (64 * (len / 64))
  lt : x < 2 ^ len
  wf : m.wf = true
  stored : BytesStored d (8 * (len / 64)) x m₀ m

theorem Written.bind (d : Word) {m : Memory} (hm : m.wf = true) : Written d m 0 0 m (Writer.bind d) :=
  ⟨rfl, rfl, (BitVec.add_zero d).symm, rfl, rfl, Nat.one_pos, hm, .zero d 0 m⟩

section Written

variable {d : Word} {m₀ m : Memory} {x len wid n : Nat} {w : Writer} {p : Platform} {v : Word}

/-- Byte and word counts of one stretch of memory. -/
theorem pow_bytes_eq (q : Nat) : 256 ^ (8 * q) = 2 ^ (64 * q) := by
  rw [pow_mul, pow_mul 2 64]
  rfl

/-- The position of a stream's end, as its full words and the rest. -/
theorem two_pow_eq_words_mul (len : Nat) : 2 ^ len = 2 ^ (64 * (len / 64)) * 2 ^ (len % 64) := by
  rw [← pow_add, Nat.div_add_mod]

theorem Written.writerOk (h : Written d m₀ x len m w) : WriterOk w := by
  rw [WriterOk, h.ws, h.avail, Nat.div_lt_iff_lt_mul (Nat.two_pow_pos _), ← pow_add, Nat.mod_add_div]
  exact h.lt

/-- The pending bits with the bits of a value above them are the longer stream without its full words. -/
theorem Written.bitsWith_eq (h : Written d m₀ x len m w) (v : Word) :
    w.bitsWith v = (x + 2 ^ len * v.toNat) / 2 ^ (64 * (len / 64)) := by
  rw [Writer.bitsWith, h.ws, h.avail, two_pow_eq_words_mul len, mul_assoc, Nat.add_mul_div_left _ _ (Nat.two_pow_pos _)]

theorem add_mul_lt_two_pow {y : Nat} (hx : x < 2 ^ len) (hy : y < 2 ^ wid) : x + 2 ^ len * y < 2 ^ (len + wid) :=
  calc x + 2 ^ len * y < 2 ^ len * (y + 1) := by rw [Nat.mul_succ]; omega
    _ ≤ 2 ^ len * 2 ^ wid := Nat.mul_le_mul_left _ hy
    _ = 2 ^ (len + wid) := (pow_add ..).symm

/-- A longer stream has the same full words. -/
theorem Written.stored_longer (h : Written d m₀ x len m w) (y : Nat) :
    BytesStored d (8 * (len / 64)) (x + 2 ^ len * y) m₀ m := by
  refine h.stored.congr ?_
  rw [pow_bytes_eq, two_pow_eq_words_mul len, mul_assoc, Nat.add_mul_mod_self_left]

/-- Putting a value makes the stream longer by it, where the port performs the bytes of its full words (R191, R239). -/
theorem Written.put (h : Written d m₀ x len m w) (hwid : wid ≤ 61) (hv : v.toNat < 2 ^ wid)
    (hn : 8 * ((len + wid) / 64) ≤ n) (hsize : n ≤ 2 ^ 64) (hport : ∀ i < n, p.check .write (d + BitVec.ofNat 64 i) = none) :
    ∃ m' w', w.put p m v wid = .stored m' w' ∧ Written d m₀ (x + 2 ^ len * v.toNat) (len + wid) m' w' := by
  have havail := h.avail
  have hlonger := h.stored_longer v.toNat
  obtain hshort | hfull := Nat.lt_or_ge (w.avail.toNat + wid) 64
  · have hq : (len + wid) / 64 = len / 64 := by omega
    obtain ⟨w', hput, hbound, hstart, haddr, havail', hws⟩ := Writer.put_short (p := p) h.wf h.writerOk hwid hv hshort
    refine ⟨m, w', hput, hbound.trans h.bound, hstart.trans h.start, ?_, by omega, ?_, add_mul_lt_two_pow h.lt hv, h.wf, ?_⟩
    · rw [haddr, h.addr, hq]
    · rw [hws, h.bitsWith_eq, hq]
    · rw [hq]
      exact hlonger
  · have hq : (len + wid) / 64 = len / 64 + 1 := by omega
    have hstore : ∀ i < 8, p.check .write (w.addr + BitVec.ofNat 64 i) = none := fun i hi => by
      rw [h.addr, BitVec.add_assoc, ← BitVec.ofNat_add]
      exact hport _ (by omega)
    obtain ⟨m', w', hput, hbound, hstart, haddr, havail', hws, hbytes⟩ :=
      Writer.put_full h.wf h.writerOk hwid hv hfull hstore
    refine ⟨m', w', hput, hbound.trans h.bound, hstart.trans h.start, ?_, by omega, ?_, add_mul_lt_two_pow h.lt hv,
      Writer.put_mem_wf h.wf hput, ?_⟩
    · rw [haddr, h.addr, hq, Nat.mul_succ, BitVec.ofNat_add, BitVec.add_assoc]
    · rw [hws, h.bitsWith_eq, hq, Nat.div_div_eq_div_mul, ← pow_add, Nat.mul_succ]
    · rw [h.addr] at hbytes
      rw [hq, Nat.mul_succ]
      refine hlonger.append hbytes (by omega) ?_
      rw [h.bitsWith_eq, pow_bytes_eq]
      exact Nat.mod_mod _ _

/-- A flush stores the rest of the stream and counts its bytes, where the port performs them (R195, R242). -/
theorem Written.flush (h : Written d m₀ x len m w) (hn : n = (len + 7) / 8) (hsize : n < 2 ^ 64)
    (hport : ∀ i < n, p.check .write (d + BitVec.ofNat 64 i) = none) :
    ∃ m', w.flush p m = .stored m' w.flushed ∧ w.flushed.total.toNat = n ∧ BytesStored d n x m₀ m' := by
  have hsum : 8 * (len / 64) + w.pendingBytes = n := by
    rw [Writer.pendingBytes, h.avail]
    omega
  have hstore : ∀ i < w.pendingBytes, p.check .write (w.addr + BitVec.ofNat 64 i) = none := fun i hi => by
    rw [h.addr, BitVec.add_assoc, ← BitVec.ofNat_add]
    exact hport _ (by omega)
  obtain ⟨m', hflush, hbytes⟩ := Writer.flush_stored h.wf hstore
  refine ⟨m', hflush, ?_, ?_⟩
  · rw [Writer.total, Writer.flushed, h.addr, h.start, BitVec.add_assoc, ← BitVec.ofNat_add, hsum,
      toNat_add_ofNat_sub d hsize]
  · rw [h.addr] at hbytes
    rw [← hsum]
    refine h.stored.append hbytes (by omega) ?_
    rw [h.ws, pow_bytes_eq]

end Written

/-! ### The three commands of a writer -/

/-- A writer of the unit with its three commands, and what each does when its check, its domain and the port allow it: the byte
writer and the word writer differ in the cursor and in the width of a value only. -/
structure WriterUnit where
  cursor : State → Writer
  /-- The state with another memory and another cursor of this writer. -/
  set : State → Memory → Writer → State
  bind : Reg → Instr
  write : Reg → Instr
  flush : Reg → Instr
  width : Nat → Nat
  width_le : ∀ v, width v ≤ 61
  lt_width : ∀ {v}, v < 2 ^ 61 - 1 → v < 2 ^ width v
  cursor_set : ∀ s m w, cursor (set s m w) = w
  mem_set : ∀ s m w, (set s m w).mem = m
  err_set : ∀ s m w, (set s m w).err = s.err
  platform_set : ∀ s m w, (set s m w).platform = s.platform
  regs_set : ∀ s m w, (set s m w).regs = s.regs
  cursor_finish : ∀ s rd v, cursor (s.finish rd v) = cursor s
  cursor_setReg : ∀ s r v, cursor (s.setReg r v) = cursor s
  exec_bind : ∀ s rb, exec (bind rb) s = .next (set s s.mem (Writer.bind (s.getReg rb))).complete
  exec_write : ∀ {s rs m w}, (cursor s).bound = true → (s.getReg rs).toNat < 2 ^ 61 - 1 →
    (cursor s).put s.platform s.mem (s.getReg rs) (width (s.getReg rs).toNat) = .stored m w →
      exec (write rs) s = .next (set s m w).complete
  exec_flush : ∀ {s rd m w}, (cursor s).bound = true → (cursor s).flush s.platform s.mem = .stored m w →
    exec (flush rd) s = .next ((set s m w).finish rd w.total)

/-- BW with BWBEGIN, BWWRITE and BWFLUSH. -/
def byteWriter : WriterUnit where
  cursor := State.bw
  set s m w := { s with mem := m, bw := w }
  bind := .bwbegin
  write := .bwwrite
  flush := .bwflush
  width := byteWidth
  width_le := byteWidth_le
  lt_width := lt_two_pow_byteWidth
  cursor_set _ _ _ := rfl
  mem_set _ _ _ := rfl
  err_set _ _ _ := rfl
  platform_set _ _ _ := rfl
  regs_set _ _ _ := rfl
  cursor_finish _ _ _ := rfl
  cursor_setReg _ _ _ := rfl
  exec_bind _ _ := exec_bwbegin
  exec_write := exec_bwwrite_stored
  exec_flush := exec_bwflush_stored

/-- WW with WWBEGIN, WWWRITE and WWFLUSH. -/
def wordWriter : WriterUnit where
  cursor := State.ww
  set s m w := { s with mem := m, ww := w }
  bind := .wwbegin
  write := .wwwrite
  flush := .wwflush
  width _ := 61
  width_le _ := le_refl 61
  lt_width := Nat.lt_of_lt_pred
  cursor_set _ _ _ := rfl
  mem_set _ _ _ := rfl
  err_set _ _ _ := rfl
  platform_set _ _ _ := rfl
  regs_set _ _ _ := rfl
  cursor_finish _ _ _ := rfl
  cursor_setReg _ _ _ := rfl
  exec_bind _ _ := exec_wwbegin
  exec_write h hv := exec_wwwrite_stored h (isCanonical_iff.2 hv)
  exec_flush := exec_wwflush_stored

namespace WriterUnit

variable {c : WriterUnit} {d : Word} {m₀ : Memory} {x len n : Nat} {s : State} {rs : Reg}

/-- One write command makes the stream longer by the register's value. -/
theorem exec_write_written (h : Written d m₀ x len s.mem (c.cursor s)) (hv : (s.getReg rs).toNat < 2 ^ 61 - 1)
    (hn : 8 * ((len + c.width (s.getReg rs).toNat) / 64) ≤ n) (hsize : n ≤ 2 ^ 64)
    (hport : ∀ i < n, s.platform.check .write (d + BitVec.ofNat 64 i) = none) :
    ∃ m w, exec (c.write rs) s = .next (c.set s m w).complete ∧
      Written d m₀ (x + 2 ^ len * (s.getReg rs).toNat) (len + c.width (s.getReg rs).toNat) m w := by
  obtain ⟨m, w, hput, hwritten⟩ := h.put (c.width_le _) (c.lt_width hv) hn hsize hport
  exact ⟨m, w, c.exec_write h.bound hv hput, hwritten⟩

/-- A state in the middle of writing values through register `rs`, from a state `s₀`: the stream so far, and what is kept. -/
structure Writing (c : WriterUnit) (s₀ : State) (rs : Reg) (d : Word) (x len : Nat) (s : State) : Prop where
  err : s.err = false
  platform : s.platform = s₀.platform
  kept : ∀ r, r ≠ rs → s.getReg r = s₀.getReg r
  written : Written d s₀.mem x len s.mem (c.cursor s)

/-- Writing a list of values makes the stream longer by their packed stream (R197, R243). -/
theorem writeAll_writing {s₀ : State} (hrs : rs ≠ 0#4) (hsize : n ≤ 2 ^ 64) (hport : PortAllows .write s₀ d n)
    (vs : List Word) (h : Writing c s₀ rs d x len s) (hvs : ∀ v ∈ vs, v.toNat < 2 ^ 61 - 1)
    (hn : (len + streamWidth c.width (vs.map BitVec.toNat) + 7) / 8 ≤ n) :
    ∃ u, writeAll (c.write rs) rs vs s = some u ∧
      Writing c s₀ rs d (x + 2 ^ len * packedStream c.width (vs.map BitVec.toNat))
        (len + streamWidth c.width (vs.map BitVec.toNat)) u := by
  induction vs generalizing s x len with
  | nil => exact ⟨s, rfl, h⟩
  | cons v vs ih =>
    have hreg : (s.setReg rs v).getReg rs = v := by rw [State.getReg_setReg, if_pos ⟨rfl, hrs⟩]
    have hother : ∀ r, r ≠ rs → (s.setReg rs v).getReg r = s.getReg r := fun r hr => by
      rw [State.getReg_setReg, if_neg fun hcon => hr hcon.1]
    have hv := hvs v List.mem_cons_self
    rw [List.map_cons, streamWidth] at hn
    have hbefore : Written d s₀.mem x len (s.setReg rs v).mem (c.cursor (s.setReg rs v)) := by
      rw [c.cursor_setReg]
      exact h.written
    obtain ⟨m, w, hexec, hwritten⟩ := exec_write_written (rs := rs) (n := n) hbefore (by rw [hreg]; exact hv)
      (by rw [hreg]; omega) hsize (fun i hi => by rw [State.setReg_platform, h.platform]; exact hport i hi)
    rw [hreg] at hwritten
    set t := (c.set (s.setReg rs v) m w).complete with ht
    have herr : t.err = false := (c.err_set _ m w).trans h.err
    have hafter : Writing c s₀ rs d (x + 2 ^ len * v.toNat) (len + c.width v.toNat) t := by
      refine ⟨herr, (c.platform_set _ m w).trans h.platform, fun r hr => ?_, ?_⟩
      · rw [State.getReg_congr (s.setReg rs v) t (c.regs_set _ m w), hother r hr, h.kept r hr]
      · rw [ht, complete_eq_finish, c.cursor_finish, c.cursor_set, State.finish_mem, c.mem_set]
        exact hwritten
    obtain ⟨u, hall, hu⟩ := ih hafter (fun v' hv' => hvs v' (List.mem_cons_of_mem v hv')) (by omega)
    refine ⟨u, by simp [writeAll, hexec, herr, hall], ?_⟩
    rw [List.map_cons, packedStream, streamWidth, Nat.mul_add, ← mul_assoc, ← pow_add, ← Nat.add_assoc, ← Nat.add_assoc]
    exact hu

/-- BEGIN, the writes and FLUSH of a list of canonical values: their packed stream stands at the base, its length in bytes in
`rd`, and no other register but `rs` has changed (R197, R243). -/
theorem packs (c : WriterUnit) {s : State} {rs rb rd : Reg} {vs : List Word} {n : Nat} (hrs : rs ≠ 0#4) (hrd : rd ≠ 0#4)
    (hs : s.err = false) (hm : s.mem.wf = true) (hvs : ∀ v ∈ vs, v.toNat < 2 ^ 61 - 1)
    (hn : n = (streamWidth c.width (vs.map BitVec.toNat) + 7) / 8) (hsize : n < 2 ^ 64)
    (hport : PortAllows .write s (s.getReg rb) n) :
    ∃ t u w, exec (c.bind rb) s = .next t ∧ writeAll (c.write rs) rs vs t = some u ∧ exec (c.flush rd) u = .next w ∧
      w.err = false ∧ (w.getReg rd).toNat = n ∧
      StoredAt (s.getReg rb) n (packedStream c.width (vs.map BitVec.toNat)) s w ∧
      w.platform = s.platform ∧ ∀ r, r ≠ rs → r ≠ rd → w.getReg r = s.getReg r := by
  set d := s.getReg rb
  set t := (c.set s s.mem (Writer.bind d)).complete with ht
  have hbind : Writing c s rs d 0 0 t := by
    refine ⟨(c.err_set ..).trans hs, c.platform_set .., fun r _ => State.getReg_congr _ _ (c.regs_set ..) r, ?_⟩
    rw [ht, complete_eq_finish, c.cursor_finish, c.cursor_set, State.finish_mem, c.mem_set]
    exact Written.bind d hm
  obtain ⟨u, hall, hu⟩ := writeAll_writing hrs hsize.le hport vs hbind hvs (by rw [Nat.zero_add]; exact hn.ge)
  rw [Nat.zero_add, Nat.zero_add, pow_zero, one_mul] at hu
  obtain ⟨m, hflush, htotal, hbytes⟩ := hu.written.flush (p := u.platform) hn hsize fun i hi => by rw [hu.platform]; exact hport i hi
  refine ⟨t, u, _, c.exec_bind s rb, hall, c.exec_flush hu.written.bound hflush, (c.err_set ..).trans hu.err, ?_, ?_,
    (c.platform_set ..).trans hu.platform, fun r hr hrrd => ?_⟩
  · rw [State.getReg_finish_same _ hrd, htotal]
  · rw [storedAt_iff, State.finish_mem, c.mem_set]
    exact hbytes
  · rw [State.getReg_finish_other _ hrrd, State.getReg_congr u _ (c.regs_set ..), hu.kept r hr]

end WriterUnit

/-! ### Packed streams -/

theorem streamWidth_const (k : Nat) (vs : List Nat) : streamWidth (fun _ => k) vs = k * vs.length := by
  induction vs with
  | nil => rfl
  | cons v vs ih =>
    rw [streamWidth, ih, List.length_cons, Nat.mul_succ]
    omega

/-- A packed stream has no bit above its width. -/
theorem packedStream_lt {width : Nat → Nat} {vs : List Nat} (h : ∀ v ∈ vs, v < 2 ^ width v) :
    packedStream width vs < 2 ^ streamWidth width vs := by
  induction vs with
  | nil => exact Nat.one_pos
  | cons v vs ih =>
    exact add_mul_lt_two_pow (h v List.mem_cons_self) (ih fun v' hv' => h v' (List.mem_cons_of_mem v hv'))

/-- Cutting a stream of 61-bit values every 61 bits gives the values back (R245). -/
theorem map_packedStream {vs : List Nat} (h : ∀ v ∈ vs, v < 2 ^ 61) :
    ((List.range vs.length).map fun j => packedStream (fun _ => 61) vs / 2 ^ (61 * j) % 2 ^ 61) = vs := by
  induction vs with
  | nil => rfl
  | cons v vs ih =>
    have hv := h v List.mem_cons_self
    rw [List.length_cons, List.range_succ_eq_map, List.map_cons, List.map_map]
    refine congrArg₂ List.cons ?_ ?_
    · rw [packedStream, mul_zero, pow_zero, Nat.div_one, Nat.add_mul_mod_self_left, Nat.mod_eq_of_lt hv]
    · refine Eq.trans (List.map_congr_left fun j _ => ?_) (ih fun v' hv' => h v' (List.mem_cons_of_mem v hv'))
      rw [Function.comp_apply, packedStream, Nat.succ_eq_add_one, Nat.mul_succ, Nat.add_comm (61 * j), pow_add,
        ← Nat.div_div_eq_div_mul, Nat.add_mul_div_left _ _ (Nat.two_pow_pos _), Nat.div_eq_of_lt hv, zero_add]

end Sys2Proof.Machine
end

section
/-! PROOFS. The statements about the writers' streams and the word round trip, from the laws above. -/

namespace Sys2Proof.Proofs

open Sys2Proof.Machine Sys2Proof.Safety

/-- Settles O34, from what a writer packs, at the byte codec's widths. -/
theorem byteWriterPacksItsElements : Obligations.ByteWriterPacksItsElements := by
  intro s rs rb rd vs n hrs hrd hs hm hvs hn hsize hport
  obtain ⟨t, u, w, hbegin, hwrites, hflush, herr, hcount, hstored, -⟩ :=
    byteWriter.packs hrs hrd hs hm hvs hn hsize hport
  exact ⟨t, u, w, hbegin, hwrites, hflush, herr, hcount, hstored⟩

/-- The byte count of `k` words is that of their packed stream (R243). -/
theorem wordBytes_eq (vs : List Word) :
    (61 * vs.length + 7) / 8 = (streamWidth wordWriter.width (vs.map BitVec.toNat) + 7) / 8 := by
  have hwidth : streamWidth wordWriter.width (vs.map BitVec.toNat) = 61 * (vs.map BitVec.toNat).length :=
    streamWidth_const 61 _
  rw [hwidth, List.length_map]

/-- Settles O43, from what a writer packs, at 61 bits for each value. -/
theorem wordWriterPacksItsWords : Obligations.WordWriterPacksItsWords := by
  intro s rs rb rd vs n hrs hrd hs hm hvs hn hsize hport
  obtain ⟨t, u, w, hbegin, hwrites, hflush, herr, hcount, hstored, -⟩ :=
    wordWriter.packs hrs hrd hs hm hvs (hn.trans (wordBytes_eq vs)) hsize hport
  exact ⟨t, u, w, hbegin, hwrites, hflush, herr, hcount, hstored⟩

/-- Settles O44: the words the reader gives are the stored stream cut every 61 bits. -/
theorem wordRoundTripReturnsTheWords : Obligations.WordRoundTripReturnsTheWords := by
  intro s rs rb rd rn vs n hrs hrd hrn hrbs hrbn hs hm hvs hn hend hsize hwrite hread
  obtain ⟨t, u, w, hbegin, hwrites, hflush, herr, hcount, hstored, hplatform, hkept⟩ :=
    wordWriter.packs hrs hrn hs hm hvs (hn.trans (wordBytes_eq vs)) hsize hwrite
  have hbase : w.getReg rb = s.getReg rb := hkept rb hrbs hrbn
  have hfits : (w.getReg rb).toNat + (w.getReg rn).toNat ≤ 2 ^ 64 := by rw [hbase, hcount]; exact hend
  have hport : PortAllows .read w (w.getReg rb) (w.getReg rn).toNat := fun i hi => by
    rw [hbase, hplatform]
    exact hread i (hcount ▸ hi)
  refine ⟨t, u, w, _, hbegin, hwrites, hflush, exec_wrbegin_of_fits (bufferFits_iff.2 hfits), by omega, ?_⟩
  rw [wordReaderEmitsTheWordStream w _ rd rb rn vs.length hrd herr hfits hport
    (exec_wrbegin_of_fits (bufferFits_iff.2 hfits)), hbase, hcount]
  have hlt61 : ∀ v ∈ vs.map BitVec.toNat, v < 2 ^ 61 := fun v hv => by
    obtain ⟨v', hv', rfl⟩ := List.mem_map.1 hv
    exact Nat.lt_of_lt_pred (hvs v' hv')
  have hlt : packedStream (fun _ => 61) (vs.map BitVec.toNat) < 256 ^ n := by
    refine (packedStream_lt hlt61).trans_le ?_
    rw [streamWidth_const, List.length_map, show (256 : Nat) = 2 ^ 8 by rfl, ← pow_mul]
    exact Nat.pow_le_pow_right Nat.two_pos (by omega)
  have hstream : streamNat w.mem (s.getReg rb) n = packedStream (fun _ => 61) (vs.map BitVec.toNat) := by
    rw [streamNat_of_bytes fun j hj => (storedAt_iff.1 hstored).byteAt hsize.le hj]
    exact Nat.mod_eq_of_lt hlt
  simp only [wordElement, hstream]
  rw [← List.length_map (f := BitVec.toNat) (as := vs)]
  exact map_packedStream hlt61

end Sys2Proof.Proofs
end

section
/-! PROOFS. The byte round trip: reader and writer at the same position of one stream, moved by one element at a time (spec
`42_byte_codec.md` R178, R197, R198). -/

namespace Sys2Proof.Machine

open Sys2Proof.Safety

/-! ### One command of the loop, and the loop -/

theorem runOk_of_exec {i : Instr} {s t : State} (h : exec i s = .next t) (ht : t.err = false) : runOk i s = some t := by
  simp [runOk, h, ht]

theorem copyBytes_of_empty {rd : Reg} {fuel : Nat} {s t : State} (h : runOk (.brread rd) s = some t) (ht : t.empty = true) :
    copyBytes rd (fuel + 1) s = some t := by
  simp [copyBytes, h, ht]

theorem copyBytes_of_element {rd : Reg} {fuel : Nat} {s t u : State} (h : runOk (.brread rd) s = some t)
    (ht : t.empty = false) (hu : runOk (.bwwrite rd) t = some u) : copyBytes rd (fuel + 1) s = copyBytes rd fuel u := by
  simp [copyBytes, h, ht, hu]

/-! ### Reader and writer apart -/

/-- A reader's position depends on its unread bytes alone. -/
theorem AtBit.congr {x len pos : Nat} {m m' : Memory} {r : Reader} (h : AtBit x len pos m r)
    (hunread : Unread (fun b => m.byteAt b.toNat = m'.byteAt b.toNat) r) : AtBit x len pos m' r :=
  ⟨(bitsLeft_congr hunread).symm.trans h.bits, h.count⟩

/-- Memory past the full words written is as it was at the bind. -/
theorem Written.byteAt_of_le {d b : Word} {m₀ m : Memory} {x len : Nat} {w : Writer} (h : Written d m₀ x len m w)
    (hb : 8 * (len / 64) ≤ (b - d).toNat) : m.byteAt b.toNat = m₀.byteAt b.toNat :=
  h.stored.byteAt_of_le hb

/-- Reader and writer at bit `pos` of the same stream `x` of `8n` bits: the stream up to there is written from `d` on, over the
memory `m₀`, and the rest is unread and lies off the destination. -/
structure Copying (p : Platform) (d : Word) (m₀ : Memory) (x n pos : Nat) (s : State) : Prop where
  err : s.err = false
  platform : s.platform = p
  reader : Ready 64 (fun b => p.check .read b = none ∧ n + 8 ≤ (b - d).toNat) s.br
  atBit : AtBit x (8 * n) pos s.mem s.br
  written : Written d m₀ (x % 2 ^ pos) pos s.mem s.bw
  pos_le : pos ≤ 8 * n + 60

section Copying

variable {p : Platform} {d : Word} {m₀ : Memory} {x n pos : Nat} {s : State} {rd : Reg}

/-- Before the end of the stream BRREAD and BWWRITE pass one element and move both cursors by its width. -/
theorem Copying.next (h : Copying p d m₀ x n pos s) (hrd : rd ≠ 0#4) (hlt : pos < 8 * n) (hsize : n + 8 ≤ 2 ^ 64)
    (hport : ∀ i < n + 8, p.check .write (d + BitVec.ofNat 64 i) = none) :
    ∃ t u pos', runOk (.brread rd) s = some t ∧ t.empty = false ∧ runOk (.bwwrite rd) t = some u ∧ pos < pos' ∧
      Copying p d m₀ x n pos' u := by
  obtain ⟨r, v, hread, hv, hready, hat⟩ := exec_brread_emits rd h.reader (fun _ hb => h.platform ▸ hb.1) h.atBit hlt
  set t := ({ s with br := r, empty := false }).finish rd v
  have hreg : t.getReg rd = v := State.getReg_finish_same _ hrd v
  have hcanonical : v.toNat < 2 ^ 61 - 1 := hv ▸ emitted_lt (Nat.mod_lt _ (by decide))
  have hwide := sixty_le_byteWidth v.toNat
  have hnarrow := byteWidth_le v.toNat
  have hbits : v.toNat = x / 2 ^ pos % 2 ^ byteWidth v.toNat := by
    rw [hv]
    exact emitted_eq_mod _
  obtain ⟨m, w, hwrite, hwritten⟩ := WriterUnit.exec_write_written (c := byteWriter) (s := t) (rs := rd) (n := n + 8)
    h.written (by rw [hreg]; exact hcanonical) (by rw [hreg]; change 8 * ((pos + byteWidth v.toNat) / 64) ≤ n + 8; omega)
    hsize (fun i hi => h.platform ▸ hport i hi)
  rw [hreg] at hwritten
  change Written d m₀ (x % 2 ^ pos + 2 ^ pos * v.toNat) (pos + byteWidth v.toNat) m w at hwritten
  have hstream : x % 2 ^ pos + 2 ^ pos * v.toNat = x % 2 ^ (pos + byteWidth v.toNat) := by
    rw [pow_add, Nat.mod_mul, ← hbits]
  rw [hstream] at hwritten
  refine ⟨t, _, pos + byteWidth v.toNat, runOk_of_exec hread h.err, rfl, runOk_of_exec hwrite h.err, by omega,
    h.err, h.platform, hready, hat.congr fun j hj => ?_, hwritten, by omega⟩
  obtain ⟨-, hoff⟩ := hready.unread j hj
  exact (h.written.byteAt_of_le (by omega)).trans (hwritten.byteAt_of_le (by omega)).symm

/-- At the end of the stream BRREAD answers Empty and leaves everything as it is. -/
theorem Copying.last (h : Copying p d m₀ x n pos s) (hle : 8 * n ≤ pos) :
    ∃ t, runOk (.brread rd) s = some t ∧ t.empty = true ∧ Copying p d m₀ x n pos t :=
  ⟨_, runOk_of_exec (exec_brread_ends rd h.reader h.atBit hle) h.err, rfl,
    h.err, h.platform, h.reader, h.atBit, h.written, h.pos_le⟩

/-- The loop copies the whole stream: it ends without error, at a position past the last bit (R198). -/
theorem Copying.copy_all (h : Copying p d m₀ x n pos s) (hrd : rd ≠ 0#4) (hsize : n + 8 ≤ 2 ^ 64)
    (hport : ∀ i < n + 8, p.check .write (d + BitVec.ofNat 64 i) = none) {fuel : Nat} (hfuel : 8 * n - pos < fuel) :
    ∃ t pos', copyBytes rd fuel s = some t ∧ 8 * n ≤ pos' ∧ Copying p d m₀ x n pos' t := by
  induction fuel generalizing s pos with
  | zero => omega
  | succ fuel ih =>
    obtain hlt | hle := Nat.lt_or_ge pos (8 * n)
    · obtain ⟨t, u, pos', hread, hempty, hwrite, hmove, hcopying⟩ := h.next hrd hlt hsize hport
      obtain ⟨y, last, hcopy, hlast⟩ := ih hcopying (by omega)
      exact ⟨y, last, (copyBytes_of_element hread hempty hwrite).trans hcopy, hlast⟩
    · obtain ⟨t, hread, hempty, hcopying⟩ := h.last (rd := rd) hle
      exact ⟨t, pos, copyBytes_of_empty hread hempty, hle, hcopying⟩

end Copying

end Sys2Proof.Machine
end

section
/-! PROOFS. The statement about the byte round trip, from the laws above. -/

namespace Sys2Proof.Proofs

open Sys2Proof.Machine Sys2Proof.Safety

/-- Settles O35: the loop writes the number of the buffer, and its bits past the buffer are 0. -/
theorem byteRoundTripReproducesTheBuffer : Obligations.ByteRoundTripReproducesTheBuffer := by
  rintro s t u rd rs1 rs2 rb rc a d n fuel hrd hrc hs hm rfl rfl rfl hfits hsize hfuel hread hwrite hoff hbegin hbind
  set a := s.getReg rs1
  set d := s.getReg rb
  set n := (s.getReg rs2).toNat
  set x := streamNat s.mem a n
  have hstart : Copying s.platform d s.mem x n 0 u := by
    rw [exec_brbegin_of_fits (bufferFits_iff.2 hfits)] at hbegin
    cases hbegin
    rw [exec_bwbegin] at hbind
    cases hbind
    refine ⟨hs, rfl, .bind (by decide) fun j hj => ⟨hread j hj, hoff j hj⟩, atBit_bind s.mem a (s.getReg rs2), ?_, Nat.zero_le _⟩
    rw [pow_zero, Nat.mod_one]
    exact Written.bind d hm
  obtain ⟨y, pos, hcopy, hpast, hcopying⟩ := hstart.copy_all hrd hsize.le hwrite hfuel
  have hpos := hcopying.pos_le
  obtain ⟨m, hflush, htotal, hbytes⟩ := hcopying.written.flush (p := y.platform) rfl (by omega) fun i hi => by
    rw [hcopying.platform]
    exact hwrite i (by omega)
  have hx256 : x < 256 ^ n := streamNat_lt s.mem a n
  have hwhole : x % 2 ^ pos = x := by
    refine Nat.mod_eq_of_lt (hx256.trans_le ?_)
    rw [show (256 : Nat) = 2 ^ 8 by rfl, ← pow_mul]
    exact Nat.pow_le_pow_right Nat.two_pos hpast
  rw [hwhole] at hbytes
  have hcount : (((({ y with mem := m, bw := y.bw.flushed } : State)).finish rc y.bw.flushed.total).getReg rc).toNat =
      (pos + 7) / 8 := by rw [State.getReg_finish_same _ hrc, htotal]
  refine ⟨y, _, hcopy, exec_bwflush_stored hcopying.written.bound hflush, hcopying.err, by omega, by omega, fun j hj => ?_,
    fun j hj hlt => ?_⟩
  · exact (hbytes.byteAt (by omega) (by omega)).trans (byte_streamNat hj)
  · rw [hcount] at hlt
    refine (hbytes.byteAt (by omega) hlt).trans ?_
    rw [Nat.div_eq_of_lt (hx256.trans_le (Nat.pow_le_pow_right (by decide) hj))]

end Sys2Proof.Proofs
end
